-- ==== Sys2Proof/Word.lean ====
section
/-! DEFINITION. The plain data words of the core: bytes, host bus words, and the sizes rules R9 and R10 fix. -/

namespace Sys2Proof

/-- One byte of a buffer (R14). -/
abbrev Byte := BitVec 8

/-- One host bus word and one command word: the host data width is 32 bits (R10, R13). -/
abbrev Word := BitVec 32

end Sys2Proof
end

