-- ==== Sys2Proof/Config.lean ====
section
/-! DEFINITION. The implementation parameters of R8 (BASE, BUF_BYTES and the five constant tables), the checks a
configuration must pass (R8, R412 to R416, R421), and the free values that stand for UNSPEC (R15). -/

namespace Sys2Proof

/-- The parameters as a builder of the core writes them down, not yet checked. Permutation tables hold the 1-based
source indices of R12; `sbox` is SBOX(g, row, col), 0-based (R12). -/
structure RawConfig where
  base     : Nat
  bufBytes : Nat
  ip       : List Nat
  fp       : List Nat
  e        : List Nat
  p        : List Nat
  sbox     : List (List (List Nat))
  deriving DecidableEq, Repr

namespace RawConfig

/-- R8: BASE is a multiple of 0x4000. -/
def baseOk (c : RawConfig) : Bool := c.base % 0x4000 == 0

/-- R8: BUF_BYTES is a multiple of 8 in [96, 4088]. -/
def bufBytesOk (c : RawConfig) : Bool :=
  decide (96 ≤ c.bufBytes) && decide (c.bufBytes ≤ 4088) && c.bufBytes % 8 == 0

/-- R412: the lengths of the four permutation tables. -/
def lengthsOk (c : RawConfig) : Bool :=
  c.ip.length == 64 && c.fp.length == 64 && c.e.length == 48 && c.p.length == 32

/-- Every entry of a table is in [1, w]. -/
def entriesIn (w : Nat) (t : List Nat) : Bool := t.all fun k => decide (1 ≤ k) && decide (k ≤ w)

/-- R413: the ranges of the entries. -/
def rangesOk (c : RawConfig) : Bool :=
  entriesIn 64 c.ip && entriesIn 64 c.fp && entriesIn 32 c.e && entriesIn 32 c.p

/-- R414: IP_TABLE, FP_TABLE and P_TABLE have pairwise distinct entries. R415: E_TABLE may repeat entries. -/
def bijectionsOk (c : RawConfig) : Bool :=
  decide c.ip.Nodup && decide c.fp.Nodup && decide c.p.Nodup

/-- R416: FP_TABLE(IP_TABLE(i) - 1) = i + 1 for i in 0..63. -/
def inverseOk (c : RawConfig) : Bool :=
  (List.range 64).all fun i => c.fp.getD (c.ip.getD i 0 - 1) 0 == i + 1

/-- R421: SBOX has 8 tables of 4 rows of 16 entries, each entry in [0, 15]. -/
def sboxOk (c : RawConfig) : Bool :=
  c.sbox.length == 8 && c.sbox.all fun t =>
    t.length == 4 && t.all fun row => row.length == 16 && row.all fun y => decide (y ≤ 15)

/-- All the constraints of R8, R412 to R416 and R421. -/
def wf (c : RawConfig) : Bool :=
  c.baseOk && c.bufBytesOk && c.lengthsOk && c.rangesOk && c.bijectionsOk && c.inverseOk && c.sboxOk

end RawConfig

/-- A configuration the core can be built with: the raw parameters and the proof that they pass every check. -/
structure Config extends RawConfig where
  ok : toRawConfig.wf = true
  deriving DecidableEq, Repr

namespace Config

/-- R412 to R416, R421: "a model must refuse a configuration that breaks" the rules. -/
def ofRaw? (c : RawConfig) : Option Config :=
  if h : c.wf = true then some ⟨c, h⟩ else none

/-- SBOX(g, row, col) (R12). -/
def sboxAt (c : Config) (g row col : Nat) : Nat :=
  ((c.sbox.getD g []).getD row []).getD col 0

/-! The values R8 marks OPEN. They have no body: no proof can use a value of theirs. -/

/-- BASE / 0x4000 of the core the reset state stands for (R8, D2). -/
opaque openBaseIndex : Nat

/-- (BUF_BYTES - 96) / 8 of the core the reset state stands for (R8, D8). -/
opaque openBufIndex : Fin 500

/-- IP_TABLE as a permutation of the bit positions 0..63; FP_TABLE is its inverse (R414, R416, D29). -/
opaque openIp : Equiv.Perm (Fin 64)

/-- E_TABLE as a map of the positions 0..47 to source positions (R413, R415, D29). -/
opaque openE : Fin 48 → Fin 32

/-- P_TABLE as a permutation of the bit positions 0..31 (R414, D29). -/
opaque openP : Equiv.Perm (Fin 32)

/-- SBOX (R421, D29). -/
opaque openSbox : Fin 8 → Fin 4 → Fin 16 → Fin 16

/-- A map of output positions to source positions as a table of 1-based entries (R12). -/
def tableOf {n w : Nat} (f : Fin n → Fin w) : List Nat := List.ofFn fun i => (f i).val + 1

/-- An S-box function as nested lists (R12). -/
def sboxOf (f : Fin 8 → Fin 4 → Fin 16 → Fin 16) : List (List (List Nat)) :=
  List.ofFn fun g => List.ofFn fun row => List.ofFn fun col => (f g row col).val

/-- The OPEN parameters written down as R8 and R12 number them. Every configuration that meets R8, R412 to R416 and
R421 has this form for some value of the six constants. -/
def openRaw : RawConfig where
  base     := 0x4000 * openBaseIndex
  bufBytes := 96 + 8 * openBufIndex.val
  ip       := tableOf openIp
  fp       := tableOf openIp.symm
  e        := tableOf openE
  p        := tableOf openP
  sbox     := sboxOf openSbox

@[simp] theorem tableOf_length {n w : Nat} (f : Fin n → Fin w) : (tableOf f).length = n := by
  simp [tableOf]

theorem tableOf_getD {n w : Nat} (f : Fin n → Fin w) (i : Nat) (h : i < n) :
    (tableOf f).getD i 0 = (f ⟨i, h⟩).val + 1 := by
  simp [tableOf, List.getD_eq_getElem?_getD, h]

theorem tableOf_nodup {n w : Nat} (f : Fin n → Fin w) (hf : Function.Injective f) : (tableOf f).Nodup :=
  List.nodup_ofFn.2 fun a b h => hf (Fin.ext (by simpa using h))

theorem tableOf_entriesIn {n w : Nat} (f : Fin n → Fin w) : RawConfig.entriesIn w (tableOf f) = true := by
  simp only [RawConfig.entriesIn, List.all_eq_true]
  intro k hk
  obtain ⟨i, rfl⟩ := List.mem_ofFn.1 hk
  simp

theorem tableOf_inverse {n : Nat} (f : Equiv.Perm (Fin n)) (i : Nat) (h : i < n) :
    (tableOf f.symm).getD ((tableOf f).getD i 0 - 1) 0 = i + 1 := by
  rw [tableOf_getD f i h, Nat.add_sub_cancel, tableOf_getD f.symm _ (f ⟨i, h⟩).isLt]
  simp

theorem openRaw_inverseOk : openRaw.inverseOk = true := by
  simp only [RawConfig.inverseOk, List.all_eq_true, List.mem_range, beq_iff_eq]
  exact fun i hi => tableOf_inverse openIp i hi

theorem openRaw_sboxOk : openRaw.sboxOk = true := by
  have h : ∀ f : Fin 8 → Fin 4 → Fin 16 → Fin 16, RawConfig.sboxOk { openRaw with sbox := sboxOf f } = true := by
    intro f
    simp only [RawConfig.sboxOk, sboxOf, Bool.and_eq_true, List.all_eq_true, List.mem_ofFn, beq_iff_eq, List.length_ofFn,
      true_and, forall_exists_index, forall_apply_eq_imp_iff]
    intro g row col
    have := (f g row col).isLt
    exact decide_eq_true (by omega)
  exact h openSbox

theorem openRaw_wf : openRaw.wf = true := by
  have hb := openBufIndex.isLt
  have h1 : openRaw.baseOk = true := by simp [RawConfig.baseOk, openRaw]
  have h2 : openRaw.bufBytesOk = true := by
    have h : ∀ k, k < 500 → (decide (96 ≤ 96 + 8 * k) && decide (96 + 8 * k ≤ 4088) && (96 + 8 * k) % 8 == 0) = true := by
      intro k hk
      simp
      omega
    exact h _ hb
  have h3 : openRaw.lengthsOk = true := by simp [RawConfig.lengthsOk, openRaw]
  have h4 : openRaw.rangesOk = true := by
    simp only [RawConfig.rangesOk, Bool.and_eq_true]
    exact ⟨⟨⟨tableOf_entriesIn _, tableOf_entriesIn _⟩, tableOf_entriesIn _⟩, tableOf_entriesIn _⟩
  have h5 : openRaw.bijectionsOk = true := by
    simp only [RawConfig.bijectionsOk, Bool.and_eq_true]
    exact ⟨⟨decide_eq_true (tableOf_nodup _ openIp.injective), decide_eq_true (tableOf_nodup _ openIp.symm.injective)⟩,
      decide_eq_true (tableOf_nodup _ openP.injective)⟩
  simp only [RawConfig.wf, h1, h2, h3, h4, h5, openRaw_inverseOk, openRaw_sboxOk, Bool.and_self]

/-- The configuration of the core that the reset state stands for: any configuration R8 allows. -/
def installed : Config := ⟨openRaw, openRaw_wf⟩

/-- UNSPEC (R15): "every read of it returns an arbitrary value, drawn afresh at each read". `freeValue w n` is the
`n`-th draw, at width `w`; it has no body, and State counts the draws. -/
opaque freeValue (w n : Nat) : BitVec w

end Config

end Sys2Proof
end

