-- ==== Sys2Proof/Syntax.lean ====
section
/-! DEFINITION. The thirteen commands of R301 as one inductive, and the host's side of the interface: the events that
reach the core from outside (R116, R201, R700). -/

namespace Sys2Proof

/-- The commands (R301). A command word carries no operand (R304), so no constructor has a field. -/
inductive Instr where
  /-- PERM_IP, OPC 0x10 (R417). -/
  | permIp
  /-- PERM_FP, OPC 0x11 (R418). -/
  | permFp
  /-- PERM_E, OPC 0x12 (R419). -/
  | permE
  /-- PERM_P, OPC 0x13 (R420). -/
  | permP
  /-- SUBST, OPC 0x14 (R425). -/
  | subst
  /-- FROUND, OPC 0x15 (R442). -/
  | fround
  /-- KEY_DERIVE, OPC 0x20 (R436). -/
  | keyDerive
  /-- ENC_BLOCK, OPC 0x21 (R460). -/
  | encBlock
  /-- DEC_BLOCK, OPC 0x22 (R461). -/
  | decBlock
  /-- PAD, OPC 0x30 (R484). -/
  | pad
  /-- UNPAD, OPC 0x31 (R485). -/
  | unpad
  /-- ENCRYPT, OPC 0x32 (R473). -/
  | encrypt
  /-- DECRYPT, OPC 0x33 (R476). -/
  | decrypt
  deriving DecidableEq, Repr

/-- One host bus transaction: a byte address on the host bus, a width in bytes and, for a write, the word driven. Only
aligned 4-byte transactions are word accesses of the core (R201); the type holds the others too, so that the core's
answer to them is modelled. -/
inductive Transaction where
  | read (addr width : Nat)
  | write (addr width : Nat) (value : Word)
  deriving DecidableEq, Repr

/-- The byte address of a transaction. -/
def Transaction.addr : Transaction → Nat
  | .read a _ => a
  | .write a _ _ => a

/-- The width of a transaction in bytes. -/
def Transaction.width : Transaction → Nat
  | .read _ w => w
  | .write _ w _ => w

/-- What happens next at the core, in the total order of R208: a host transaction, a turn of the sequencer, or a pulse
of `rst_n`, which R701 makes one atomic event. -/
inductive Event where
  /-- The sequencer takes its next step (R116, R208). -/
  | sequencer
  /-- A host transaction reaches the core (R116, R201). -/
  | bus (t : Transaction)
  /-- `rst_n` is asserted and released: a hardware reset (R700, R701). -/
  | hardwareReset
  deriving DecidableEq, Repr

end Sys2Proof
end

