-- ==== Sys2Proof/WellFormed.lean ====
section
/-! DEFINITION. The checks on syntax. A command has no operand to check (R304); a host transaction is a word access of
the core's window or it is not (R200, R201). The checks on a configuration are in Config.lean. -/

namespace Sys2Proof

/-- Every command is well formed: R304 gives a command word no operand field. -/
def Instr.wf : Instr → Bool := fun _ => true

/-- R200: the address lies in the 16 KiB window at BASE. -/
def Transaction.inWindow (base : Nat) (t : Transaction) : Bool :=
  decide (base ≤ t.addr) && decide (t.addr < base + 0x4000)

/-- R201: a 32-bit transaction at an offset that is a multiple of 4. -/
def Transaction.wordAccess (base : Nat) (t : Transaction) : Bool :=
  t.width == 4 && (t.addr - base) % 4 == 0

/-- A transaction the core performs: in its window (R200), 32 bits wide and aligned (R201). -/
def Transaction.wf (base : Nat) (t : Transaction) : Bool := t.inWindow base && t.wordAccess base

end Sys2Proof
end

