-- ==== Sys2Proof/Decode.lean ====
section
/-! DEFINITION. The command word format C (R300) and the opcode map (R301): a decoder, total on every 32-bit word and
rejecting by name, and an encoder written from the same table. -/

namespace Sys2Proof

/-- Why a command word spells no command (R300, R302). -/
inductive IllegalWord where
  /-- RSV, bits 31:8, is not 0. -/
  | reservedBitsSet
  /-- OPC, bits 7:0, is a reserved value. -/
  | unassignedOpcode
  deriving DecidableEq, Repr

/-- OPC, bits 7:0 of a command word (R300). -/
def opcField (w : Word) : BitVec 8 := w.extractLsb' 0 8

/-- RSV, bits 31:8 of a command word (R300). -/
def rsvField (w : Word) : BitVec 24 := w.extractLsb' 8 24

/-- The opcode map (R301), row by row. -/
def opcodeMap : List (BitVec 8 × Instr) :=
  [ (0x10#8, .permIp), (0x11#8, .permFp), (0x12#8, .permE), (0x13#8, .permP), (0x14#8, .subst), (0x15#8, .fround),
    (0x20#8, .keyDerive), (0x21#8, .encBlock), (0x22#8, .decBlock),
    (0x30#8, .pad), (0x31#8, .unpad), (0x32#8, .encrypt), (0x33#8, .decrypt) ]

/-- The command an OPC value spells, if it is assigned (R301, R302). -/
def decodeOpcode (opc : BitVec 8) : Option Instr := (opcodeMap.find? fun row => row.1 == opc).map Prod.snd

/-- R300: a command word is legal if and only if RSV = 0 and OPC is listed in R301. The decoder reads only the word. -/
def decode (w : Word) : Except IllegalWord Instr :=
  if rsvField w = 0#24 then
    match decodeOpcode (opcField w) with
    | some i => .ok i
    | none => .error .unassignedOpcode
  else .error .reservedBitsSet

/-- The OPC value of a command (R301). -/
def opcode : Instr → BitVec 8
  | .permIp => 0x10
  | .permFp => 0x11
  | .permE => 0x12
  | .permP => 0x13
  | .subst => 0x14
  | .fround => 0x15
  | .keyDerive => 0x20
  | .encBlock => 0x21
  | .decBlock => 0x22
  | .pad => 0x30
  | .unpad => 0x31
  | .encrypt => 0x32
  | .decrypt => 0x33

/-- The command word of a command: RSV = 0 above OPC (R300). -/
def encode (i : Instr) : Word := 0#24 ++ opcode i

/-- The command read from a word numbered as the opcode table numbers it. Every command word is exactly one 32-bit
word (R303), so bits above `nbits` and above bit 31 are 0. -/
def decodeTableWord (nbits w : Nat) : Option Instr :=
  match decode (BitVec.ofNat 32 (w % 2 ^ nbits)) with
  | .ok i => some i
  | .error _ => none

end Sys2Proof
end

