-- ==== Sys2Proof/Machine/Codec.lean ====
section
/-! DEFINITION. Bit sequences (R11), the BitCodec (R400, R401) and the generic re-indexing operation (R410). A sequence
of width w is a `BitVec w` whose index 0 is its most significant bit, as R11 reads it: v<s> is `v.getMsbD s`. -/

namespace Sys2Proof.Machine

/-- The sequence of width n whose bit at index s is `f s` (R11). -/
def bitSeq : (n : Nat) → (Nat → Bool) → BitVec n
  | 0, _ => 0#0
  | n + 1, f => (bitSeq n f).concat (f n)

/-- v<a .. a+n-1> (R11). -/
def slice {w : Nat} (v : BitVec w) (a n : Nat) : BitVec n := bitSeq n fun s => v.getMsbD (a + s)

/-- bytesToBits (R400): v<8k + t> is bit 7 - t of B[k]. `w` is the width 8|B| of the result. -/
def bits (w : Nat) (bs : List Byte) : BitVec w := bitSeq w fun s => (bs.getD (s / 8) 0).getMsbD (s % 8)

/-- bitsToBytes (R401) for a width that is a multiple of 8. -/
def bytes {w : Nat} (v : BitVec w) : List Byte := (List.range (w / 8)).map fun k => slice v (8 * k) 8

/-- bitsToBytes with its length check (R401): none is the source's MalformedLengthError, which R402 shows no command
can raise. -/
def bitsToBytes? {w : Nat} (v : BitVec w) : Option (List Byte) := if w % 8 = 0 then some (bytes v) else none

/-- apply(T, v) (R410): u<i> = v<T(i) - 1>, of width n = |T|. -/
def permute {w : Nat} (t : List Nat) (n : Nat) (v : BitVec w) : BitVec n :=
  bitSeq n fun i => v.getMsbD (t.getD i 0 - 1)

end Sys2Proof.Machine
end

