-- ==== Sys2Proof/Machine/Cipher.lean ====
section
/-! DEFINITION. The pure functions of the datapath: the permutations (R410 to R420), the S-box array (R422 to R424), the
round function (R440), the key schedule (R430 to R432), padding (R480, R482, R483), and the source's block, encrypt and
decrypt (R450, R470, R471), which the sequencer's steps realise. -/

namespace Sys2Proof.Machine

/-- apply(IP_TABLE, v) (R410, R417). -/
def initialPermutation (c : Config) (v : BitVec 64) : BitVec 64 := permute c.ip 64 v

/-- apply(FP_TABLE, v) (R410, R418). -/
def finalPermutation (c : Config) (v : BitVec 64) : BitVec 64 := permute c.fp 64 v

/-- apply(E_TABLE, v) (R410, R419). -/
def expand (c : Config) (v : BitVec 32) : BitVec 48 := permute c.e 48 v

/-- apply(P_TABLE, v) (R410, R420). -/
def roundPermutation (c : Config) (v : BitVec 32) : BitVec 32 := permute c.p 32 v

/-- row = 2 * G<0> + G<5>, the outer bits of a group (R423). -/
def sboxRow (grp : BitVec 6) : Nat := 2 * (grp.getMsbD 0).toNat + (grp.getMsbD 5).toNat

/-- col = 8 * G<1> + 4 * G<2> + 2 * G<3> + G<4>, the middle bits of a group (R423). -/
def sboxCol (grp : BitVec 6) : Nat :=
  8 * (grp.getMsbD 1).toNat + 4 * (grp.getMsbD 2).toNat + 2 * (grp.getMsbD 3).toNat + (grp.getMsbD 4).toNat

/-- The lookup of lane g: the 4-bit sequence of SBOX(g, row, col), most significant bit first (R423). -/
def sboxLane (c : Config) (g : Nat) (grp : BitVec 6) : BitVec 4 :=
  BitVec.ofNat 4 (c.sboxAt g (sboxRow grp) (sboxCol grp))

/-- substitute(v) (R422, R424): bits 4g .. 4g+3 of the result come from group G_g = v<6g .. 6g+5> and table g. -/
def substitute (c : Config) (v : BitVec 48) : BitVec 32 :=
  bitSeq 32 fun j => (sboxLane c (j / 4) (slice v (6 * (j / 4)) 6)).getMsbD (j % 4)

/-- F(r, k) (R440). -/
def roundFunction (c : Config) (r : BitVec 32) (k : BitVec 48) : BitVec 32 :=
  roundPermutation c (substitute c (expand c r ^^^ k))

/-- The key material KM = bits(NK)<0..55> (R431). -/
def keyMaterial (nk : List Byte) : BitVec 56 := slice (bits 64 nk) 0 56

/-- Round key i: RKi<j> = KM<(j + i) mod 56> (R432). -/
def roundKeyOf (km : BitVec 56) (i : Nat) : BitVec 48 := bitSeq 48 fun j => km.getMsbD ((j + i) % 56)

/-- derive: the RoundKeySet in index order (R432, R434) of a normalized key. -/
def deriveKeys (nk : List Byte) : Vector (BitVec 48) 16 := Vector.ofFn fun i => roundKeyOf (keyMaterial nk) i.val

/-- Key normalization of the key bytes that are read (R430): appended zeros, at most 8 bytes. -/
def normalizeKey (k : List Byte) : List Byte := (k ++ List.replicate 8 0).take 8

/-- The order in which the rounds use the round keys (R435, R451). -/
inductive Direction where
  | forward
  | reverse
  deriving DecidableEq, Repr

/-- K(j) (R451): RK[j] forward, RK[15 - j] in reverse. -/
def keyAt (dir : Direction) (rk : Vector (BitVec 48) 16) (j : Nat) : BitVec 48 :=
  match dir with
  | .forward => rk.getD j 0
  | .reverse => rk.getD (15 - j) 0

/-- One round on the halves (left, right): newRight = left XOR F(right, k), then the swap (R450 step 3). -/
def feistelRound (c : Config) (k : BitVec 48) (h : BitVec 32 × BitVec 32) : BitVec 32 × BitVec 32 :=
  (h.2, h.1 ^^^ roundFunction c h.2 k)

/-- The first n rounds (R450 step 3), round j with key K(j). -/
def feistelRounds (c : Config) (k : Nat → BitVec 48) : Nat → BitVec 32 × BitVec 32 → BitVec 32 × BitVec 32
  | 0, h => h
  | n + 1, h => feistelRound c (k n) (feistelRounds c k n h)

/-- x<0..31> and x<32..63> (R450 step 2). -/
def halves (x : BitVec 64) : BitVec 32 × BitVec 32 := (slice x 0 32, slice x 32 32)

/-- right ++ left (R450 step 4, R457). -/
def joinSwapped (left right : BitVec 32) : BitVec 64 := right ++ left

/-- block(b, K) on the 64-bit sequence of the block (R450). -/
def blockBits (c : Config) (k : Nat → BitVec 48) (x : BitVec 64) : BitVec 64 :=
  let h := feistelRounds c k 16 (halves (initialPermutation c x))
  finalPermutation c (joinSwapped h.1 h.2)

/-- block(b, K) on 8 bytes (R450). -/
def block (c : Config) (k : Nat → BitVec 48) (b : List Byte) : List Byte := bytes (blockBits c k (bits 64 b))

/-- The pad length n = 8 - (len mod 8) (R480). -/
def padLength (len : Nat) : Nat := 8 - len % 8

/-- pad(m): append n bytes of value n (R480). -/
def padBytes (m : List Byte) : List Byte := m ++ List.replicate (padLength m.length) (BitVec.ofNat 8 (padLength m.length))

/-- unpad(c) (R482, R483): none is PADDING. Only the last byte is checked. -/
def unpadBytes (c : List Byte) : Option (List Byte) :=
  match c.getLast? with
  | none => none
  | some last =>
    let n := last.toNat
    if n = 0 ∨ 8 < n ∨ c.length < n then none else some (c.take (c.length - n))

/-- The outputs of `block` on the n consecutive 8-byte chunks of m, concatenated (R470, R471). -/
def blocks (c : Config) (k : Nat → BitVec 48) (m : List Byte) (n : Nat) : List Byte :=
  (List.range n).flatMap fun b => block c k ((m.drop (8 * b)).take 8)

/-- encrypt(m, key) (R470), the key being the bytes KEY[0 .. min(KEY_LEN, 8) - 1]. -/
def encryptBytes (c : Config) (key m : List Byte) : List Byte :=
  let p := padBytes m
  blocks c (keyAt .forward (deriveKeys (normalizeKey key))) p (p.length / 8)

/-- decrypt(c, key) (R471), after its check that len(c) mod 8 = 0: none is PADDING. -/
def decryptBytes (c : Config) (key m : List Byte) : Option (List Byte) :=
  unpadBytes (blocks c (keyAt .reverse (deriveKeys (normalizeKey key))) m (m.length / 8))

end Sys2Proof.Machine
end

