-- ==== Sys2Proof/Machine/State.lean ====
section
/-! DEFINITION. The state of the core (R100 to R120), the reasons a step can stop, and the state right after a hardware
reset (R700). State is plain data. -/

namespace Sys2Proof.Machine

/-- The sequencer's PHASE (R106). The reserved values 9 to 15 are never reached, so they have no constructor (U10). -/
inductive Phase where
  | idle
  | accepted
  | padded
  | keygen
  | raw
  | permutedInitial
  | round
  | swappedFinal
  | permutedFinal
  deriving DecidableEq, Repr

/-- STATUS.ERRCODE (R600). The reserved values 6 to 15 are never recorded, so they have no constructor (U11). -/
inductive ErrCode where
  | ok
  | malformedLength
  | invalidBlockLength
  | padding
  | illegalCommand
  | lengthRange
  deriving DecidableEq, Repr

/-- The core's answer to the last host transaction: the model's own record, so that a host read can be observed. -/
inductive Response where
  /-- No transaction since the hardware reset. -/
  | none
  /-- A read returned this word. -/
  | data (w : Word)
  /-- A write completed; a dropped write completes too (R710). -/
  | written
  /-- A write got a bus error (R201). -/
  | busError
  deriving DecidableEq, Repr

/-- The bytes of a buffer that hold a value: cells at strictly rising indices. A byte that no cell lists is UNSPEC
(R15, R112 to R114). -/
abbrev Memory := List Host.Cell

/-- Why the machine stops with a fault. Raised by a host transaction only, never by a command. -/
inductive Fault where
  /-- A host read that is not an aligned 32-bit access: "a model makes such a host read fault" (R201, U15). Safe: the
  core itself goes on, with its state unchanged (R603). -/
  | busErrorOnRead
  /-- A host transaction at an address outside the 16 KiB window, which is not in the core's address space (R200).
  Safe: the core does not see such a transaction. -/
  | outsideWindow
  deriving DecidableEq, Repr

/-- Why the machine refuses a step. -/
inductive Refusal where
  /-- No meaning for the command of this mnemonic: raised by no arm of this model. Safe. -/
  | notModelled (mnemonic : String)
  /-- The sequencer stands at a position that its command never has (R117, U10): an unassigned OP, or a PHASE that the
  command of OP does not pass through. Raised by commands, in states that no run reaches. Safe. -/
  | unreachablePosition
  deriving DecidableEq, Repr

/-- The state of the core. -/
structure State where
  /-- The parameters of R8 with the read-only table storage of R115; nothing changes them (R118). -/
  cfg      : Config
  /-- OP: the opcode of the command being run, latched at acceptance (R100). -/
  op       : BitVec 8
  /-- CMDWORD: the command word written to CMD at acceptance (R100). -/
  cmdword  : Word
  /-- PHASE, mirrored in STATUS.PHASE (R100, R106). -/
  phase    : Phase
  /-- ROUND, mirrored in STATUS.ROUND (R100). -/
  round    : BitVec 4
  /-- BLK, mirrored in STATUS.BLK (R100). -/
  blk      : BitVec 16
  /-- RK[0] to RK[15], the round-key file (R101). -/
  rk       : Vector (BitVec 48) 16
  /-- X, the block register (R102). -/
  x        : BitVec 64
  /-- L, the first half register (R102). -/
  left     : BitVec 32
  /-- R, the second half register (R102). -/
  right    : BitVec 32
  /-- CTRL.IRQ_EN (R104). -/
  irqEn    : Bool
  /-- STATUS.BUSY (R105). -/
  busy     : Bool
  /-- STATUS.DONE (R105). -/
  done     : Bool
  /-- STATUS.ERR (R105). -/
  err      : Bool
  /-- STATUS.WERR (R105). -/
  werr     : Bool
  /-- STATUS.ERRCODE (R105, R600). -/
  errcode  : ErrCode
  /-- KEY_LEN (R108). -/
  keyLen   : Word
  /-- IN_LEN (R109). -/
  inLen    : Word
  /-- OUT_LEN (R110). -/
  outLen   : Word
  /-- KEY[0..7], the registers KEY0 and KEY1 (R112). -/
  key      : Memory
  /-- IBUF[0..BUF_BYTES-1] (R113). -/
  ibuf     : Memory
  /-- OBUF[0..BUF_BYTES+7] (R114). -/
  obuf     : Memory
  /-- The model's own: how many UNSPEC values have been drawn (R15). -/
  draws    : Nat
  /-- The model's own: what happens next, in the order of R208. When the list is empty the sequencer has every turn. -/
  events   : List Event
  /-- The model's own: the answer to the last host transaction. -/
  response : Response
  deriving DecidableEq, Repr

/-- The state right after a hardware reset of a core with parameters `cfg` (R700), `d` values having been drawn and
`events` still to come. R700 leaves OP, CMDWORD, RK, X, L and R UNSPEC: each takes a free value. It leaves KEY, IBUF
and OBUF UNSPEC: no cell is listed. -/
def State.afterReset (cfg : Config) (d : Nat) (events : List Event) : State where
  cfg      := cfg
  op       := Config.freeValue 8 d
  cmdword  := Config.freeValue 32 (d + 1)
  phase    := .idle
  round    := 0
  blk      := 0
  rk       := Vector.ofFn fun i => Config.freeValue 48 (d + 2 + i.val)
  x        := Config.freeValue 64 (d + 18)
  left     := Config.freeValue 32 (d + 19)
  right    := Config.freeValue 32 (d + 20)
  irqEn    := false
  busy     := false
  done     := false
  err      := false
  werr     := false
  errcode  := .ok
  keyLen   := 0
  inLen    := 0
  outLen   := 0
  key      := []
  ibuf     := []
  obuf     := []
  draws    := d + 21
  events   := events
  response := .none

/-- The machine right after reset (R700), with nothing yet to come from the host. -/
def State.reset : State := State.afterReset Config.installed 0 []

end Sys2Proof.Machine
end

