-- ==== Sys2Proof/Machine/Ops.lean ====
section
/-! DEFINITION. The shared operations over buffers and registers: MemRead and MemWrite (R15, R214), acceptance (R320),
the two ends of a command (R322, R610), the resets (R700, R702), and what the sequencer's next step is of (R321). Ending
with an error (R610) is this core's taking of an exception; it has no return from one (R613). -/

namespace Sys2Proof.Machine

/-! ## Buffers -/

namespace Memory

/-- What an index that no cell lists reads as: UNSPEC, no value of its own (R112 to R114). -/
def unlisted : Option Byte := none

/-- The byte at an index, or none for UNSPEC. -/
def get? : Memory → Nat → Option Byte
  | [], _ => unlisted
  | (a, b) :: m, i => if a = i then some b else get? m i

/-- The canonical form: indices strictly rising, so that equal buffers are equal data. No cell can equal what an
unlisted index reads as, since a cell has a value. -/
def wf : Memory → Bool
  | [] => true
  | [_] => true
  | (a, _) :: (a', b') :: m => decide (a < a') && wf ((a', b') :: m)

/-- Every listed index is below n. -/
def boundedBy (n : Nat) (m : Memory) : Bool := m.all fun c => decide (c.1 < n)

/-- Only the cells below index n: everything from n on becomes UNSPEC. -/
def below (m : Memory) (n : Nat) : Memory := m.filter fun c => decide (c.1 < n)

/-- Only the cells from index n on. -/
def from' (m : Memory) (n : Nat) : Memory := m.filter fun c => decide (n ≤ c.1)

/-- The cells of the bytes bs at a, a+1, ... -/
def cells : Nat → List Byte → Memory
  | _, [] => []
  | a, b :: bs => (a, b) :: cells (a + 1) bs

/-- The buffer with the bytes bs written at a, a+1, ... (R15). -/
def write (m : Memory) (a : Nat) (bs : List Byte) : Memory := below m a ++ cells a bs ++ from' m (a + bs.length)

/-- The bytes at a .. a+n-1. Each UNSPEC byte takes a free value, byte t the draw d + t (R15, R715). -/
def read (m : Memory) (a n d : Nat) : List Byte :=
  (List.range n).map fun t => (m.get? (a + t)).getD (Config.freeValue 8 (d + t))

end Memory

/-- The internal buffers (R15). -/
inductive Buf where
  | ibuf
  | obuf
  | key
  deriving DecidableEq, Repr

/-- The contents of a buffer. -/
def State.buffer (s : State) : Buf → Memory
  | .ibuf => s.ibuf
  | .obuf => s.obuf
  | .key => s.key

/-- n more values have been drawn (R15: "drawn afresh at each read"). -/
def State.drew (s : State) (n : Nat) : State := { s with draws := s.draws + n }

/-- MemRead(BUF, a, n) (R15, R214). The reader then counts n draws. -/
def memRead (b : Buf) (a n : Nat) (s : State) : List Byte := (s.buffer b).read a n s.draws

/-- MemWrite(OBUF, a, n, bytes) (R15): the sequencer writes no other buffer (R113, R114). -/
def memWriteObuf (a : Nat) (bs : List Byte) (s : State) : State := { s with obuf := s.obuf.write a bs }

/-! ## The life of a command -/

/-- Acceptance of a command word (R320). OP is "latched at acceptance" too (R100), whatever the word; the ACCEPTED step
writes the same value again (R321). -/
def accept (v : Word) (s : State) : State :=
  { s with
    op := opcField v
    cmdword := v
    busy := true, done := false, err := false, errcode := .ok
    outLen := 0
    phase := .accepted, round := 0, blk := 0 }

/-- X, L, R <- UNSPEC (R322, R610): each takes a free value. -/
def clearDatapath (s : State) : State :=
  { s with
    x := Config.freeValue 64 s.draws
    left := Config.freeValue 32 (s.draws + 1)
    right := Config.freeValue 32 (s.draws + 2)
    draws := s.draws + 3 }

/-- finish_ok(n) (R322). -/
def finishOk (n : Nat) (s : State) : State :=
  clearDatapath
    { s with
      outLen := BitVec.ofNat 32 n
      obuf := Memory.below s.obuf n
      busy := false, done := true, err := false, errcode := .ok
      phase := .idle, round := 0, blk := 0 }

/-- finish_err(code) (R610). -/
def finishErr (code : ErrCode) (s : State) : State :=
  clearDatapath
    { s with
      outLen := 0
      obuf := []
      busy := false, done := false, err := true, errcode := code
      phase := .idle, round := 0, blk := 0 }

/-- The IN_LEN a fixed-width command requires (R310, R605 check 2). -/
def requiredLength : Instr → Option Nat
  | .permIp => some 8
  | .permFp => some 8
  | .permE => some 4
  | .permP => some 4
  | .subst => some 6
  | .fround => some 10
  | .keyDerive => none
  | .encBlock => some 8
  | .decBlock => some 8
  | .pad => none
  | .unpad => none
  | .encrypt => none
  | .decrypt => none

/-- The commands whose IN_LEN is bounded by BUF_BYTES (R605 check 3). -/
def variableLength : Instr → Bool
  | .pad => true
  | .unpad => true
  | .encrypt => true
  | .decrypt => true
  | .permIp => false
  | .permFp => false
  | .permE => false
  | .permP => false
  | .subst => false
  | .fround => false
  | .keyDerive => false
  | .encBlock => false
  | .decBlock => false

/-- Checks 2 to 4 of R605 in their order, for a legal command word; none when they pass. Check 1 is `decode`. -/
def checkFailure (i : Instr) (s : State) : Option ErrCode :=
  if (requiredLength i).any fun n => s.inLen.toNat != n then some .malformedLength
  else if variableLength i && decide (s.cfg.bufBytes < s.inLen.toNat) then some .lengthRange
  else if i = .decrypt ∧ s.inLen.toNat % 8 ≠ 0 then some .invalidBlockLength
  else none

/-- The ACCEPTED step of a legal command (R321): the checks, then OP <- CMDWORD[7:0] and the command's first action. -/
def acceptedStep (i : Instr) (action : State → State) (s : State) : Host.Outcome State Fault Refusal :=
  match checkFailure i s with
  | some code => .next (finishErr code s)
  | none => .next (action { s with op := opcField s.cmdword })

/-- A command that is one step (R321): its whole action happens in the ACCEPTED step. -/
def singleStep (i : Instr) (action : State → State) (s : State) : Host.Outcome State Fault Refusal :=
  match s.phase with
  | .accepted => acceptedStep i action s
  | .idle | .padded | .keygen | .raw | .permutedInitial | .round | .swappedFinal | .permutedFinal =>
    .refused .unreachablePosition

/-- The command the sequencer's next step is of: CMDWORD is decoded at the ACCEPTED step (R300, R321), and OP says it
afterwards (R100, R452). -/
def currentCommand (s : State) : Option Instr :=
  match s.phase with
  | .accepted =>
    match decode s.cmdword with
    | .ok i => some i
    | .error _ => none
  | .idle | .padded | .keygen | .raw | .permutedInitial | .round | .swappedFinal | .permutedFinal => decodeOpcode s.op

/-- The step of a busy core whose word or OP spells no command. At ACCEPTED the command ends with ILLEGAL_COMMAND (R605
check 1); later an OP is always assigned. -/
def noCommandStep (s : State) : Host.Outcome State Fault Refusal :=
  match s.phase with
  | .accepted => .next (finishErr .illegalCommand s)
  | .idle | .padded | .keygen | .raw | .permutedInitial | .round | .swappedFinal | .permutedFinal =>
    .refused .unreachablePosition

/-- No step is taken while BUSY = 0 (R453 preamble, R635): the core waits. -/
def idleStep (s : State) : Host.Outcome State Fault Refusal := .next s

/-! ## Resets -/

/-- Hardware reset (R700, R701). What the host does next stands outside the core. -/
def hardwareReset (s : State) : State := State.afterReset s.cfg s.draws s.events

/-- Soft reset (R702): as the hardware reset, but KEY and IBUF keep their contents. -/
def softReset (s : State) : State := { hardwareReset s with key := s.key, ibuf := s.ibuf }

end Sys2Proof.Machine
end

