-- ==== Sys2Proof/Machine/Flags.lean ====
section
/-! DEFINITION. STATUS and CTRL as words, the W1C write to STATUS (R104 to R106, R600), and the interrupt output
(R620). The core has no other flag (R119). -/

namespace Sys2Proof.Machine

/-- The PHASE encoding (R106). -/
def Phase.code : Phase → BitVec 4
  | .idle => 0
  | .accepted => 1
  | .padded => 2
  | .keygen => 3
  | .raw => 4
  | .permutedInitial => 5
  | .round => 6
  | .swappedFinal => 7
  | .permutedFinal => 8

/-- The ERRCODE encoding (R600). -/
def ErrCode.code : ErrCode → BitVec 4
  | .ok => 0
  | .malformedLength => 1
  | .invalidBlockLength => 2
  | .padding => 3
  | .illegalCommand => 4
  | .lengthRange => 5

/-- The word STATUS reads as (R105): BLK, ROUND, PHASE, ERRCODE, WERR, ERR, DONE, BUSY from bit 31 down to bit 0. -/
def statusWord (s : State) : Word :=
  s.blk ++ s.round ++ s.phase.code ++ s.errcode.code ++ BitVec.ofBool s.werr ++ BitVec.ofBool s.err ++
    BitVec.ofBool s.done ++ BitVec.ofBool s.busy

/-- The word CTRL reads as (R104): IRQ_EN in bit 1; SRST and the reserved bits read 0. -/
def ctrlWord (s : State) : Word := 0#30 ++ BitVec.ofBool s.irqEn ++ 0#1

/-- A host write to STATUS (R105): W1C of DONE, ERR and WERR, and nothing else. -/
def writeStatus (v : Word) (s : State) : State :=
  { s with
    done := s.done && !v.getLsbD 1
    err := s.err && !v.getLsbD 2
    werr := s.werr && !v.getLsbD 3 }

/-- A host write to CTRL (R104, R702): a soft reset if bit 0 is 1, else bit 1 is stored into IRQ_EN. -/
def writeCtrl (v : Word) (s : State) : State :=
  if v.getLsbD 0 then softReset s else { s with irqEn := v.getLsbD 1 }

/-- The interrupt output: irq = CTRL.IRQ_EN AND (STATUS.DONE OR STATUS.ERR) (R620, R621). -/
def irq (s : State) : Bool := s.irqEn && (s.done || s.err)

end Sys2Proof.Machine
end

