-- ==== Sys2Proof/Machine/Bus.lean ====
section
/-! DEFINITION. The register window (R200 to R204), host reads and writes (R103 to R114, R201, R207), the busy
protection (R710), and the order in which events reach the core (R208). -/

namespace Sys2Proof.Machine

/-- What a word offset of the window names (R202). The index of a buffer word is that of its first byte. -/
inductive Reg where
  | id
  | ctrl
  | status
  | cmd
  | keyLen
  | inLen
  | outLen
  | param
  | key (byte : Nat)
  | ibuf (byte : Nat)
  | obuf (byte : Nat)
  | reserved
  deriving DecidableEq, Repr

/-- The address map (R202, R204), for an offset that is a multiple of 4. -/
def regAt (bufBytes off : Nat) : Reg :=
  if off = 0x000 then .id
  else if off = 0x004 then .ctrl
  else if off = 0x008 then .status
  else if off = 0x00C then .cmd
  else if off = 0x010 then .keyLen
  else if off = 0x014 then .inLen
  else if off = 0x018 then .outLen
  else if off = 0x01C then .param
  else if off = 0x020 then .key 0
  else if off = 0x024 then .key 4
  else if 0x1000 ≤ off ∧ off < 0x1000 + bufBytes then .ibuf (off - 0x1000)
  else if 0x2000 ≤ off ∧ off < 0x2000 + bufBytes + 8 then .obuf (off - 0x2000)
  else .reserved

/-- The protected registers (R710): CMD, KEY_LEN, IN_LEN, KEY0, KEY1 and every IBUF word. -/
def Reg.isProtected : Reg → Bool
  | .cmd => true
  | .keyLen => true
  | .inLen => true
  | .key _ => true
  | .ibuf _ => true
  | .id => false
  | .ctrl => false
  | .status => false
  | .outLen => false
  | .param => false
  | .obuf _ => false
  | .reserved => false

/-- The word that carries four buffer bytes, the lowest-addressed byte in the least significant lane (R203). -/
def packWord (bs : List Byte) : Word := bs.getD 3 0 ++ bs.getD 2 0 ++ bs.getD 1 0 ++ bs.getD 0 0

/-- The four bytes a word carries, lowest address first (R203). -/
def unpackWord (v : Word) : List Byte :=
  [v.extractLsb' 0 8, v.extractLsb' 8 8, v.extractLsb' 16 8, v.extractLsb' 24 8]

/-- ID: MAGIC 0x4643, MAJOR 0x01, REV 0x07 (R103). -/
def idWord : Word := 0x4643#16 ++ 0x01#8 ++ 0x07#8

/-- PARAM: BUF_BYTES in bits 15:0, 0 in bits 31:16 (R111). -/
def paramWord (c : Config) : Word := 0#16 ++ BitVec.ofNat 16 c.bufBytes

/-- The bytes a host read of a buffer word returns. While BUSY = 1 every read of the OBUF window is UNSPEC (R114). -/
def hostBytes (r : Reg) (s : State) : List Byte :=
  match r with
  | .key b => memRead .key b 4 s
  | .ibuf b => memRead .ibuf b 4 s
  | .obuf b => if s.busy then Memory.read [] b 4 s.draws else memRead .obuf b 4 s
  | .id | .ctrl | .status | .cmd | .keyLen | .inLen | .outLen | .param | .reserved => []

/-- The word a host read returns (R103 to R114, R204). CMD reads 0 (R107); a reserved offset reads 0 (R204). -/
def readWord (r : Reg) (s : State) : Word :=
  match r with
  | .id => idWord
  | .ctrl => ctrlWord s
  | .status => statusWord s
  | .cmd => 0
  | .keyLen => s.keyLen
  | .inLen => s.inLen
  | .outLen => s.outLen
  | .param => paramWord s.cfg
  | .key _ => packWord (hostBytes r s)
  | .ibuf _ => packWord (hostBytes r s)
  | .obuf _ => packWord (hostBytes r s)
  | .reserved => 0

/-- How many values a host read draws: one for each byte of a buffer word. -/
def readDraws (r : Reg) (s : State) : Nat := (hostBytes r s).length

/-- What a host write does when it is not dropped (R104 to R113, R204). Writes to ID, OUT_LEN, PARAM, the OBUF window
and reserved offsets are ignored. -/
def writeWord (r : Reg) (v : Word) (s : State) : State :=
  match r with
  | .ctrl => writeCtrl v s
  | .status => writeStatus v s
  | .cmd => accept v s
  | .keyLen => { s with keyLen := v }
  | .inLen => { s with inLen := v }
  | .key b => { s with key := Memory.write s.key b (unpackWord v) }
  | .ibuf b => { s with ibuf := Memory.write s.ibuf b (unpackWord v) }
  | .id | .outLen | .param | .obuf _ | .reserved => s

/-- A host write (R710): while BUSY = 1 a write to a protected register is dropped and sets WERR. -/
def hostWriteReg (r : Reg) (v : Word) (s : State) : State :=
  if s.busy && r.isProtected then { s with werr := true } else writeWord r v s

/-- A host transaction (R201, R207, R208). An access that is not an aligned word access gets a bus error and changes
nothing of the core; a read of that kind faults (R201). -/
def busTransaction (t : Transaction) (s : State) : Host.Outcome State Fault Refusal :=
  if t.inWindow s.cfg.base then
    match t with
    | .read a _ =>
      if t.wordAccess s.cfg.base then
        let r := regAt s.cfg.bufBytes (a - s.cfg.base)
        .next { s with response := .data (readWord r s), draws := s.draws + readDraws r s }
      else .fault .busErrorOnRead
    | .write a _ v =>
      if t.wordAccess s.cfg.base then
        .next { hostWriteReg (regAt s.cfg.bufBytes (a - s.cfg.base)) v s with response := .written }
      else .next { s with response := .busError }
  else .fault .outsideWindow

/-- The next event and the state without it (R208). With nothing to come from outside, the sequencer has its turn. -/
def takeEvent (s : State) : Event × State :=
  match s.events with
  | [] => (.sequencer, s)
  | e :: rest => (e, { s with events := rest })

/-- The state in which a command word has just been accepted and the sequencer has the next turn: how a command is
brought to run from outside, without the host's transactions. -/
def issue (v : Word) (s : State) : State := { accept v s with events := .sequencer :: s.events }

end Sys2Proof.Machine
end

