-- ==== Sys2Proof/Machine/Operands.lean ====
section
/-! DEFINITION. The implicit operands of the commands (R304, R310): bytes of IBUF as bit sequences, the message
IBUF[0..IN_LEN-1], and the key. -/

namespace Sys2Proof.Machine

/-- bits(MemRead(IBUF, a, w/8)): an operand of width w at byte a of IBUF (R310, R405). -/
def ibufBits (a w : Nat) (s : State) : BitVec w := bits w (memRead .ibuf a (w / 8) s)

/-- IBUF[0 .. IN_LEN-1], the message of a variable-length command (R310). -/
def message (s : State) : List Byte := memRead .ibuf 0 s.inLen.toNat s

/-- How many key bytes a keyed command reads: min(KEY_LEN, 8) (R430). -/
def keyBytesRead (s : State) : Nat := min s.keyLen.toNat 8

/-- The normalized key NK (R430): KEY[0 .. min(KEY_LEN, 8) - 1] and zeros after it. -/
def normalizedKey (s : State) : List Byte := normalizeKey (memRead .key 0 (keyBytesRead s) s)

/-- A result of a command: its bytes at OBUF[0 ..], then finish_ok of their number (R310, R322). -/
def deliver (out : List Byte) (s : State) : State := finishOk out.length (memWriteObuf 0 out s)

/-- The KEYGEN action (R434). -/
def keygenAction (s : State) : State :=
  { s with rk := deriveKeys (normalizedKey s), phase := .keygen, draws := s.draws + keyBytesRead s }

end Sys2Proof.Machine
end

