-- ==== Sys2Proof/Machine/BlockSteps.lean ====
section
/-! DEFINITION. The sequencer steps of the 16-round block datapath (R453 to R459), shared by the four commands of R452. -/

namespace Sys2Proof.Machine

/-- The sequencing parameters a command gives the block steps (R452). -/
structure BlockJob where
  /-- SRC, the buffer the blocks are read from. -/
  src  : Buf
  /-- NBLK, the number of blocks. -/
  nblk : Nat
  /-- The order of the round keys. -/
  dir  : Direction
  deriving DecidableEq, Repr

/-- X <- bits(MemRead(SRC, 8b, 8)); PHASE <- RAW: block b enters the datapath (R453, R459). -/
def loadBlock (job : BlockJob) (b : Nat) (s : State) : State :=
  { s with
    blk := BitVec.ofNat 16 b
    round := 0
    x := bits 64 (memRead job.src (8 * b) 8 s)
    phase := .raw
    draws := s.draws + 8 }

/-- Step from KEYGEN (R453): no block to do is PADDING, which only a DECRYPT with IN_LEN = 0 meets. -/
def keygenStep (job : BlockJob) (s : State) : State :=
  if job.nblk = 0 then finishErr .padding s else loadBlock job 0 s

/-- Step from RAW (R454). -/
def rawStep (s : State) : State :=
  let x := initialPermutation s.cfg s.x
  { s with x := x, left := slice x 0 32, right := slice x 32 32, phase := .permutedInitial }

/-- Round j on the half registers (R455, R456). -/
def runRound (dir : Direction) (j : Nat) (s : State) : State :=
  { s with
    left := s.right
    right := s.left ^^^ roundFunction s.cfg s.right (keyAt dir s.rk j)
    round := BitVec.ofNat 4 j
    phase := .round }

/-- Step from ROUND with ROUND = 15 (R457): X <- R ++ L. -/
def swapStep (s : State) : State :=
  { s with x := joinSwapped s.left s.right, round := 0, phase := .swappedFinal }

/-- Step from ROUND (R456, R457). -/
def roundStep (dir : Direction) (s : State) : State :=
  if s.round.toNat < 15 then runRound dir (s.round.toNat + 1) s else swapStep s

/-- Step from SWAPPED_FINAL (R458): the output block goes to OBUF[8 * BLK ..]. -/
def swappedStep (s : State) : State :=
  let x := finalPermutation s.cfg s.x
  memWriteObuf (8 * s.blk.toNat) (bytes x) { s with x := x, phase := .permutedFinal }

/-- Step from PERMUTED_FINAL (R459): the next block, or the end action of the command. -/
def permutedStep (job : BlockJob) (endAction : State → State) (s : State) : State :=
  if s.blk.toNat + 1 < job.nblk then loadBlock job (s.blk.toNat + 1) s else endAction s

/-- The step of a block command from the phases KEYGEN to PERMUTED_FINAL (R453 to R459). -/
def blockStep (job : BlockJob) (endAction : State → State) (s : State) : Host.Outcome State Fault Refusal :=
  match s.phase with
  | .keygen => .next (keygenStep job s)
  | .raw => .next (rawStep s)
  | .permutedInitial => .next (runRound job.dir 0 s)
  | .round => .next (roundStep job.dir s)
  | .swappedFinal => .next (swappedStep s)
  | .permutedFinal => .next (permutedStep job endAction s)
  | .idle | .accepted | .padded => .refused .unreachablePosition

end Sys2Proof.Machine
end

