-- ==== Sys2Proof/Machine/KeyedBlock.lean ====
section
/-! DEFINITION. The keyed block operations, OPC 0x20 to 0x22 (R436, R460, R461). A meaning is one sequencer step of its
command, from whatever phase the command has reached. -/

namespace Sys2Proof.Machine

/-- RK[0] to RK[15] as 96 bytes, 6 bytes each (R436). -/
def roundKeyBytes (rk : Vector (BitVec 48) 16) : List Byte := rk.toList.flatMap fun k => bytes k

/-- KEY_DERIVE (R436). -/
def execKeyDerive (s : State) : Host.Outcome State Fault Refusal :=
  match s.phase with
  | .accepted => acceptedStep .keyDerive keygenAction s
  | .keygen => .next (deliver (roundKeyBytes s.rk) s)
  | .idle | .padded | .raw | .permutedInitial | .round | .swappedFinal | .permutedFinal =>
    .refused .unreachablePosition

/-- The block steps of ENC_BLOCK (R452). -/
def encBlockJob : BlockJob := { src := .ibuf, nblk := 1, dir := .forward }

/-- ENC_BLOCK (R460). -/
def execEncBlock (s : State) : Host.Outcome State Fault Refusal :=
  match s.phase with
  | .accepted => acceptedStep .encBlock keygenAction s
  | .keygen | .raw | .permutedInitial | .round | .swappedFinal | .permutedFinal =>
    blockStep encBlockJob (finishOk 8) s
  | .idle | .padded => .refused .unreachablePosition

/-- The block steps of DEC_BLOCK (R452). -/
def decBlockJob : BlockJob := { src := .ibuf, nblk := 1, dir := .reverse }

/-- DEC_BLOCK (R461). -/
def execDecBlock (s : State) : Host.Outcome State Fault Refusal :=
  match s.phase with
  | .accepted => acceptedStep .decBlock keygenAction s
  | .keygen | .raw | .permutedInitial | .round | .swappedFinal | .permutedFinal =>
    blockStep decBlockJob (finishOk 8) s
  | .idle | .padded => .refused .unreachablePosition

end Sys2Proof.Machine
end

