-- ==== Sys2Proof/Machine/MessageOps.lean ====
section
/-! DEFINITION. The message operations, OPC 0x30 to 0x33 (R484, R485, R472 to R476). -/

namespace Sys2Proof.Machine

/-- PAD (R484). -/
def execPad (s : State) : Host.Outcome State Fault Refusal :=
  singleStep .pad (fun s => deliver (padBytes (message s)) (s.drew s.inLen.toNat)) s

/-- The end of an unpadding command (R485, R475): what unpad returns, or PADDING. -/
def deliverUnpadded (c : List Byte) (s : State) : State :=
  match unpadBytes c with
  | some m => deliver m s
  | none => finishErr .padding s

/-- UNPAD (R485). -/
def execUnpad (s : State) : Host.Outcome State Fault Refusal :=
  singleStep .unpad (fun s => deliverUnpadded (message s) (s.drew s.inLen.toNat)) s

/-- The block steps of ENCRYPT (R452): NBLK = IN_LEN div 8 + 1 blocks of the padded message, read back from OBUF. -/
def encryptJob (s : State) : BlockJob := { src := .obuf, nblk := s.inLen.toNat / 8 + 1, dir := .forward }

/-- The first action of ENCRYPT (R472): the padded message goes to OBUF. -/
def encryptPad (s : State) : State :=
  { memWriteObuf 0 (padBytes (message s)) s with phase := .padded, draws := s.draws + s.inLen.toNat }

/-- ENCRYPT (R473): ACCEPTED pads (R472), PADDED derives the round keys (R474), then the block steps. -/
def execEncrypt (s : State) : Host.Outcome State Fault Refusal :=
  match s.phase with
  | .accepted => acceptedStep .encrypt encryptPad s
  | .padded => .next (keygenAction s)
  | .keygen | .raw | .permutedInitial | .round | .swappedFinal | .permutedFinal =>
    blockStep (encryptJob s) (finishOk (8 * (encryptJob s).nblk)) s
  | .idle => .refused .unreachablePosition

/-- The block steps of DECRYPT (R452). -/
def decryptJob (s : State) : BlockJob := { src := .ibuf, nblk := s.inLen.toNat / 8, dir := .reverse }

/-- The end action of DECRYPT (R475): the decrypted blocks already stand in OBUF; the last byte says how many of their
bytes are plaintext, or ends the command with PADDING. -/
def decryptEnd (s : State) : State :=
  let n := 8 * (decryptJob s).nblk
  match unpadBytes (memRead .obuf 0 n s) with
  | some m => finishOk m.length (s.drew n)
  | none => finishErr .padding (s.drew n)

/-- DECRYPT (R476): ACCEPTED derives the round keys (R475), then the block steps. -/
def execDecrypt (s : State) : Host.Outcome State Fault Refusal :=
  match s.phase with
  | .accepted => acceptedStep .decrypt keygenAction s
  | .keygen | .raw | .permutedInitial | .round | .swappedFinal | .permutedFinal =>
    blockStep (decryptJob s) decryptEnd s
  | .idle | .padded => .refused .unreachablePosition

end Sys2Proof.Machine
end

