-- ==== Sys2Proof/Machine/Primitives.lean ====
section
/-! DEFINITION. The datapath primitives, OPC 0x10 to 0x15 (R417 to R420, R425, R442). Each is one step: its checks, its
operand from IBUF, its result to OBUF, finish_ok. -/

namespace Sys2Proof.Machine

/-- PERM_IP (R417). -/
def execPermIp (s : State) : Host.Outcome State Fault Refusal :=
  singleStep .permIp (fun s => deliver (bytes (initialPermutation s.cfg (ibufBits 0 64 s))) (s.drew 8)) s

/-- PERM_FP (R418). -/
def execPermFp (s : State) : Host.Outcome State Fault Refusal :=
  singleStep .permFp (fun s => deliver (bytes (finalPermutation s.cfg (ibufBits 0 64 s))) (s.drew 8)) s

/-- PERM_E (R419). -/
def execPermE (s : State) : Host.Outcome State Fault Refusal :=
  singleStep .permE (fun s => deliver (bytes (expand s.cfg (ibufBits 0 32 s))) (s.drew 4)) s

/-- PERM_P (R420). -/
def execPermP (s : State) : Host.Outcome State Fault Refusal :=
  singleStep .permP (fun s => deliver (bytes (roundPermutation s.cfg (ibufBits 0 32 s))) (s.drew 4)) s

/-- SUBST (R425). -/
def execSubst (s : State) : Host.Outcome State Fault Refusal :=
  singleStep .subst (fun s => deliver (bytes (substitute s.cfg (ibufBits 0 48 s))) (s.drew 6)) s

/-- FROUND (R442): IBUF[0..3] is right32 and IBUF[4..9] is roundKey48. -/
def execFround (s : State) : Host.Outcome State Fault Refusal :=
  singleStep .fround
    (fun s =>
      let r := ibufBits 0 32 s
      let k := ibufBits 4 48 (s.drew 4)
      deliver (bytes (roundFunction s.cfg r k)) (s.drew 10))
    s

end Sys2Proof.Machine
end

