-- ==== Sys2Proof/Machine/Sequencer.lean ====
section
/-! DEFINITION. The sequencer's turn (R116, R321, R635). -/

namespace Sys2Proof.Machine

/-- The sequencer's turn (R116, R321, R635): a busy core takes the next step of its command, an idle one waits. -/
def sequencerStep (s : State) : Host.Outcome State Fault Refusal :=
  match s.busy with
  | true =>
    match currentCommand s with
    | some i => exec i s
    | none => noCommandStep s
  | false => idleStep s

end Sys2Proof.Machine
end

