-- ==== Sys2Proof/Machine/Step.lean ====
section
/-! DEFINITION. One step of the machine: the next event in the order of R208. -/

namespace Sys2Proof.Machine

/-- One step: a sequencer step, a host transaction (R201), or a hardware reset (R700), each atomic (R208). -/
def step (s : State) : Host.Outcome State Fault Refusal :=
  match takeEvent s with
  | (.sequencer, s') => sequencerStep s'
  | (.bus t, s') => busTransaction t s'
  | (.hardwareReset, s') => .next (hardwareReset s')

/-- The state with the command word `w` just accepted (R320) and the sequencer's turn next. The core fetches no
instruction (R212): a command comes from a host write to CMD, and this stands for that write. -/
def State.withFetchWord (s : State) (nbits w : Nat) : State := issue (BitVec.ofNat 32 (w % 2 ^ nbits)) s

end Sys2Proof.Machine
end

