-- ==== Sys2Proof/Safety.lean ====
section
/-! DEFINITION. The terms the claims use: what a finished command leaves (R322, R610), what no sequencer step changes
(R320, R113), runs of the machine, the sequencing table of R452, and the invariant of the machine. -/

namespace Sys2Proof.Machine

/-! ## Ends of commands -/

/-- Bit s of the sequence bits(B) (R400), read straight from the bytes. -/
def bitOf (bs : List Byte) (s : Nat) : Bool := (bs.getD (s / 8) 0).getMsbD (s % 8)

/-- The flags, position and length that finish_ok(n) leaves (R322). -/
structure FinishedOk (n : Nat) (t : State) : Prop where
  busy    : t.busy = false
  done    : t.done = true
  err     : t.err = false
  errcode : t.errcode = .ok
  phase   : t.phase = .idle
  round   : t.round = 0
  blk     : t.blk = 0
  outLen  : t.outLen.toNat = n

/-- The flags, position, length and output buffer that finish_err(code) leaves (R610). -/
structure FinishedErr (code : ErrCode) (t : State) : Prop where
  busy    : t.busy = false
  done    : t.done = false
  err     : t.err = true
  errcode : t.errcode = code
  phase   : t.phase = .idle
  round   : t.round = 0
  blk     : t.blk = 0
  outLen  : t.outLen = 0
  obuf    : ∀ a, Memory.get? t.obuf a = none

/-- OBUF holds exactly the bytes `out` from index 0 on, and every byte after them is UNSPEC (R114, R322). -/
def OutputIs (out : List Byte) (t : State) : Prop := ∀ a, Memory.get? t.obuf a = out[a]?

/-- What no step of a command changes: the parameters (R118), the host's registers and buffers (R113, R322, R610), the
command word, and the model's records of the host. -/
structure HostStateKept (s t : State) : Prop where
  cfg      : t.cfg = s.cfg
  cmdword  : t.cmdword = s.cmdword
  irqEn    : t.irqEn = s.irqEn
  werr     : t.werr = s.werr
  keyLen   : t.keyLen = s.keyLen
  inLen    : t.inLen = s.inLen
  key      : t.key = s.key
  ibuf     : t.ibuf = s.ibuf
  events   : t.events = s.events
  response : t.response = s.response

/-- A single-step command ended well: finish_ok(n), the host's state kept, RK kept, OP latched (R321), and OBUF holds n
bytes whose bit sequence is f, bit 8k + j being bit j of byte k from its most significant end (R401). -/
structure Delivers (s t : State) (n : Nat) (f : Nat → Bool) : Prop where
  finished : FinishedOk n t
  kept     : HostStateKept s t
  op       : t.op = opcField s.cmdword
  written  : ∀ k, k < n → ∃ b, Memory.get? t.obuf k = some b ∧ ∀ j, j < 8 → b.getMsbD j = f (8 * k + j)
  beyond   : ∀ a, n ≤ a → Memory.get? t.obuf a = none

/-- SBOX(g, row, col) for the 48 bits b (R422, R423): group g is bits 6g to 6g+5. -/
def laneEntry (c : Config) (b : Nat → Bool) (g : Nat) : Nat :=
  c.sboxAt g (2 * (b (6 * g)).toNat + (b (6 * g + 5)).toNat)
    (8 * (b (6 * g + 1)).toNat + 4 * (b (6 * g + 2)).toNat + 2 * (b (6 * g + 3)).toNat + (b (6 * g + 4)).toNat)

/-- Bit i of the substitution of the 48 bits b (R424): nibble i / 4 is the entry of lane i / 4, most significant bit
first. -/
def substBit (c : Config) (b : Nat → Bool) (i : Nat) : Bool := (laneEntry c b (i / 4)).testBit (3 - i % 4)

/-- A command has just been accepted and the sequencer has every turn: nothing more comes from the host. -/
structure JustAccepted (i : Instr) (s : State) : Prop where
  busy   : s.busy = true
  phase  : s.phase = .accepted
  word   : decode s.cmdword = .ok i
  events : s.events = []

/-- n steps of the machine, stopping at the first fault or refusal: the host's `Core.run` of this core. -/
def runSteps : Nat → State → Host.Outcome State Fault Refusal
  | 0, s => .next s
  | n + 1, s =>
    match step s with
    | .next t => runSteps n t
    | .fault r => .fault r
    | .refused r => .refused r

/-- n steps of the machine lead from s to t. -/
def Runs (n : Nat) (s t : State) : Prop := runSteps n s = .next t

/-- The command of s is still running after each of the first n - 1 steps, and has ended after n: its step count is
exactly n (R721). -/
def EndsAfter (n : Nat) (s t : State) : Prop :=
  Runs n s t ∧ t.busy = false ∧ ∀ k, k < n → ∃ u, Runs k s u ∧ u.busy = true

/-- The key bytes a keyed command reads when d values have been drawn (R430, R715). -/
def keyRead (s : State) (d : Nat) : List Byte := Memory.read s.key 0 (min s.keyLen.toNat 8) d

/-- Every byte of m at index a .. a+n-1 has been written (R715). -/
def Written (m : Memory) (a n : Nat) : Prop := ∀ k, k < n → (Memory.get? m (a + k)).isSome = true

/-! ## Host accesses -/

/-- The step that is a host write of v to the word at an offset of the window (R201). -/
def stepWrite (off : Nat) (v : Word) (s : State) : Host.Outcome State Fault Refusal :=
  step { s with events := .bus (.write (s.cfg.base + off) 4 v) :: s.events }

/-- The step that is a host read of the word at an offset of the window (R201). -/
def stepRead (off : Nat) (s : State) : Host.Outcome State Fault Refusal :=
  step { s with events := .bus (.read (s.cfg.base + off) 4) :: s.events }

/-- The step that is a turn of the sequencer (R116). -/
def stepSequencer (s : State) : Host.Outcome State Fault Refusal :=
  step { s with events := .sequencer :: s.events }

/-- The step that is a hardware reset (R700). -/
def stepHardwareReset (s : State) : Host.Outcome State Fault Refusal :=
  step { s with events := .hardwareReset :: s.events }

/-- A word offset of the window (R200, R201). -/
def WordOffset (off : Nat) : Prop := off < 0x4000 ∧ off % 4 = 0

/-- The offsets of the protected registers (R710): CMD, KEY_LEN, IN_LEN, KEY0, KEY1 and the IBUF words. -/
def ProtectedOffset (bufBytes off : Nat) : Prop :=
  off = 0x00C ∨ off = 0x010 ∨ off = 0x014 ∨ off = 0x020 ∨ off = 0x024 ∨ (0x1000 ≤ off ∧ off < 0x1000 + bufBytes)

/-- The offsets R202 assigns to no register: 0x028 to 0x0FFF, the ends of the two buffer windows, and 0x3000 on. -/
def ReservedOffset (bufBytes off : Nat) : Prop :=
  (0x028 ≤ off ∧ off < 0x1000) ∨ (0x1000 + bufBytes ≤ off ∧ off < 0x2000) ∨
    (0x2000 + bufBytes + 8 ≤ off ∧ off < 0x4000)

/-! ## Sequencing -/

/-- The table of R452. -/
def jobOf (i : Instr) (s : State) : Option BlockJob :=
  match i with
  | .encBlock => some { src := .ibuf, nblk := 1, dir := .forward }
  | .decBlock => some { src := .ibuf, nblk := 1, dir := .reverse }
  | .encrypt => some { src := .obuf, nblk := s.inLen.toNat / 8 + 1, dir := .forward }
  | .decrypt => some { src := .ibuf, nblk := s.inLen.toNat / 8, dir := .reverse }
  | .permIp | .permFp | .permE | .permP | .subst | .fround | .keyDerive | .pad | .unpad => none

/-- NBLK (R452); 0 for a command without block steps. -/
def blockCount (i : Instr) (s : State) : Nat := ((jobOf i s).map BlockJob.nblk).getD 0

/-- PHASE is one of RAW to PERMUTED_FINAL: a block is in the datapath (R106). -/
def Phase.inBlock : Phase → Bool
  | .raw | .permutedInitial | .round | .swappedFinal | .permutedFinal => true
  | .idle | .accepted | .padded | .keygen => false

/-- The phases after ACCEPTED that a command passes through (R436, R452, R472 to R475). -/
def passes (i : Instr) (p : Phase) : Bool :=
  match i with
  | .keyDerive => p == .keygen
  | .encBlock | .decBlock | .decrypt => p == .keygen || p.inBlock
  | .encrypt => p == .padded || p == .keygen || p.inBlock
  | .permIp | .permFp | .permE | .permP | .subst | .fround | .pad | .unpad => false

/-- How many bytes of OBUF the running command has written so far and may read back (R472, R475). -/
def writtenBack (i : Instr) (s : State) : Nat :=
  match i with
  | .encrypt => 8 * blockCount i s
  | .decrypt => if s.phase = .permutedFinal then 8 * s.blk.toNat + 8 else 8 * s.blk.toNat
  | .permIp | .permFp | .permE | .permP | .subst | .fround | .keyDerive | .encBlock | .decBlock | .pad | .unpad => 0

/-- The command running in s stands at one of its own positions (R117), with its checks passed (R321). -/
structure Running (i : Instr) (s : State) : Prop where
  op       : decodeOpcode s.op = some i
  position : passes i s.phase = true
  checked  : checkFailure i s = none
  blk      : s.phase.inBlock = true → s.blk.toNat < blockCount i s
  noBlk    : s.phase.inBlock = false → s.blk = 0
  readBack : Written s.obuf 0 (writtenBack i s)

/-- The invariant of the machine: the buffers keep their canonical form and their sizes (R112 to R114), the STATUS
invariants of R105 and R110, the sequencer positions of R100 and R117, OP latched from CMDWORD (R100, log 10), and OBUF
valid only below OUT_LEN (R114). -/
structure State.Inv (s : State) : Prop where
  keyWf      : Memory.wf s.key = true
  keySize    : Memory.boundedBy 8 s.key = true
  ibufWf     : Memory.wf s.ibuf = true
  ibufSize   : Memory.boundedBy s.cfg.bufBytes s.ibuf = true
  obufWf     : Memory.wf s.obuf = true
  obufSize   : Memory.boundedBy (s.cfg.bufBytes + 8) s.obuf = true
  outLenSize : s.outLen.toNat ≤ s.cfg.bufBytes + 8
  notBoth    : ¬ (s.done = true ∧ s.err = true)
  doneCode   : s.done = true → s.errcode = .ok
  errCode    : s.err = true → s.errcode ≠ .ok
  failed     : s.errcode ≠ .ok → s.outLen = 0 ∧ s.obuf = []
  idleAt     : s.busy = false → s.phase = .idle ∧ s.round = 0 ∧ s.blk = 0
  idleOut    : s.busy = false → Memory.boundedBy s.outLen.toNat s.obuf = true
  busyAt     : s.busy = true → s.phase ≠ .idle
  busyFlags  : s.busy = true → s.done = false ∧ s.err = false ∧ s.errcode = .ok ∧ s.outLen = 0
  roundAt    : s.phase ≠ .round → s.round = 0
  acceptedAt : s.phase = .accepted → s.blk = 0
  latched    : s.busy = true → s.op = opcField s.cmdword
  running    : s.busy = true → s.phase ≠ .accepted → ∃ i, Running i s

/-- The step counts of R721 for a command whose checks pass. -/
def stepCount (i : Instr) (s : State) : Nat :=
  match i with
  | .permIp | .permFp | .permE | .permP | .subst | .fround | .pad | .unpad => 1
  | .keyDerive => 2
  | .encBlock | .decBlock => 22
  | .encrypt => 3 + 20 * (s.inLen.toNat / 8 + 1)
  | .decrypt => if s.inLen.toNat = 0 then 2 else 2 + 20 * (s.inLen.toNat / 8)

/-- The bit KM<m> of the key material for the key bytes k that are read (R430, R431): zero beyond the key's end. -/
def keyBit (k : List Byte) (m : Nat) : Bool := if m / 8 < k.length then bitOf k m else false

end Sys2Proof.Machine
end

