-- ==== Sys2Proof/Certificates/Slice0/Obligations.lean ====
section
/-! DEFINITION. The statements about the core, one per definition, in the terms of Safety.lean. Where a statement reads a
buffer (`Memory.read m a n d`, `keyRead s d`), d only numbers the free values that UNSPEC bytes take: that numbering is the
model's own choice (log 3), and a read of written bytes does not depend on it. -/

open Sys2Proof Sys2Proof.Machine

/-! ## Parameters and codec -/

/-- R412, R413, R414, R416: every configuration the core can be built with has tables of the stated lengths and ranges,
IP, FP and P are permutations, and FP undoes IP; in particular IP after FP is the identity on blocks. -/
def Obligations.ConfigurationTablesAreWellFormed : Prop :=
  ∀ c : Config,
    (c.ip.length = 64 ∧ c.fp.length = 64 ∧ c.e.length = 48 ∧ c.p.length = 32) ∧
    ((∀ k ∈ c.ip, 1 ≤ k ∧ k ≤ 64) ∧ (∀ k ∈ c.fp, 1 ≤ k ∧ k ≤ 64) ∧
      (∀ k ∈ c.e, 1 ≤ k ∧ k ≤ 32) ∧ (∀ k ∈ c.p, 1 ≤ k ∧ k ≤ 32)) ∧
    (c.ip.Nodup ∧ c.fp.Nodup ∧ c.p.Nodup) ∧
    ((∀ k, 1 ≤ k → k ≤ 64 → k ∈ c.ip ∧ k ∈ c.fp) ∧ (∀ k, 1 ≤ k → k ≤ 32 → k ∈ c.p)) ∧
    (∀ i, i < 64 → c.fp.getD (c.ip.getD i 0 - 1) 0 = i + 1) ∧
    (∀ v, initialPermutation c (finalPermutation c v) = v)

/-- R118: no step of the machine, whatever the event, changes a parameter or a table. -/
def Obligations.ParametersNeverChange : Prop :=
  ∀ s t : State, step s = .next t → t.cfg = s.cfg

/-- R403, R404: the codec's two conversions undo each other, and a byte array read as an integer is big-endian,
uint(bits(B)) = sum over k of B[k] * 2^(8(m-1-k)). -/
def Obligations.CodecRoundTripsAndIsBigEndian : Prop :=
  (∀ bs : List Byte, bytes (bits (8 * bs.length) bs) = bs) ∧
  (∀ (w : Nat) (v : BitVec w), w % 8 = 0 → bits w (bytes v) = v) ∧
  (∀ bs : List Byte,
    (bits (8 * bs.length) bs).toNat =
      ((List.range bs.length).map fun k => (bs.getD k 0).toNat * 2 ^ (8 * (bs.length - 1 - k))).sum)

/-- R15, R715: MemRead returns the bytes that were written; an UNSPEC byte reads as some value and the read still
returns n bytes. -/
def Obligations.MemReadReturnsWrittenBytes : Prop :=
  ∀ (b : Buf) (a n : Nat) (s : State),
    (memRead b a n s).length = n ∧
    ∀ k x, k < n → Memory.get? (s.buffer b) (a + k) = some x → (memRead b a n s)[k]? = some x

/-! ## Command words and steps -/

/-- R301: the thirteen command words, written out from the opcode map, decode to their commands. -/
def Obligations.OpcodeMapWordsDecode : Prop :=
  decode 0x00000010 = .ok .permIp ∧ decode 0x00000011 = .ok .permFp ∧ decode 0x00000012 = .ok .permE ∧
  decode 0x00000013 = .ok .permP ∧ decode 0x00000014 = .ok .subst ∧ decode 0x00000015 = .ok .fround ∧
  decode 0x00000020 = .ok .keyDerive ∧ decode 0x00000021 = .ok .encBlock ∧ decode 0x00000022 = .ok .decBlock ∧
  decode 0x00000030 = .ok .pad ∧ decode 0x00000031 = .ok .unpad ∧ decode 0x00000032 = .ok .encrypt ∧
  decode 0x00000033 = .ok .decrypt

/-- R300, R303: decoding and encoding agree on every 32-bit word: a word decodes to i exactly when it is i's word. -/
def Obligations.DecodeEncodeAgree : Prop :=
  ∀ (w : Word) (i : Instr), decode w = .ok i ↔ w = encode i

/-- R302: the illegal words are those with RSV not 0 and those with an OPC outside the map, and the step of a core that
has accepted one ends it with ILLEGAL_COMMAND and changes nothing but what finish_err changes. -/
def Obligations.IllegalWordsEndWithIllegalCommand : Prop :=
  (∀ w : Word, (∃ e, decode w = .error e) ↔
    (w.extractLsb' 8 24 ≠ 0 ∨
      w.toNat % 256 ≤ 0x0F ∨ (0x16 ≤ w.toNat % 256 ∧ w.toNat % 256 ≤ 0x1F) ∨
      (0x23 ≤ w.toNat % 256 ∧ w.toNat % 256 ≤ 0x2F) ∨ 0x34 ≤ w.toNat % 256)) ∧
  ∀ (s : State) (e : IllegalWord), s.busy = true → s.phase = .accepted → decode s.cmdword = .error e →
    ∃ t, stepSequencer s = .next t ∧ FinishedErr .illegalCommand t ∧ HostStateKept s t ∧ t.rk = s.rk ∧ t.op = s.op

/-- A step runs the decoded command: when the sequencer has its turn and the core is busy, the step is exec of the command
that CMDWORD spells at ACCEPTED, and of the command that OP spells afterwards (R300, R321, R452), on the state without
the event; the same when no event is listed. -/
def Obligations.StepRunsDecodedCommand : Prop :=
  ∀ (s : State) (i : Instr), s.busy = true →
    ((s.phase = .accepted ∧ decode s.cmdword = .ok i) ∨ (s.phase ≠ .accepted ∧ decodeOpcode s.op = some i)) →
    stepSequencer s = exec i s ∧ (s.events = [] → step s = exec i s)

/-- R635: an idle core takes no step, and all of its state survives. -/
def Obligations.IdleCoreTakesNoStep : Prop :=
  ∀ s : State, s.busy = false → stepSequencer s = .next s

/-! ## Datapath primitives -/

/-- PERM_IP, PERM_FP, PERM_E and PERM_P (R410, R417 to R420): with the required IN_LEN the command completes in its
ACCEPTED step, and output bit i is input bit T(i) - 1.
The numbering of the free values that unwritten bytes take is the model's choice (log 3). -/
def Obligations.PermutationCommandsReindexBits : Prop :=
  ∀ s : State, s.phase = .accepted →
    (s.inLen.toNat = 8 → ∃ t, exec .permIp s = .next t ∧ t.rk = s.rk ∧
      Delivers s t 8 fun i => bitOf (Memory.read s.ibuf 0 8 s.draws) (s.cfg.ip.getD i 0 - 1)) ∧
    (s.inLen.toNat = 8 → ∃ t, exec .permFp s = .next t ∧ t.rk = s.rk ∧
      Delivers s t 8 fun i => bitOf (Memory.read s.ibuf 0 8 s.draws) (s.cfg.fp.getD i 0 - 1)) ∧
    (s.inLen.toNat = 4 → ∃ t, exec .permE s = .next t ∧ t.rk = s.rk ∧
      Delivers s t 6 fun i => bitOf (Memory.read s.ibuf 0 4 s.draws) (s.cfg.e.getD i 0 - 1)) ∧
    (s.inLen.toNat = 4 → ∃ t, exec .permP s = .next t ∧ t.rk = s.rk ∧
      Delivers s t 4 fun i => bitOf (Memory.read s.ibuf 0 4 s.draws) (s.cfg.p.getD i 0 - 1))

/-- SUBST (R422, R423, R424): with IN_LEN = 6 the command completes, and each output nibble is the entry of its lane,
most significant bit first.
The numbering of the free values that unwritten bytes take is the model's choice (log 3). -/
def Obligations.SubstLooksUpEveryLane : Prop :=
  ∀ s : State, s.phase = .accepted → s.inLen.toNat = 6 →
    ∃ t, exec .subst s = .next t ∧ t.rk = s.rk ∧
      Delivers s t 4 (substBit s.cfg (bitOf (Memory.read s.ibuf 0 6 s.draws)))

/-- FROUND (R440, and the corner case of R442): with IN_LEN = 10 the command completes, and output bit i is bit P(i) - 1
of the substitution of the expansion of right32 XOR roundKey48; and F(0, all ones) = F(all ones, 0) for every
configuration.
The numbering of the free values that unwritten bytes take is the model's choice (log 3). -/
def Obligations.FroundComputesRoundFunction : Prop :=
  (∀ s : State, s.phase = .accepted → s.inLen.toNat = 10 →
    ∃ t, exec .fround s = .next t ∧ t.rk = s.rk ∧
      Delivers s t 4 fun i =>
        substBit s.cfg
          (fun u => bitOf (Memory.read s.ibuf 0 4 s.draws) (s.cfg.e.getD u 0 - 1) ^^
            bitOf (Memory.read s.ibuf 4 6 (s.draws + 4)) u)
          (s.cfg.p.getD i 0 - 1)) ∧
  ∀ c : Config, roundFunction c 0 (BitVec.allOnes 48) = roundFunction c (BitVec.allOnes 32) 0

/-! ## Key schedule -/

/-- R430, R431, R432: KEY_DERIVE completes in two steps, whatever IN_LEN and KEY_LEN are. Bit j of RK[i], in the
round-key file and in OBUF, is bit (j + i) mod 56 of the key bytes below min(KEY_LEN, 8), and 0 where they end.
The numbering of the free values that unwritten bytes take is the model's choice (log 3). -/
def Obligations.KeyDeriveDeliversRotatedWindows : Prop :=
  ∀ s : State, s.phase = .accepted →
    ∃ t u, exec .keyDerive s = .next t ∧ t.phase = .keygen ∧ t.busy = s.busy ∧ exec .keyDerive t = .next u ∧
      (∀ i j, i < 16 → j < 48 →
        (u.rk.getD i 0).getMsbD j = keyBit (keyRead s s.draws) ((j + i) % 56)) ∧
      Delivers s u 96 fun n => keyBit (keyRead s s.draws) ((n % 48 + n / 48) % 56)

/-- R433: the derived properties of the schedule, bullet by bullet, for a normalized key NK. -/
def Obligations.KeyScheduleProperties : Prop :=
  (∀ nk nk' : List Byte, nk.length = 8 → nk'.length = 8 → nk.take 7 = nk'.take 7 → deriveKeys nk = deriveKeys nk') ∧
  (∀ (c : Config) (k k' m : List Byte), (normalizeKey k).take 7 = (normalizeKey k').take 7 →
    encryptBytes c k m = encryptBytes c k' m) ∧
  ∀ nk : List Byte, nk.length = 8 →
    (deriveKeys nk).getD 0 0 = bits 48 (nk.take 6) ∧
    (∀ i m, i < 16 → m < 56 → (m + 56 - i) % 56 ≤ 47 →
      ((deriveKeys nk).getD i 0).getMsbD ((m + 56 - i) % 56) = bitOf nk m) ∧
    (((deriveKeys nk).getD 0 0).getMsbD 0 = bitOf nk 0 ∧
      ∀ i, 9 ≤ i → i < 16 → ((deriveKeys nk).getD i 0).getMsbD (56 - i) = bitOf nk 0) ∧
    ((deriveKeys nk).getD 1 0).getMsbD 47 = bitOf nk 48 ∧
    (nk = List.replicate 8 0 → ∀ i, i < 16 → (deriveKeys nk).getD i 0 = 0) ∧
    (∀ i j, i < 16 → j < 48 - i →
      ((deriveKeys nk).getD i 0).getMsbD j = ((deriveKeys nk).getD 0 0).getMsbD (j + i))

/-- R434: a command's step changes the round-key file only in the KEYGEN action of a keyed command, in the step that
moves PHASE to KEYGEN: from ACCEPTED, or from PADDED for ENCRYPT. There it becomes the RoundKeySet of the key.
The numbering of the free values that unwritten bytes take is the model's choice (log 3). -/
def Obligations.OnlyKeygenWritesRoundKeys : Prop :=
  ∀ (i : Instr) (s t : State), exec i s = .next t →
    (t.rk = s.rk ∨
      (t.phase = .keygen ∧
        ((i ∈ [Instr.keyDerive, .encBlock, .decBlock, .decrypt] ∧ s.phase = .accepted) ∨
          (i = .encrypt ∧ s.phase = .padded)))) ∧
    (t.phase = .keygen → t.rk = deriveKeys (normalizeKey (keyRead s s.draws)))

/-- KEY_DERIVE, ENC_BLOCK, DEC_BLOCK and DECRYPT at ACCEPTED (R321, R434): when the checks of R605 pass, the command
latches OP, derives the RoundKeySet and moves to KEYGEN, and nothing else of the core changes.
The numbering of the free values that unwritten bytes take is the model's choice (log 3). -/
def Obligations.KeyedCommandsDeriveAtAccepted : Prop :=
  ∀ (i : Instr) (s : State), s.phase = .accepted →
    (i = .keyDerive ∨ ((i = .encBlock ∨ i = .decBlock) ∧ s.inLen.toNat = 8) ∨
      (i = .decrypt ∧ s.inLen.toNat ≤ s.cfg.bufBytes ∧ s.inLen.toNat % 8 = 0)) →
    exec i s = .next
      { s with
        op := opcField s.cmdword
        rk := deriveKeys (normalizeKey (keyRead s s.draws))
        phase := .keygen
        draws := s.draws + min s.keyLen.toNat 8 }

/-! ## The block datapath -/

/-- R453: the step from KEYGEN of ENC_BLOCK, DEC_BLOCK, ENCRYPT and DECRYPT: PADDING when there is no block to do, else
block 0 of SRC enters X and PHASE is RAW.
The numbering of the free values that unwritten bytes take is the model's choice (log 3). -/
def Obligations.KeygenStepLoadsFirstBlock : Prop :=
  ∀ (i : Instr) (s : State) (job : BlockJob), jobOf i s = some job → s.phase = .keygen →
    (job.nblk = 0 → ∃ t, exec i s = .next t ∧ FinishedErr .padding t ∧ HostStateKept s t ∧ t.rk = s.rk) ∧
    (job.nblk ≠ 0 → exec i s = .next
      { s with
        blk := 0, round := 0
        x := bits 64 (Memory.read (s.buffer job.src) 0 8 s.draws)
        phase := .raw
        draws := s.draws + 8 })

/-- R454: the step from RAW applies IP and splits the block into its halves. -/
def Obligations.RawStepPermutesAndSplits : Prop :=
  ∀ (i : Instr) (s : State) (job : BlockJob), jobOf i s = some job → s.phase = .raw →
    ∃ x, x = permute s.cfg.ip 64 s.x ∧
      exec i s = .next { s with x := x, left := slice x 0 32, right := slice x 32 32, phase := .permutedInitial }

/-- R455, R456, R457 with R451: the steps out of PERMUTED_INITIAL and out of ROUND = 0..14 each run one round, with the
key of the command's direction; the step from ROUND = 15 sets X to R ++ L and ROUND to 0. -/
def Obligations.RoundStepsRunSixteenRoundsThenSwap : Prop :=
  ∀ (i : Instr) (s : State) (job : BlockJob), jobOf i s = some job →
    (∀ j : Nat, (s.phase = .permutedInitial ∧ j = 0) ∨ (s.phase = .round ∧ s.round.toNat < 15 ∧ j = s.round.toNat + 1) →
      exec i s = .next
        { s with
          left := s.right
          right := s.left ^^^ roundFunction s.cfg s.right
            (s.rk.getD (if job.dir = .forward then j else 15 - j) 0)
          round := BitVec.ofNat 4 j
          phase := .round }) ∧
    (s.phase = .round → s.round.toNat = 15 →
      exec i s = .next { s with x := s.right ++ s.left, round := 0, phase := .swappedFinal })

/-- R458: the step from SWAPPED_FINAL applies FP and writes the block to OBUF[8 * BLK .. 8 * BLK + 7], and no other byte
of OBUF changes. -/
def Obligations.SwappedFinalStepWritesTheBlock : Prop :=
  ∀ (i : Instr) (s : State) (job : BlockJob), jobOf i s = some job → s.phase = .swappedFinal →
    ∃ t x, x = permute s.cfg.fp 64 s.x ∧
      exec i s = .next t ∧ t = { s with x := x, phase := .permutedFinal, obuf := t.obuf } ∧
      (∀ k, k < 8 → Memory.get? t.obuf (8 * s.blk.toNat + k) = some ((bytes x).getD k 0)) ∧
      ∀ a, (a < 8 * s.blk.toNat ∨ 8 * s.blk.toNat + 8 ≤ a) → Memory.get? t.obuf a = Memory.get? s.obuf a

/-- R459 with the end actions of R452: the step from PERMUTED_FINAL loads the next block when there is one; else
ENC_BLOCK and DEC_BLOCK finish with 8 bytes, ENCRYPT with 8 * NBLK, and DECRYPT by the last decrypted byte (R475). The
output bytes keep their values.
The numbering of the free values that unwritten bytes take is the model's choice (log 3). -/
def Obligations.PermutedFinalStepNextBlockOrEnd : Prop :=
  ∀ (i : Instr) (s : State) (job : BlockJob), jobOf i s = some job → s.phase = .permutedFinal →
    (s.blk.toNat + 1 < job.nblk → exec i s = .next
      { s with
        blk := BitVec.ofNat 16 (s.blk.toNat + 1), round := 0
        x := bits 64 (Memory.read (s.buffer job.src) (8 * (s.blk.toNat + 1)) 8 s.draws)
        phase := .raw
        draws := s.draws + 8 }) ∧
    (job.nblk ≤ s.blk.toNat + 1 →
      ∃ t, exec i s = .next t ∧ HostStateKept s t ∧ t.rk = s.rk ∧ t.op = s.op ∧
        ∀ last, last = ((Memory.read s.obuf 0 (8 * job.nblk) s.draws).getD (8 * job.nblk - 1) 0).toNat →
          ∀ n, n = (match i with
              | .encrypt => 8 * job.nblk
              | .decrypt => 8 * job.nblk - last
              | _ => 8) →
            if i = .decrypt ∧ (job.nblk = 0 ∨ last = 0 ∨ 8 < last) then FinishedErr .padding t
            else FinishedOk n t ∧ ∀ a, Memory.get? t.obuf a = if a < n then Memory.get? s.obuf a else none)

/-- ENC_BLOCK and DEC_BLOCK on the machine (R450, R451, R460, R461, R721): from acceptance with IN_LEN = 8 the command ends
after exactly 22 steps, with the block transform of IBUF[0..7] in OBUF, under the round keys of the key in forward order
for ENC_BLOCK and in reverse order for DEC_BLOCK.
The numbering of the free values that unwritten bytes take is the model's choice (log 3). -/
def Obligations.BlockCommandsComputeBlockTransform : Prop :=
  ∀ (i : Instr) (dir : Direction) (s : State),
    (i = .encBlock ∧ dir = .forward) ∨ (i = .decBlock ∧ dir = .reverse) → JustAccepted i s → s.inLen.toNat = 8 →
    ∃ t, EndsAfter 22 s t ∧ FinishedOk 8 t ∧ HostStateKept s t ∧
      t.rk = deriveKeys (normalizeKey (keyRead s s.draws)) ∧
      OutputIs (block s.cfg (keyAt dir t.rk) (Memory.read s.ibuf 0 8 (s.draws + min s.keyLen.toNat 8))) t

/-- R462, R463: for every configuration, every RoundKeySet and every 8-byte block the reverse transform undoes the forward
one and the forward the reverse; so under one direction two distinct blocks never give the same output. -/
def Obligations.ReverseBlockUndoesForward : Prop :=
  ∀ (c : Config) (rk : Vector (BitVec 48) 16),
    (∀ b : List Byte, b.length = 8 →
      block c (keyAt .reverse rk) (block c (keyAt .forward rk) b) = b ∧
      block c (keyAt .forward rk) (block c (keyAt .reverse rk) b) = b) ∧
    (∀ (dir : Direction) (b b' : List Byte), b.length = 8 → b'.length = 8 →
      block c (keyAt dir rk) b = block c (keyAt dir rk) b' → b = b')

/-! ## Padding and messages -/

/-- R481, R482, R483: padding always grows a message to a multiple of 8, by 1 to 8 bytes, and keeps its bytes; unpad
succeeds exactly when the array is not empty and its last byte is in 1 .. min(8, len), whatever the other bytes are, and
drops that many bytes; and unpad undoes pad. -/
def Obligations.PadGrowsAndUnpadChecksLastByte : Prop :=
  (∀ m : List Byte,
    m.length < (padBytes m).length ∧ (padBytes m).length % 8 = 0 ∧
    1 ≤ (padBytes m).length - m.length ∧ (padBytes m).length - m.length ≤ 8 ∧
    (padBytes m).take m.length = m ∧ (padBytes m).length = 8 * (m.length / 8 + 1)) ∧
  (∀ c m : List Byte, unpadBytes c = some m ↔
    c ≠ [] ∧ ∃ n, n = (c.getD (c.length - 1) 0).toNat ∧ 1 ≤ n ∧ n ≤ min 8 c.length ∧ m = c.take (c.length - n)) ∧
  (∀ m : List Byte, unpadBytes (padBytes m) = some m)

/-- PAD (R480, R484): with IN_LEN at most BUF_BYTES the command completes; OBUF holds the message, then n = 8 - (IN_LEN
mod 8) bytes of value n, and nothing after them.
The numbering of the free values that unwritten bytes take is the model's choice (log 3). -/
def Obligations.PadAppendsPadBytes : Prop :=
  ∀ (s : State) (n : Nat), s.phase = .accepted → s.inLen.toNat ≤ s.cfg.bufBytes → n = 8 - s.inLen.toNat % 8 →
    ∃ t, exec .pad s = .next t ∧ FinishedOk (s.inLen.toNat + n) t ∧ HostStateKept s t ∧ t.rk = s.rk ∧
      t.op = opcField s.cmdword ∧
      ∀ a, Memory.get? t.obuf a =
        if a < s.inLen.toNat then (Memory.read s.ibuf 0 s.inLen.toNat s.draws)[a]?
        else if a < s.inLen.toNat + n then some (BitVec.ofNat 8 n) else none

/-- UNPAD (R482, R483, R485): with IN_LEN at most BUF_BYTES the command completes when the last byte n is in 1 .. 8 and
at most IN_LEN, OBUF holding the first IN_LEN - n bytes; else, and when IN_LEN = 0, it ends with PADDING.
The numbering of the free values that unwritten bytes take is the model's choice (log 3). -/
def Obligations.UnpadDropsPadBytes : Prop :=
  ∀ (s : State) (inp : List Byte) (n : Nat), s.phase = .accepted → s.inLen.toNat ≤ s.cfg.bufBytes →
    inp = Memory.read s.ibuf 0 s.inLen.toNat s.draws → n = (inp.getD (s.inLen.toNat - 1) 0).toNat →
    ∃ t, exec .unpad s = .next t ∧ HostStateKept s t ∧ t.rk = s.rk ∧ t.op = opcField s.cmdword ∧
      if s.inLen.toNat = 0 ∨ n = 0 ∨ 8 < n ∨ s.inLen.toNat < n then FinishedErr .padding t
      else FinishedOk (s.inLen.toNat - n) t ∧
        ∀ a, Memory.get? t.obuf a = if a < s.inLen.toNat - n then inp[a]? else none

/-- ENCRYPT at ACCEPTED and at PADDED (R472, R474): with IN_LEN at most BUF_BYTES the padded message goes to OBUF[0 ..],
every other byte of OBUF stays, and the next step derives the round keys.
The numbering of the free values that unwritten bytes take is the model's choice (log 3). -/
def Obligations.EncryptPadsThenDerives : Prop :=
  ∀ s : State,
    (s.phase = .accepted → s.inLen.toNat ≤ s.cfg.bufBytes →
      ∃ t, exec .encrypt s = .next t ∧
        t = { s with op := opcField s.cmdword, phase := .padded, draws := s.draws + s.inLen.toNat, obuf := t.obuf } ∧
        ∀ p, p = padBytes (Memory.read s.ibuf 0 s.inLen.toNat s.draws) →
          ∀ a, Memory.get? t.obuf a = if a < p.length then p[a]? else Memory.get? s.obuf a) ∧
    (s.phase = .padded → exec .encrypt s = .next
      { s with
        rk := deriveKeys (normalizeKey (keyRead s s.draws))
        phase := .keygen
        draws := s.draws + min s.keyLen.toNat 8 })

/-- ENCRYPT on the machine (R470, R473): from acceptance with IN_LEN at most BUF_BYTES the command ends after exactly
3 + 20 * NBLK steps, with encrypt(message, key) in OBUF.
The numbering of the free values that unwritten bytes take is the model's choice (log 3). -/
def Obligations.EncryptComputesEncryption : Prop :=
  ∀ s : State, JustAccepted .encrypt s → s.inLen.toNat ≤ s.cfg.bufBytes →
    ∀ m k, m = Memory.read s.ibuf 0 s.inLen.toNat s.draws → k = keyRead s (s.draws + s.inLen.toNat) →
      ∃ t, EndsAfter (3 + 20 * (s.inLen.toNat / 8 + 1)) s t ∧ FinishedOk (8 * (s.inLen.toNat / 8 + 1)) t ∧
        HostStateKept s t ∧ t.rk = deriveKeys (normalizeKey k) ∧ OutputIs (encryptBytes s.cfg k m) t

/-- DECRYPT on the machine (R471, R475, R476): from acceptance with IN_LEN at most BUF_BYTES and a multiple of 8 the
command ends after exactly 2 + 20 * NBLK steps, with decrypt(ciphertext, key) in OBUF, or with PADDING where decrypt
fails; with IN_LEN = 0 that is PADDING after 2 steps.
The numbering of the free values that unwritten bytes take is the model's choice (log 3). -/
def Obligations.DecryptComputesDecryption : Prop :=
  ∀ s : State, JustAccepted .decrypt s → s.inLen.toNat ≤ s.cfg.bufBytes → s.inLen.toNat % 8 = 0 →
    ∀ c k, k = keyRead s s.draws → c = Memory.read s.ibuf 0 s.inLen.toNat (s.draws + min s.keyLen.toNat 8) →
      ∃ t, EndsAfter (2 + 20 * (s.inLen.toNat / 8)) s t ∧ HostStateKept s t ∧ t.rk = deriveKeys (normalizeKey k) ∧
        match decryptBytes s.cfg k c with
        | some m => FinishedOk m.length t ∧ OutputIs m t
        | none => FinishedErr .padding t

/-- R477, as functions: for every configuration, key and message, decrypting the encryption gives the message back. -/
def Obligations.DecryptionUndoesEncryption : Prop :=
  ∀ (c : Config) (k m : List Byte),
    (encryptBytes c k m).length = 8 * (m.length / 8 + 1) ∧ decryptBytes c k (encryptBytes c k m) = some m

/-- R477, on the machine: ENCRYPT on a written message with len <= BUF_BYTES - 8 and a written key, its output bytes and
OUT_LEN taken as IBUF and IN_LEN, then DECRYPT with the same key, gives the message and its length back. -/
def Obligations.EncryptThenDecryptRestoresMessage : Prop :=
  ∀ s : State, JustAccepted .encrypt s → s.inLen.toNat + 8 ≤ s.cfg.bufBytes →
    Written s.ibuf 0 s.inLen.toNat → Written s.key 0 (min s.keyLen.toNat 8) →
    ∃ t, EndsAfter (stepCount .encrypt s) s t ∧
      ∀ s', JustAccepted .decrypt s' → s'.cfg = s.cfg → s'.key = s.key → s'.keyLen = s.keyLen →
        s'.inLen = t.outLen → (∀ a, a < t.outLen.toNat → Memory.get? s'.ibuf a = Memory.get? t.obuf a) →
        ∃ t', EndsAfter (stepCount .decrypt s') s' t' ∧ FinishedOk s.inLen.toNat t' ∧
          ∀ a, Memory.get? t'.obuf a = if a < s.inLen.toNat then Memory.get? s.ibuf a else none

/-- R479: blocks are independent. For m1 of a length that is a multiple of 8 the block transforms of m1's blocks followed
by the encryption of m2 are the encryption of m1 ++ m2; and likewise for the decryption of c1 ++ c2 with c2 not empty. -/
def Obligations.BlocksAreIndependent : Prop :=
  ∀ (c : Config) (k m1 m2 : List Byte), m1.length % 8 = 0 →
    blocks c (keyAt .forward (deriveKeys (normalizeKey k))) m1 (m1.length / 8) ++ encryptBytes c k m2 =
      encryptBytes c k (m1 ++ m2) ∧
    (m2 ≠ [] → m2.length % 8 = 0 →
      (decryptBytes c k m2).map
          (fun p => blocks c (keyAt .reverse (deriveKeys (normalizeKey k))) m1 (m1.length / 8) ++ p) =
        decryptBytes c k (m1 ++ m2))

/-! ## Checks, ends and frames -/

/-- Checks 2 to 4 of R605, in their order, for every command: each ends the command at ACCEPTED with its code, the
round-key file and OP being as before. -/
def Obligations.LengthChecksInOrder : Prop :=
  ∀ (i : Instr) (s : State) (code : ErrCode), s.phase = .accepted →
    ((i ∈ [Instr.permIp, .permFp, .encBlock, .decBlock] ∧ s.inLen.toNat ≠ 8 ∧ code = .malformedLength) ∨
      (i ∈ [Instr.permE, .permP] ∧ s.inLen.toNat ≠ 4 ∧ code = .malformedLength) ∨
      (i = .subst ∧ s.inLen.toNat ≠ 6 ∧ code = .malformedLength) ∨
      (i = .fround ∧ s.inLen.toNat ≠ 10 ∧ code = .malformedLength) ∨
      (i ∈ [Instr.pad, .unpad, .encrypt, .decrypt] ∧ s.cfg.bufBytes < s.inLen.toNat ∧ code = .lengthRange) ∨
      (i = .decrypt ∧ s.inLen.toNat ≤ s.cfg.bufBytes ∧ s.inLen.toNat % 8 ≠ 0 ∧ code = .invalidBlockLength)) →
    ∃ t, exec i s = .next t ∧ FinishedErr code t ∧ HostStateKept s t ∧ t.rk = s.rk ∧ t.op = s.op

/-- R322, R606, R610: a step of a busy command either leaves it running, with its flags as they were, or ends it with
exactly one of finish_ok(n), every OBUF byte from n on then being UNSPEC, and finish_err of a code that is not OK. -/
def Obligations.CommandsEndOnlyByFinish : Prop :=
  ∀ (i : Instr) (s t : State), s.busy = true → exec i s = .next t →
    (t.busy = true ∧ t.done = s.done ∧ t.err = s.err ∧ t.errcode = s.errcode ∧ t.outLen = s.outLen ∧
        t.phase ≠ .idle) ∨
    (∃ n, FinishedOk n t ∧ ∀ a, n ≤ a → Memory.get? t.obuf a = none) ∨
    (∃ code, code ≠ .ok ∧ FinishedErr code t)

/-- The frame of every command's step (R113, R207, R320, R713): whatever the command and its phase, CTRL, WERR, KEY,
KEY_LEN, IN_LEN, IBUF, CMDWORD, the parameters and the host's events stay, every byte of IBUF and KEY among them. -/
def Obligations.CommandStepsKeepHostState : Prop :=
  ∀ (i : Instr) (s t : State), exec i s = .next t →
    HostStateKept s t ∧
    (∀ a, Memory.get? t.ibuf a = Memory.get? s.ibuf a) ∧ (∀ a, Memory.get? t.key a = Memory.get? s.key a)

/-- The frame of OBUF (R114, R458, R472): a step that leaves its command running changes OBUF only when ENCRYPT pads, in
OBUF[0 .. 8 * NBLK - 1], and at SWAPPED_FINAL, in OBUF[8 * BLK .. 8 * BLK + 7]. -/
def Obligations.RunningCommandsWriteOnlyTheirBlock : Prop :=
  ∀ (i : Instr) (s t : State), s.busy = true → exec i s = .next t → t.busy = true →
    ∀ a, Memory.get? t.obuf a ≠ Memory.get? s.obuf a →
      (i = .encrypt ∧ s.phase = .accepted ∧ a < 8 * (s.inLen.toNat / 8 + 1)) ∨
      (s.phase = .swappedFinal ∧ 8 * s.blk.toNat ≤ a ∧ a < 8 * s.blk.toNat + 8)

/-! ## Host accesses -/

/-- R320, R107: a write to CMD while BUSY = 0 is accepted, whatever the word. R100 latches OP at acceptance, while R320's
own list does not name it: that acceptance writes CMDWORD[7:0] to OP, of an illegal word too, is the model's reading (log
10), and the answer `written` is the model's record of the host (log 6). -/
def Obligations.CmdWriteIsAccepted : Prop :=
  ∀ (s : State) (v : Word), s.busy = false →
    stepWrite 0x00C v s = .next
      { s with
        op := v.extractLsb' 0 8
        cmdword := v
        busy := true, done := false, err := false, errcode := .ok
        outLen := 0
        phase := .accepted, round := 0, blk := 0
        response := .written } ∧
    irq (accept v s) = false

/-- R710: while BUSY = 1 a write to a protected register is dropped and sets WERR; a write to a read-only register, the
OBUF window or a reserved offset is ignored whether or not BUSY = 1, and does not set WERR; CTRL and STATUS take writes as
usual; reads are never dropped.
That a dropped write is answered `written` is the model's choice (log 6). In the soft-reset clause the UNSPEC registers of
the two resets are equal only because both draw from one counter, which is the model's choice too (logs 3 and 4). -/
def Obligations.BusyProtection : Prop :=
  ∀ (s : State) (off : Nat) (v : Word), WordOffset off →
    (ProtectedOffset s.cfg.bufBytes off → s.busy = true →
      stepWrite off v s = .next { s with werr := true, response := .written }) ∧
    (off = 0x000 ∨ off = 0x018 ∨ off = 0x01C ∨ (0x2000 ≤ off ∧ off < 0x2000 + s.cfg.bufBytes + 8) ∨
        ReservedOffset s.cfg.bufBytes off →
      stepWrite off v s = .next { s with response := .written }) ∧
    (off = 0x004 → v.getLsbD 0 = false →
      stepWrite off v s = .next { s with irqEn := v.getLsbD 1, response := .written }) ∧
    (off = 0x004 → v.getLsbD 0 = true →
      ∃ h, stepHardwareReset s = .next h ∧
        stepWrite off v s = .next { h with key := s.key, ibuf := s.ibuf, response := .written }) ∧
    (off = 0x008 → stepWrite off v s = .next
      { s with
        done := s.done && !v.getLsbD 1, err := s.err && !v.getLsbD 2, werr := s.werr && !v.getLsbD 3
        response := .written }) ∧
    ∃ t, stepRead off s = .next t

/-- R207: a host read has no side effect: of the whole state only the model's record of the answer and its count of free
values change. -/
def Obligations.ReadsHaveNoSideEffects : Prop :=
  ∀ (s t : State) (off : Nat), stepRead off s = .next t → t = { s with response := t.response, draws := t.draws }

/-- R103, R111: what ID and PARAM read as, always. -/
def Obligations.IdAndParamRead : Prop :=
  ∀ s : State,
    (∃ t, stepRead 0x000 s = .next t ∧ t.response = .data 0x46430107) ∧
    (∃ t w, stepRead 0x01C s = .next t ∧ t.response = .data w ∧
      (w.extractLsb' 0 16).toNat = s.cfg.bufBytes ∧ w.extractLsb' 16 16 = 0)

/-- R204: a reserved word offset reads as zero and ignores writes, with no side effect, and never sets WERR. -/
def Obligations.ReservedOffsetsReadZeroIgnoreWrites : Prop :=
  ∀ (s : State) (off : Nat) (v : Word), WordOffset off → ReservedOffset s.cfg.bufBytes off →
    stepRead off s = .next { s with response := .data 0 } ∧ stepWrite off v s = .next { s with response := .written }

/-- R105, R106, R600: the fields of the word STATUS reads as, with the number of every phase and of every error code, and
the W1C write. -/
def Obligations.StatusFieldsAndWriteOneToClear : Prop :=
  ∀ (s : State) (v : Word),
    (∃ t w, stepRead 0x008 s = .next t ∧ t.response = .data w ∧
      w.getLsbD 0 = s.busy ∧ w.getLsbD 1 = s.done ∧ w.getLsbD 2 = s.err ∧ w.getLsbD 3 = s.werr ∧
      (w.extractLsb' 4 4).toNat = (match s.errcode with
        | .ok => 0
        | .malformedLength => 1
        | .invalidBlockLength => 2
        | .padding => 3
        | .illegalCommand => 4
        | .lengthRange => 5) ∧
      (w.extractLsb' 8 4).toNat = (match s.phase with
        | .idle => 0
        | .accepted => 1
        | .padded => 2
        | .keygen => 3
        | .raw => 4
        | .permutedInitial => 5
        | .round => 6
        | .swappedFinal => 7
        | .permutedFinal => 8) ∧
      w.extractLsb' 12 4 = s.round ∧ w.extractLsb' 16 16 = s.blk) ∧
    (∃ t, stepWrite 0x008 v s = .next t ∧
      t.done = (s.done && !v.getLsbD 1) ∧ t.err = (s.err && !v.getLsbD 2) ∧ t.werr = (s.werr && !v.getLsbD 3) ∧
      t = { s with done := t.done, err := t.err, werr := t.werr, response := .written })

/-- R104, R107 to R110: CTRL reads IRQ_EN in bit 1 and zero elsewhere; KEY_LEN and IN_LEN, written while BUSY = 0, read
back whole; OUT_LEN reads its value; CMD reads 0. -/
def Obligations.ControlAndLengthRegistersReadBack : Prop :=
  ∀ (s : State) (v : Word),
    (∃ t w, stepRead 0x004 s = .next t ∧ t.response = .data w ∧ ∀ i, w.getLsbD i = (decide (i = 1) && s.irqEn)) ∧
    stepRead 0x00C s = .next { s with response := .data 0 } ∧
    stepRead 0x018 s = .next { s with response := .data s.outLen } ∧
    (s.busy = false →
      (∃ t, stepWrite 0x010 v s = .next t ∧ t = { s with keyLen := v, response := .written } ∧
        stepRead 0x010 t = .next { t with response := .data v }) ∧
      (∃ t, stepWrite 0x014 v s = .next t ∧ t = { s with inLen := v, response := .written } ∧
        stepRead 0x014 t = .next { t with response := .data v }))

/-- R203: a word written to IBUF or KEY while BUSY = 0 stores its four bytes, the least significant at the lowest index,
changes no other byte, and reads back; and a read of a finished output word returns OBUF's bytes in the same lanes. -/
def Obligations.BufferWordsUseLittleEndianLanes : Prop :=
  ∀ (s : State) (v : Word) (j : Nat), s.busy = false →
    (4 * j < s.cfg.bufBytes →
      ∃ t, stepWrite (0x1000 + 4 * j) v s = .next t ∧
        t = { s with ibuf := t.ibuf, response := .written } ∧
        (∀ k, k < 4 → Memory.get? t.ibuf (4 * j + k) = some (v.extractLsb' (8 * k) 8)) ∧
        (∀ a, (a < 4 * j ∨ 4 * j + 4 ≤ a) → Memory.get? t.ibuf a = Memory.get? s.ibuf a) ∧
        ∃ u, stepRead (0x1000 + 4 * j) t = .next u ∧ u.response = .data v) ∧
    (j < 2 →
      ∃ t, stepWrite (0x020 + 4 * j) v s = .next t ∧
        t = { s with key := t.key, response := .written } ∧
        (∀ k, k < 4 → Memory.get? t.key (4 * j + k) = some (v.extractLsb' (8 * k) 8)) ∧
        (∀ a, (a < 4 * j ∨ 4 * j + 4 ≤ a) → Memory.get? t.key a = Memory.get? s.key a) ∧
        ∃ u, stepRead (0x020 + 4 * j) t = .next u ∧ u.response = .data v) ∧
    (4 * j < s.cfg.bufBytes + 8 →
      ∃ u w, stepRead (0x2000 + 4 * j) s = .next u ∧ u.response = .data w ∧
        ∀ k x, k < 4 → Memory.get? s.obuf (4 * j + k) = some x → w.extractLsb' (8 * k) 8 = x)

/-- R114: while BUSY = 1 a host read of the OBUF window returns a value that does not depend on OBUF.
The two answers are equal, and not only independent of OBUF, because both draw from an equal counter: that equality is
the model's choice (log 3), since the hardware draws afresh at each read. -/
def Obligations.OutputIsHiddenWhileBusy : Prop :=
  ∀ (s : State) (m : Memory) (off : Nat), s.busy = true → WordOffset off →
    0x2000 ≤ off → off < 0x2000 + s.cfg.bufBytes + 8 →
    ∃ t t', stepRead off s = .next t ∧ stepRead off { s with obuf := m } = .next t' ∧ t.response = t'.response

/-- R201, R603: in the window an access that is not an aligned 32-bit one gets a bus error. A write of that kind changes
nothing of the core, WERR included; a read of that kind faults. -/
def Obligations.MisalignedOrNarrowAccessGetsBusError : Prop :=
  ∀ (s : State) (off width : Nat) (v : Word), off < 0x4000 → (width ≠ 4 ∨ off % 4 ≠ 0) →
    step { s with events := .bus (.write (s.cfg.base + off) width v) :: s.events } =
      .next { s with response := .busError } ∧
    step { s with events := .bus (.read (s.cfg.base + off) width) :: s.events } = .fault .busErrorOnRead

/-- R710, R212: no host transaction but a soft reset touches a running command: its inputs, its position, its registers
and its partial output stay as they are, and in a state that meets the invariant, where a running command has DONE and ERR
clear (R105), those two as well. A write to STATUS could clear them in a state that no run reaches. -/
def Obligations.HostCannotDisturbRunningCommand : Prop :=
  ∀ (s t : State) (tr : Transaction), s.busy = true →
    step { s with events := .bus tr :: s.events } = .next t →
    (∀ v, tr = .write (s.cfg.base + 0x004) 4 v → v.getLsbD 0 = false) →
    t.cfg = s.cfg ∧ t.op = s.op ∧ t.cmdword = s.cmdword ∧ t.phase = s.phase ∧ t.round = s.round ∧ t.blk = s.blk ∧
    t.rk = s.rk ∧ t.x = s.x ∧ t.left = s.left ∧ t.right = s.right ∧ t.busy = s.busy ∧ t.errcode = s.errcode ∧
    t.keyLen = s.keyLen ∧ t.inLen = s.inLen ∧ t.outLen = s.outLen ∧ t.key = s.key ∧ t.ibuf = s.ibuf ∧
    t.obuf = s.obuf ∧ (s.Inv → t.done = s.done ∧ t.err = s.err)

/-! ## Resets, interrupt and whole-machine rules -/

/-- R700: the state a hardware reset leaves, in every field to which R700 gives a value, and KEY, IBUF and OBUF wholly
UNSPEC; the parameters are not affected. -/
def Obligations.HardwareResetState : Prop :=
  ∀ s : State, ∃ t, stepHardwareReset s = .next t ∧ t.cfg = s.cfg ∧ t.events = s.events ∧
    t.irqEn = false ∧ t.busy = false ∧ t.done = false ∧ t.err = false ∧ t.werr = false ∧ t.errcode = .ok ∧
    t.phase = .idle ∧ t.round = 0 ∧ t.blk = 0 ∧ t.keyLen = 0 ∧ t.inLen = 0 ∧ t.outLen = 0 ∧
    (∀ a, Memory.get? t.key a = none ∧ Memory.get? t.ibuf a = none ∧ Memory.get? t.obuf a = none) ∧
    irq t = false ∧ statusWord t = 0 ∧ ctrlWord t = 0 ∧ stepSequencer t = .next t

/-- R702, R703, R104: a write to CTRL with bit 0 = 1 is a soft reset, whether or not BUSY = 1 and whatever bit 1 is: the
state a hardware reset leaves, but with KEY and IBUF kept. SRST reads as 0. A running command is aborted: DONE and ERR
are 0, no interrupt is raised, its output is lost, and the sequencer takes no further step of it.
OP, CMDWORD, RK, X, L and R are UNSPEC after both resets: that they are equal rests on one draw counter, which is the
model's choice (logs 3 and 4), and the answer `written` is the model's record of the host (log 6). -/
def Obligations.SoftResetKeepsKeyAndInput : Prop :=
  ∀ (s : State) (v : Word), v.getLsbD 0 = true →
    ∃ h t, stepHardwareReset s = .next h ∧ stepWrite 0x004 v s = .next t ∧
      t = { h with key := s.key, ibuf := s.ibuf, response := .written } ∧
      t.irqEn = false ∧ statusWord t = 0 ∧ ctrlWord t = 0 ∧ t.keyLen = 0 ∧ t.inLen = 0 ∧ t.outLen = 0 ∧ irq t = false ∧
      t.busy = false ∧ t.done = false ∧ t.err = false ∧ (∀ a, Memory.get? t.obuf a = none) ∧
      stepSequencer t = .next t

/-- R620: the interrupt output: its formula, that it rises at the finish step of a command when IRQ_EN = 1, an illegal
word's too, and at once when IRQ_EN is set with DONE or ERR pending, and that it falls when DONE and ERR are cleared, at acceptance, when IRQ_EN
is cleared, and at a reset. -/
def Obligations.InterruptOutput : Prop :=
  (∀ s : State, irq s = true ↔ s.irqEn = true ∧ (s.done = true ∨ s.err = true)) ∧
  (∀ (i : Instr) (s t : State), s.busy = true → exec i s = .next t → t.busy = false → irq t = s.irqEn) ∧
  (∀ s t : State, s.busy = true → stepSequencer s = .next t → t.busy = false → irq t = s.irqEn) ∧
  (∀ (s : State) (v : Word), v.getLsbD 0 = false → v.getLsbD 1 = true →
    ∃ t, stepWrite 0x004 v s = .next t ∧ irq t = (s.done || s.err)) ∧
  (∀ (s : State) (v : Word), v.getLsbD 1 = true → v.getLsbD 2 = true →
    ∃ t, stepWrite 0x008 v s = .next t ∧ irq t = false) ∧
  (∀ (s : State) (v : Word), s.busy = false → ∃ t, stepWrite 0x00C v s = .next t ∧ irq t = false) ∧
  (∀ (s : State) (v : Word), v.getLsbD 0 = false → v.getLsbD 1 = false →
    ∃ t, stepWrite 0x004 v s = .next t ∧ irq t = false) ∧
  (∀ (s : State) (v : Word), v.getLsbD 0 = true → ∃ t, stepWrite 0x004 v s = .next t ∧ irq t = false) ∧
  (∀ s : State, ∃ t, stepHardwareReset s = .next t ∧ irq t = false)

/-- Only a host write to CMD starts a command (R107, R320, R635): whatever step makes an idle core busy is that write. -/
def Obligations.OnlyCmdWriteStartsCommand : Prop :=
  ∀ s t : State, step s = .next t → s.busy = false → t.busy = true →
    ∃ v rest, s.events = .bus (.write (s.cfg.base + 0x00C) 4 v) :: rest ∧ t.cmdword = v ∧ t.phase = .accepted

/-- WERR is sticky (R105, R714): only a host write of 1 to its STATUS bit, a soft reset or a hardware reset clears it. -/
def Obligations.OnlyHostOrResetClearsWerr : Prop :=
  ∀ s t : State, step s = .next t → s.werr = true → t.werr = false →
    ∃ rest, s.events = .hardwareReset :: rest ∨
      (∃ v, s.events = .bus (.write (s.cfg.base + 0x008) 4 v) :: rest ∧ v.getLsbD 3 = true) ∨
      (∃ v, s.events = .bus (.write (s.cfg.base + 0x004) 4 v) :: rest ∧ v.getLsbD 0 = true)

/-- The invariant holds right after reset. -/
def Obligations.ResetMeetsInvariant : Prop := State.reset.Inv

/-- Every step of the machine, whatever the event, keeps the invariant: the canonical buffers, the STATUS invariants of
R105, the positions of R100 and R117, OP latched from CMDWORD while a command runs (R100, log 10), and OBUF valid only
below OUT_LEN. -/
def Obligations.EveryStepKeepsInvariant : Prop :=
  ∀ s t : State, s.Inv → step s = .next t → t.Inv

/-- R117, U10: from a state that meets the invariant the sequencer's turn always has a next state: no position is ever
unreachable, and no command stops. -/
def Obligations.SequencerNeverStops : Prop :=
  ∀ s : State, s.Inv → ∃ t, stepSequencer s = .next t

/-- R323: from a state that meets the invariant, a running command ends within 3 + 20 * (4088 div 8 + 1) steps of the
sequencer (R721), with exactly one of DONE and ERR. -/
def Obligations.EveryRunningCommandEnds : Prop :=
  ∀ s : State, s.Inv → s.busy = true → s.events = [] →
    ∃ n t, n ≤ 3 + 20 * (4088 / 8 + 1) ∧ Runs n s t ∧ t.busy = false ∧ (t.done = !t.err)

/-- R721: the number of steps from acceptance to the end of every command: 1 for an illegal word and for a failed check,
else the count of the table. -/
def Obligations.StepCountsOfEveryCommand : Prop :=
  (∀ (s : State) (e : IllegalWord), s.busy = true → s.phase = .accepted → s.events = [] →
    decode s.cmdword = .error e → ∃ t, EndsAfter 1 s t) ∧
  ∀ (i : Instr) (s : State), JustAccepted i s →
    (checkFailure i s ≠ none → ∃ t, EndsAfter 1 s t) ∧ (checkFailure i s = none → ∃ t, EndsAfter (stepCount i s) s t)

/-- R478: the result of a command depends only on its inputs. Two cores with the same parameters that have just accepted
the same command, with the same IN_LEN, the same min(KEY_LEN, 8) and the same written input and key bytes, end after the
same number of steps with the same flags, OUT_LEN and OBUF, whatever else their states hold. -/
def Obligations.ResultsDependOnlyOnInputs : Prop :=
  ∀ (i : Instr) (s s' : State), JustAccepted i s → JustAccepted i s' → s'.cfg = s.cfg → s'.inLen = s.inLen →
    min s'.keyLen.toNat 8 = min s.keyLen.toNat 8 →
    (i ≠ .keyDerive → ∀ a, a < s.inLen.toNat → a < s.cfg.bufBytes →
      ∃ b, Memory.get? s.ibuf a = some b ∧ Memory.get? s'.ibuf a = some b) →
    (∀ a, a < min s.keyLen.toNat 8 → ∃ b, Memory.get? s.key a = some b ∧ Memory.get? s'.key a = some b) →
    ∃ n t t', EndsAfter n s t ∧ EndsAfter n s' t' ∧
      t'.done = t.done ∧ t'.err = t.err ∧ t'.errcode = t.errcode ∧ t'.outLen = t.outLen ∧
      ∀ a, Memory.get? t'.obuf a = Memory.get? t.obuf a
end

