-- ==== Sys2Proof/Laws/Bus.lean ====
section
/-! SUPPORT. The sizes R8 fixes, and the address map of R202 entry by entry, so that no proof unfolds `regAt`. -/

namespace Sys2Proof

/-- R8: the window is aligned and BUF_BYTES is a multiple of 8 in [96, 4088]. -/
theorem Config.bounds (c : Config) :
    c.base % 0x4000 = 0 ∧ 96 ≤ c.bufBytes ∧ c.bufBytes ≤ 4088 ∧ c.bufBytes % 8 = 0 := by
  have h := c.ok
  simp only [RawConfig.wf, RawConfig.bufBytesOk, RawConfig.baseOk, Bool.and_eq_true, decide_eq_true_eq,
    beq_iff_eq] at h
  omega

namespace Machine

/-- The address map of R202, each entry with the offsets it holds. -/
theorem regAt_cases (n off : Nat) :
    (off = 0x000 ∧ regAt n off = .id) ∨ (off = 0x004 ∧ regAt n off = .ctrl) ∨
    (off = 0x008 ∧ regAt n off = .status) ∨ (off = 0x00C ∧ regAt n off = .cmd) ∨
    (off = 0x010 ∧ regAt n off = .keyLen) ∨ (off = 0x014 ∧ regAt n off = .inLen) ∨
    (off = 0x018 ∧ regAt n off = .outLen) ∨ (off = 0x01C ∧ regAt n off = .param) ∨
    (off = 0x020 ∧ regAt n off = .key 0) ∨ (off = 0x024 ∧ regAt n off = .key 4) ∨
    ((0x1000 ≤ off ∧ off < 0x1000 + n) ∧ regAt n off = .ibuf (off - 0x1000)) ∨
    ((0x2000 ≤ off ∧ off < 0x2000 + n + 8) ∧ regAt n off = .obuf (off - 0x2000)) ∨
    regAt n off = .reserved := by
  unfold regAt
  iterate 12 refine (em _).imp (fun h => ⟨h, if_pos h⟩) fun h => ?_; rw [if_neg h]

@[simp] theorem regAt_id (n : Nat) : regAt n 0x000 = .id := rfl
@[simp] theorem regAt_ctrl (n : Nat) : regAt n 0x004 = .ctrl := rfl
@[simp] theorem regAt_status (n : Nat) : regAt n 0x008 = .status := rfl
@[simp] theorem regAt_cmd (n : Nat) : regAt n 0x00C = .cmd := rfl
@[simp] theorem regAt_keyLen (n : Nat) : regAt n 0x010 = .keyLen := rfl
@[simp] theorem regAt_inLen (n : Nat) : regAt n 0x014 = .inLen := rfl
@[simp] theorem regAt_outLen (n : Nat) : regAt n 0x018 = .outLen := rfl
@[simp] theorem regAt_param (n : Nat) : regAt n 0x01C = .param := rfl
@[simp] theorem regAt_key0 (n : Nat) : regAt n 0x020 = .key 0 := rfl
@[simp] theorem regAt_key1 (n : Nat) : regAt n 0x024 = .key 4 := rfl

theorem regAt_ibuf (n off : Nat) (h : 0x1000 ≤ off) (h' : off < 0x1000 + n) : regAt n off = .ibuf (off - 0x1000) := by
  unfold regAt
  iterate 10 rw [if_neg (by omega)]
  rw [if_pos ⟨h, h'⟩]

theorem regAt_obuf (c : Config) (off : Nat) (h : 0x2000 ≤ off) (h' : off < 0x2000 + c.bufBytes + 8) :
    regAt c.bufBytes off = .obuf (off - 0x2000) := by
  have := c.bounds
  unfold regAt
  iterate 11 rw [if_neg (by omega)]
  rw [if_pos ⟨h, h'⟩]

/-- IBUF word j (R202). -/
theorem regAt_ibuf_word (n j : Nat) (h : 4 * j < n) : regAt n (0x1000 + 4 * j) = .ibuf (4 * j) := by
  rw [regAt_ibuf n _ (by omega) (by omega), Nat.add_sub_cancel_left]

/-- OBUF word j (R202). -/
theorem regAt_obuf_word (c : Config) (j : Nat) (h : 4 * j < c.bufBytes + 8) :
    regAt c.bufBytes (0x2000 + 4 * j) = .obuf (4 * j) := by
  rw [regAt_obuf c _ (by omega) (by omega), Nat.add_sub_cancel_left]

theorem regAt_reserved (c : Config) (off : Nat) (h : ReservedOffset c.bufBytes off) :
    regAt c.bufBytes off = .reserved := by
  have := c.bounds
  unfold ReservedOffset at h
  unfold regAt
  iterate 12 rw [if_neg (by omega)]

/-- R710: the protected registers are those at the protected offsets. -/
theorem isProtected_regAt (n off : Nat) : (regAt n off).isProtected = true ↔ ProtectedOffset n off := by
  constructor
  · intro hp
    unfold ProtectedOffset
    rcases regAt_cases n off with ⟨h, e⟩ | ⟨h, e⟩ | ⟨h, e⟩ | ⟨h, e⟩ | ⟨h, e⟩ | ⟨h, e⟩ | ⟨h, e⟩ | ⟨h, e⟩ | ⟨h, e⟩ |
      ⟨h, e⟩ | ⟨h, e⟩ | ⟨h, e⟩ | e <;> rw [e] at hp <;> first | exact absurd hp Bool.false_ne_true | omega
  · rintro (rfl | rfl | rfl | rfl | rfl | ⟨h, h'⟩)
    case inr.inr.inr.inr.inr => rw [regAt_ibuf n off h h']; rfl
    all_goals rfl

end Machine

end Sys2Proof
end

