-- ==== Sys2Proof/Laws/Codec.lean ====
section
/-! SUPPORT. What the codec and the re-indexing operation do bit by bit (R400, R401, R410), each said once. -/

namespace Sys2Proof.Machine

@[simp] theorem bitSeq_getMsbD (n : Nat) (f : Nat → Bool) (i : Nat) :
    (bitSeq n f).getMsbD i = (decide (i < n) && f i) := by
  induction n with
  | zero => simp [bitSeq]
  | succ n ih =>
    rw [bitSeq, BitVec.getMsbD_concat]
    by_cases h : i < n
    · simp [h, ih, show i < n + 1 by omega]
    · by_cases h' : i = n
      · simp [h']
      · simp [h, h', show ¬ i < n + 1 by omega]

theorem bitSeq_congr {n : Nat} {f g : Nat → Bool} (h : ∀ i, i < n → f i = g i) : bitSeq n f = bitSeq n g := by
  apply BitVec.eq_of_getMsbD_eq
  intro i hi
  simp [hi, h i hi]

@[simp] theorem slice_getMsbD {w : Nat} (v : BitVec w) (a n i : Nat) :
    (slice v a n).getMsbD i = (decide (i < n) && v.getMsbD (a + i)) := by simp [slice]

@[simp] theorem permute_getMsbD {w : Nat} (t : List Nat) (n : Nat) (v : BitVec w) (i : Nat) :
    (permute t n v).getMsbD i = (decide (i < n) && v.getMsbD (t.getD i 0 - 1)) := by simp [permute]

@[simp] theorem bits_getMsbD (w : Nat) (bs : List Byte) (i : Nat) :
    (bits w bs).getMsbD i = (decide (i < w) && (bs.getD (i / 8) 0).getMsbD (i % 8)) := by simp [bits]

@[simp] theorem bytes_length {w : Nat} (v : BitVec w) : (bytes v).length = w / 8 := by simp [bytes]

theorem bytes_getD {w : Nat} (v : BitVec w) (k : Nat) (h : k < w / 8) :
    (bytes v).getD k 0 = slice v (8 * k) 8 := by
  simp [bytes, List.getD_eq_getElem?_getD, h]

/-- R401, bit by bit: bit t of byte k is v<8k + t>. -/
theorem bytes_getD_getMsbD {w : Nat} (v : BitVec w) (k t : Nat) (hk : k < w / 8) (ht : t < 8) :
    ((bytes v).getD k 0).getMsbD t = v.getMsbD (8 * k + t) := by
  rw [bytes_getD v k hk]; simp [ht]

end Sys2Proof.Machine
end

