-- ==== Sys2Proof/Laws/State.lean ====
section
/-! SUPPORT. One lemma for each field of the state under each shared operation, so that no proof unfolds a record update. -/

namespace Sys2Proof.Machine

/-! ## drew -/

@[simp] theorem drew_cfg (s : State) (n : Nat) : (s.drew n).cfg = s.cfg := rfl
@[simp] theorem drew_op (s : State) (n : Nat) : (s.drew n).op = s.op := rfl
@[simp] theorem drew_cmdword (s : State) (n : Nat) : (s.drew n).cmdword = s.cmdword := rfl
@[simp] theorem drew_phase (s : State) (n : Nat) : (s.drew n).phase = s.phase := rfl
@[simp] theorem drew_round (s : State) (n : Nat) : (s.drew n).round = s.round := rfl
@[simp] theorem drew_blk (s : State) (n : Nat) : (s.drew n).blk = s.blk := rfl
@[simp] theorem drew_rk (s : State) (n : Nat) : (s.drew n).rk = s.rk := rfl
@[simp] theorem drew_x (s : State) (n : Nat) : (s.drew n).x = s.x := rfl
@[simp] theorem drew_left (s : State) (n : Nat) : (s.drew n).left = s.left := rfl
@[simp] theorem drew_right (s : State) (n : Nat) : (s.drew n).right = s.right := rfl
@[simp] theorem drew_irqEn (s : State) (n : Nat) : (s.drew n).irqEn = s.irqEn := rfl
@[simp] theorem drew_busy (s : State) (n : Nat) : (s.drew n).busy = s.busy := rfl
@[simp] theorem drew_done (s : State) (n : Nat) : (s.drew n).done = s.done := rfl
@[simp] theorem drew_err (s : State) (n : Nat) : (s.drew n).err = s.err := rfl
@[simp] theorem drew_werr (s : State) (n : Nat) : (s.drew n).werr = s.werr := rfl
@[simp] theorem drew_errcode (s : State) (n : Nat) : (s.drew n).errcode = s.errcode := rfl
@[simp] theorem drew_keyLen (s : State) (n : Nat) : (s.drew n).keyLen = s.keyLen := rfl
@[simp] theorem drew_inLen (s : State) (n : Nat) : (s.drew n).inLen = s.inLen := rfl
@[simp] theorem drew_outLen (s : State) (n : Nat) : (s.drew n).outLen = s.outLen := rfl
@[simp] theorem drew_key (s : State) (n : Nat) : (s.drew n).key = s.key := rfl
@[simp] theorem drew_ibuf (s : State) (n : Nat) : (s.drew n).ibuf = s.ibuf := rfl
@[simp] theorem drew_obuf (s : State) (n : Nat) : (s.drew n).obuf = s.obuf := rfl
@[simp] theorem drew_draws (s : State) (n : Nat) : (s.drew n).draws = s.draws + n := rfl
@[simp] theorem drew_events (s : State) (n : Nat) : (s.drew n).events = s.events := rfl
@[simp] theorem drew_response (s : State) (n : Nat) : (s.drew n).response = s.response := rfl

/-! ## memWriteObuf -/

@[simp] theorem memWriteObuf_cfg (a : Nat) (bs : List Byte) (s : State) : (memWriteObuf a bs s).cfg = s.cfg := rfl
@[simp] theorem memWriteObuf_op (a : Nat) (bs : List Byte) (s : State) : (memWriteObuf a bs s).op = s.op := rfl
@[simp] theorem memWriteObuf_cmdword (a : Nat) (bs : List Byte) (s : State) :
    (memWriteObuf a bs s).cmdword = s.cmdword := rfl
@[simp] theorem memWriteObuf_phase (a : Nat) (bs : List Byte) (s : State) :
    (memWriteObuf a bs s).phase = s.phase := rfl
@[simp] theorem memWriteObuf_round (a : Nat) (bs : List Byte) (s : State) :
    (memWriteObuf a bs s).round = s.round := rfl
@[simp] theorem memWriteObuf_blk (a : Nat) (bs : List Byte) (s : State) : (memWriteObuf a bs s).blk = s.blk := rfl
@[simp] theorem memWriteObuf_rk (a : Nat) (bs : List Byte) (s : State) : (memWriteObuf a bs s).rk = s.rk := rfl
@[simp] theorem memWriteObuf_x (a : Nat) (bs : List Byte) (s : State) : (memWriteObuf a bs s).x = s.x := rfl
@[simp] theorem memWriteObuf_left (a : Nat) (bs : List Byte) (s : State) : (memWriteObuf a bs s).left = s.left := rfl
@[simp] theorem memWriteObuf_right (a : Nat) (bs : List Byte) (s : State) :
    (memWriteObuf a bs s).right = s.right := rfl
@[simp] theorem memWriteObuf_irqEn (a : Nat) (bs : List Byte) (s : State) :
    (memWriteObuf a bs s).irqEn = s.irqEn := rfl
@[simp] theorem memWriteObuf_busy (a : Nat) (bs : List Byte) (s : State) : (memWriteObuf a bs s).busy = s.busy := rfl
@[simp] theorem memWriteObuf_done (a : Nat) (bs : List Byte) (s : State) : (memWriteObuf a bs s).done = s.done := rfl
@[simp] theorem memWriteObuf_err (a : Nat) (bs : List Byte) (s : State) : (memWriteObuf a bs s).err = s.err := rfl
@[simp] theorem memWriteObuf_werr (a : Nat) (bs : List Byte) (s : State) : (memWriteObuf a bs s).werr = s.werr := rfl
@[simp] theorem memWriteObuf_errcode (a : Nat) (bs : List Byte) (s : State) :
    (memWriteObuf a bs s).errcode = s.errcode := rfl
@[simp] theorem memWriteObuf_keyLen (a : Nat) (bs : List Byte) (s : State) :
    (memWriteObuf a bs s).keyLen = s.keyLen := rfl
@[simp] theorem memWriteObuf_inLen (a : Nat) (bs : List Byte) (s : State) :
    (memWriteObuf a bs s).inLen = s.inLen := rfl
@[simp] theorem memWriteObuf_outLen (a : Nat) (bs : List Byte) (s : State) :
    (memWriteObuf a bs s).outLen = s.outLen := rfl
@[simp] theorem memWriteObuf_key (a : Nat) (bs : List Byte) (s : State) : (memWriteObuf a bs s).key = s.key := rfl
@[simp] theorem memWriteObuf_ibuf (a : Nat) (bs : List Byte) (s : State) : (memWriteObuf a bs s).ibuf = s.ibuf := rfl
@[simp] theorem memWriteObuf_obuf (a : Nat) (bs : List Byte) (s : State) :
    (memWriteObuf a bs s).obuf = Memory.write s.obuf a bs := rfl
@[simp] theorem memWriteObuf_draws (a : Nat) (bs : List Byte) (s : State) :
    (memWriteObuf a bs s).draws = s.draws := rfl
@[simp] theorem memWriteObuf_events (a : Nat) (bs : List Byte) (s : State) :
    (memWriteObuf a bs s).events = s.events := rfl
@[simp] theorem memWriteObuf_response (a : Nat) (bs : List Byte) (s : State) :
    (memWriteObuf a bs s).response = s.response := rfl

/-! ## accept -/

@[simp] theorem accept_cfg (v : Word) (s : State) : (accept v s).cfg = s.cfg := rfl
@[simp] theorem accept_op (v : Word) (s : State) : (accept v s).op = opcField v := rfl
@[simp] theorem accept_cmdword (v : Word) (s : State) : (accept v s).cmdword = v := rfl
@[simp] theorem accept_phase (v : Word) (s : State) : (accept v s).phase = .accepted := rfl
@[simp] theorem accept_round (v : Word) (s : State) : (accept v s).round = 0 := rfl
@[simp] theorem accept_blk (v : Word) (s : State) : (accept v s).blk = 0 := rfl
@[simp] theorem accept_rk (v : Word) (s : State) : (accept v s).rk = s.rk := rfl
@[simp] theorem accept_x (v : Word) (s : State) : (accept v s).x = s.x := rfl
@[simp] theorem accept_left (v : Word) (s : State) : (accept v s).left = s.left := rfl
@[simp] theorem accept_right (v : Word) (s : State) : (accept v s).right = s.right := rfl
@[simp] theorem accept_irqEn (v : Word) (s : State) : (accept v s).irqEn = s.irqEn := rfl
@[simp] theorem accept_busy (v : Word) (s : State) : (accept v s).busy = true := rfl
@[simp] theorem accept_done (v : Word) (s : State) : (accept v s).done = false := rfl
@[simp] theorem accept_err (v : Word) (s : State) : (accept v s).err = false := rfl
@[simp] theorem accept_werr (v : Word) (s : State) : (accept v s).werr = s.werr := rfl
@[simp] theorem accept_errcode (v : Word) (s : State) : (accept v s).errcode = .ok := rfl
@[simp] theorem accept_keyLen (v : Word) (s : State) : (accept v s).keyLen = s.keyLen := rfl
@[simp] theorem accept_inLen (v : Word) (s : State) : (accept v s).inLen = s.inLen := rfl
@[simp] theorem accept_outLen (v : Word) (s : State) : (accept v s).outLen = 0 := rfl
@[simp] theorem accept_key (v : Word) (s : State) : (accept v s).key = s.key := rfl
@[simp] theorem accept_ibuf (v : Word) (s : State) : (accept v s).ibuf = s.ibuf := rfl
@[simp] theorem accept_obuf (v : Word) (s : State) : (accept v s).obuf = s.obuf := rfl
@[simp] theorem accept_draws (v : Word) (s : State) : (accept v s).draws = s.draws := rfl
@[simp] theorem accept_events (v : Word) (s : State) : (accept v s).events = s.events := rfl
@[simp] theorem accept_response (v : Word) (s : State) : (accept v s).response = s.response := rfl

/-! ## finishOk -/

@[simp] theorem finishOk_cfg (n : Nat) (s : State) : (finishOk n s).cfg = s.cfg := rfl
@[simp] theorem finishOk_op (n : Nat) (s : State) : (finishOk n s).op = s.op := rfl
@[simp] theorem finishOk_cmdword (n : Nat) (s : State) : (finishOk n s).cmdword = s.cmdword := rfl
@[simp] theorem finishOk_phase (n : Nat) (s : State) : (finishOk n s).phase = .idle := rfl
@[simp] theorem finishOk_round (n : Nat) (s : State) : (finishOk n s).round = 0 := rfl
@[simp] theorem finishOk_blk (n : Nat) (s : State) : (finishOk n s).blk = 0 := rfl
@[simp] theorem finishOk_rk (n : Nat) (s : State) : (finishOk n s).rk = s.rk := rfl
@[simp] theorem finishOk_x (n : Nat) (s : State) : (finishOk n s).x = Config.freeValue 64 s.draws := rfl
@[simp] theorem finishOk_left (n : Nat) (s : State) : (finishOk n s).left = Config.freeValue 32 (s.draws + 1) := rfl
@[simp] theorem finishOk_right (n : Nat) (s : State) : (finishOk n s).right = Config.freeValue 32 (s.draws + 2) := rfl
@[simp] theorem finishOk_irqEn (n : Nat) (s : State) : (finishOk n s).irqEn = s.irqEn := rfl
@[simp] theorem finishOk_busy (n : Nat) (s : State) : (finishOk n s).busy = false := rfl
@[simp] theorem finishOk_done (n : Nat) (s : State) : (finishOk n s).done = true := rfl
@[simp] theorem finishOk_err (n : Nat) (s : State) : (finishOk n s).err = false := rfl
@[simp] theorem finishOk_werr (n : Nat) (s : State) : (finishOk n s).werr = s.werr := rfl
@[simp] theorem finishOk_errcode (n : Nat) (s : State) : (finishOk n s).errcode = .ok := rfl
@[simp] theorem finishOk_keyLen (n : Nat) (s : State) : (finishOk n s).keyLen = s.keyLen := rfl
@[simp] theorem finishOk_inLen (n : Nat) (s : State) : (finishOk n s).inLen = s.inLen := rfl
@[simp] theorem finishOk_outLen (n : Nat) (s : State) : (finishOk n s).outLen = BitVec.ofNat 32 n := rfl
@[simp] theorem finishOk_key (n : Nat) (s : State) : (finishOk n s).key = s.key := rfl
@[simp] theorem finishOk_ibuf (n : Nat) (s : State) : (finishOk n s).ibuf = s.ibuf := rfl
@[simp] theorem finishOk_obuf (n : Nat) (s : State) : (finishOk n s).obuf = Memory.below s.obuf n := rfl
@[simp] theorem finishOk_draws (n : Nat) (s : State) : (finishOk n s).draws = s.draws + 3 := rfl
@[simp] theorem finishOk_events (n : Nat) (s : State) : (finishOk n s).events = s.events := rfl
@[simp] theorem finishOk_response (n : Nat) (s : State) : (finishOk n s).response = s.response := rfl

/-! ## finishErr -/

@[simp] theorem finishErr_cfg (code : ErrCode) (s : State) : (finishErr code s).cfg = s.cfg := rfl
@[simp] theorem finishErr_op (code : ErrCode) (s : State) : (finishErr code s).op = s.op := rfl
@[simp] theorem finishErr_cmdword (code : ErrCode) (s : State) : (finishErr code s).cmdword = s.cmdword := rfl
@[simp] theorem finishErr_phase (code : ErrCode) (s : State) : (finishErr code s).phase = .idle := rfl
@[simp] theorem finishErr_round (code : ErrCode) (s : State) : (finishErr code s).round = 0 := rfl
@[simp] theorem finishErr_blk (code : ErrCode) (s : State) : (finishErr code s).blk = 0 := rfl
@[simp] theorem finishErr_rk (code : ErrCode) (s : State) : (finishErr code s).rk = s.rk := rfl
@[simp] theorem finishErr_x (code : ErrCode) (s : State) : (finishErr code s).x = Config.freeValue 64 s.draws := rfl
@[simp] theorem finishErr_left (code : ErrCode) (s : State) :
    (finishErr code s).left = Config.freeValue 32 (s.draws + 1) := rfl
@[simp] theorem finishErr_right (code : ErrCode) (s : State) :
    (finishErr code s).right = Config.freeValue 32 (s.draws + 2) := rfl
@[simp] theorem finishErr_irqEn (code : ErrCode) (s : State) : (finishErr code s).irqEn = s.irqEn := rfl
@[simp] theorem finishErr_busy (code : ErrCode) (s : State) : (finishErr code s).busy = false := rfl
@[simp] theorem finishErr_done (code : ErrCode) (s : State) : (finishErr code s).done = false := rfl
@[simp] theorem finishErr_err (code : ErrCode) (s : State) : (finishErr code s).err = true := rfl
@[simp] theorem finishErr_werr (code : ErrCode) (s : State) : (finishErr code s).werr = s.werr := rfl
@[simp] theorem finishErr_errcode (code : ErrCode) (s : State) : (finishErr code s).errcode = code := rfl
@[simp] theorem finishErr_keyLen (code : ErrCode) (s : State) : (finishErr code s).keyLen = s.keyLen := rfl
@[simp] theorem finishErr_inLen (code : ErrCode) (s : State) : (finishErr code s).inLen = s.inLen := rfl
@[simp] theorem finishErr_outLen (code : ErrCode) (s : State) : (finishErr code s).outLen = 0 := rfl
@[simp] theorem finishErr_key (code : ErrCode) (s : State) : (finishErr code s).key = s.key := rfl
@[simp] theorem finishErr_ibuf (code : ErrCode) (s : State) : (finishErr code s).ibuf = s.ibuf := rfl
@[simp] theorem finishErr_obuf (code : ErrCode) (s : State) : (finishErr code s).obuf = [] := rfl
@[simp] theorem finishErr_draws (code : ErrCode) (s : State) : (finishErr code s).draws = s.draws + 3 := rfl
@[simp] theorem finishErr_events (code : ErrCode) (s : State) : (finishErr code s).events = s.events := rfl
@[simp] theorem finishErr_response (code : ErrCode) (s : State) : (finishErr code s).response = s.response := rfl

/-! ## keygenAction -/

@[simp] theorem keygenAction_cfg (s : State) : (keygenAction s).cfg = s.cfg := rfl
@[simp] theorem keygenAction_op (s : State) : (keygenAction s).op = s.op := rfl
@[simp] theorem keygenAction_cmdword (s : State) : (keygenAction s).cmdword = s.cmdword := rfl
@[simp] theorem keygenAction_phase (s : State) : (keygenAction s).phase = .keygen := rfl
@[simp] theorem keygenAction_round (s : State) : (keygenAction s).round = s.round := rfl
@[simp] theorem keygenAction_blk (s : State) : (keygenAction s).blk = s.blk := rfl
@[simp] theorem keygenAction_rk (s : State) : (keygenAction s).rk = deriveKeys (normalizedKey s) := rfl
@[simp] theorem keygenAction_x (s : State) : (keygenAction s).x = s.x := rfl
@[simp] theorem keygenAction_left (s : State) : (keygenAction s).left = s.left := rfl
@[simp] theorem keygenAction_right (s : State) : (keygenAction s).right = s.right := rfl
@[simp] theorem keygenAction_irqEn (s : State) : (keygenAction s).irqEn = s.irqEn := rfl
@[simp] theorem keygenAction_busy (s : State) : (keygenAction s).busy = s.busy := rfl
@[simp] theorem keygenAction_done (s : State) : (keygenAction s).done = s.done := rfl
@[simp] theorem keygenAction_err (s : State) : (keygenAction s).err = s.err := rfl
@[simp] theorem keygenAction_werr (s : State) : (keygenAction s).werr = s.werr := rfl
@[simp] theorem keygenAction_errcode (s : State) : (keygenAction s).errcode = s.errcode := rfl
@[simp] theorem keygenAction_keyLen (s : State) : (keygenAction s).keyLen = s.keyLen := rfl
@[simp] theorem keygenAction_inLen (s : State) : (keygenAction s).inLen = s.inLen := rfl
@[simp] theorem keygenAction_outLen (s : State) : (keygenAction s).outLen = s.outLen := rfl
@[simp] theorem keygenAction_key (s : State) : (keygenAction s).key = s.key := rfl
@[simp] theorem keygenAction_ibuf (s : State) : (keygenAction s).ibuf = s.ibuf := rfl
@[simp] theorem keygenAction_obuf (s : State) : (keygenAction s).obuf = s.obuf := rfl
@[simp] theorem keygenAction_draws (s : State) : (keygenAction s).draws = s.draws + keyBytesRead s := rfl
@[simp] theorem keygenAction_events (s : State) : (keygenAction s).events = s.events := rfl
@[simp] theorem keygenAction_response (s : State) : (keygenAction s).response = s.response := rfl

/-! ## loadBlock -/

@[simp] theorem loadBlock_cfg (job : BlockJob) (b : Nat) (s : State) : (loadBlock job b s).cfg = s.cfg := rfl
@[simp] theorem loadBlock_op (job : BlockJob) (b : Nat) (s : State) : (loadBlock job b s).op = s.op := rfl
@[simp] theorem loadBlock_cmdword (job : BlockJob) (b : Nat) (s : State) :
    (loadBlock job b s).cmdword = s.cmdword := rfl
@[simp] theorem loadBlock_phase (job : BlockJob) (b : Nat) (s : State) : (loadBlock job b s).phase = .raw := rfl
@[simp] theorem loadBlock_round (job : BlockJob) (b : Nat) (s : State) : (loadBlock job b s).round = 0 := rfl
@[simp] theorem loadBlock_blk (job : BlockJob) (b : Nat) (s : State) :
    (loadBlock job b s).blk = BitVec.ofNat 16 b := rfl
@[simp] theorem loadBlock_rk (job : BlockJob) (b : Nat) (s : State) : (loadBlock job b s).rk = s.rk := rfl
@[simp] theorem loadBlock_x (job : BlockJob) (b : Nat) (s : State) :
    (loadBlock job b s).x = bits 64 (memRead job.src (8 * b) 8 s) := rfl
@[simp] theorem loadBlock_left (job : BlockJob) (b : Nat) (s : State) : (loadBlock job b s).left = s.left := rfl
@[simp] theorem loadBlock_right (job : BlockJob) (b : Nat) (s : State) : (loadBlock job b s).right = s.right := rfl
@[simp] theorem loadBlock_irqEn (job : BlockJob) (b : Nat) (s : State) : (loadBlock job b s).irqEn = s.irqEn := rfl
@[simp] theorem loadBlock_busy (job : BlockJob) (b : Nat) (s : State) : (loadBlock job b s).busy = s.busy := rfl
@[simp] theorem loadBlock_done (job : BlockJob) (b : Nat) (s : State) : (loadBlock job b s).done = s.done := rfl
@[simp] theorem loadBlock_err (job : BlockJob) (b : Nat) (s : State) : (loadBlock job b s).err = s.err := rfl
@[simp] theorem loadBlock_werr (job : BlockJob) (b : Nat) (s : State) : (loadBlock job b s).werr = s.werr := rfl
@[simp] theorem loadBlock_errcode (job : BlockJob) (b : Nat) (s : State) :
    (loadBlock job b s).errcode = s.errcode := rfl
@[simp] theorem loadBlock_keyLen (job : BlockJob) (b : Nat) (s : State) : (loadBlock job b s).keyLen = s.keyLen := rfl
@[simp] theorem loadBlock_inLen (job : BlockJob) (b : Nat) (s : State) : (loadBlock job b s).inLen = s.inLen := rfl
@[simp] theorem loadBlock_outLen (job : BlockJob) (b : Nat) (s : State) : (loadBlock job b s).outLen = s.outLen := rfl
@[simp] theorem loadBlock_key (job : BlockJob) (b : Nat) (s : State) : (loadBlock job b s).key = s.key := rfl
@[simp] theorem loadBlock_ibuf (job : BlockJob) (b : Nat) (s : State) : (loadBlock job b s).ibuf = s.ibuf := rfl
@[simp] theorem loadBlock_obuf (job : BlockJob) (b : Nat) (s : State) : (loadBlock job b s).obuf = s.obuf := rfl
@[simp] theorem loadBlock_draws (job : BlockJob) (b : Nat) (s : State) :
    (loadBlock job b s).draws = s.draws + 8 := rfl
@[simp] theorem loadBlock_events (job : BlockJob) (b : Nat) (s : State) : (loadBlock job b s).events = s.events := rfl
@[simp] theorem loadBlock_response (job : BlockJob) (b : Nat) (s : State) :
    (loadBlock job b s).response = s.response := rfl

/-! ## rawStep -/

@[simp] theorem rawStep_cfg (s : State) : (rawStep s).cfg = s.cfg := rfl
@[simp] theorem rawStep_op (s : State) : (rawStep s).op = s.op := rfl
@[simp] theorem rawStep_cmdword (s : State) : (rawStep s).cmdword = s.cmdword := rfl
@[simp] theorem rawStep_phase (s : State) : (rawStep s).phase = .permutedInitial := rfl
@[simp] theorem rawStep_round (s : State) : (rawStep s).round = s.round := rfl
@[simp] theorem rawStep_blk (s : State) : (rawStep s).blk = s.blk := rfl
@[simp] theorem rawStep_rk (s : State) : (rawStep s).rk = s.rk := rfl
@[simp] theorem rawStep_x (s : State) : (rawStep s).x = initialPermutation s.cfg s.x := rfl
@[simp] theorem rawStep_left (s : State) : (rawStep s).left = slice (initialPermutation s.cfg s.x) 0 32 := rfl
@[simp] theorem rawStep_right (s : State) : (rawStep s).right = slice (initialPermutation s.cfg s.x) 32 32 := rfl
@[simp] theorem rawStep_irqEn (s : State) : (rawStep s).irqEn = s.irqEn := rfl
@[simp] theorem rawStep_busy (s : State) : (rawStep s).busy = s.busy := rfl
@[simp] theorem rawStep_done (s : State) : (rawStep s).done = s.done := rfl
@[simp] theorem rawStep_err (s : State) : (rawStep s).err = s.err := rfl
@[simp] theorem rawStep_werr (s : State) : (rawStep s).werr = s.werr := rfl
@[simp] theorem rawStep_errcode (s : State) : (rawStep s).errcode = s.errcode := rfl
@[simp] theorem rawStep_keyLen (s : State) : (rawStep s).keyLen = s.keyLen := rfl
@[simp] theorem rawStep_inLen (s : State) : (rawStep s).inLen = s.inLen := rfl
@[simp] theorem rawStep_outLen (s : State) : (rawStep s).outLen = s.outLen := rfl
@[simp] theorem rawStep_key (s : State) : (rawStep s).key = s.key := rfl
@[simp] theorem rawStep_ibuf (s : State) : (rawStep s).ibuf = s.ibuf := rfl
@[simp] theorem rawStep_obuf (s : State) : (rawStep s).obuf = s.obuf := rfl
@[simp] theorem rawStep_draws (s : State) : (rawStep s).draws = s.draws := rfl
@[simp] theorem rawStep_events (s : State) : (rawStep s).events = s.events := rfl
@[simp] theorem rawStep_response (s : State) : (rawStep s).response = s.response := rfl

/-! ## runRound -/

@[simp] theorem runRound_cfg (dir : Direction) (j : Nat) (s : State) : (runRound dir j s).cfg = s.cfg := rfl
@[simp] theorem runRound_op (dir : Direction) (j : Nat) (s : State) : (runRound dir j s).op = s.op := rfl
@[simp] theorem runRound_cmdword (dir : Direction) (j : Nat) (s : State) :
    (runRound dir j s).cmdword = s.cmdword := rfl
@[simp] theorem runRound_phase (dir : Direction) (j : Nat) (s : State) : (runRound dir j s).phase = .round := rfl
@[simp] theorem runRound_round (dir : Direction) (j : Nat) (s : State) :
    (runRound dir j s).round = BitVec.ofNat 4 j := rfl
@[simp] theorem runRound_blk (dir : Direction) (j : Nat) (s : State) : (runRound dir j s).blk = s.blk := rfl
@[simp] theorem runRound_rk (dir : Direction) (j : Nat) (s : State) : (runRound dir j s).rk = s.rk := rfl
@[simp] theorem runRound_x (dir : Direction) (j : Nat) (s : State) : (runRound dir j s).x = s.x := rfl
@[simp] theorem runRound_left (dir : Direction) (j : Nat) (s : State) : (runRound dir j s).left = s.right := rfl
@[simp] theorem runRound_right (dir : Direction) (j : Nat) (s : State) :
    (runRound dir j s).right = s.left ^^^ roundFunction s.cfg s.right (keyAt dir s.rk j) := rfl
@[simp] theorem runRound_irqEn (dir : Direction) (j : Nat) (s : State) : (runRound dir j s).irqEn = s.irqEn := rfl
@[simp] theorem runRound_busy (dir : Direction) (j : Nat) (s : State) : (runRound dir j s).busy = s.busy := rfl
@[simp] theorem runRound_done (dir : Direction) (j : Nat) (s : State) : (runRound dir j s).done = s.done := rfl
@[simp] theorem runRound_err (dir : Direction) (j : Nat) (s : State) : (runRound dir j s).err = s.err := rfl
@[simp] theorem runRound_werr (dir : Direction) (j : Nat) (s : State) : (runRound dir j s).werr = s.werr := rfl
@[simp] theorem runRound_errcode (dir : Direction) (j : Nat) (s : State) :
    (runRound dir j s).errcode = s.errcode := rfl
@[simp] theorem runRound_keyLen (dir : Direction) (j : Nat) (s : State) : (runRound dir j s).keyLen = s.keyLen := rfl
@[simp] theorem runRound_inLen (dir : Direction) (j : Nat) (s : State) : (runRound dir j s).inLen = s.inLen := rfl
@[simp] theorem runRound_outLen (dir : Direction) (j : Nat) (s : State) : (runRound dir j s).outLen = s.outLen := rfl
@[simp] theorem runRound_key (dir : Direction) (j : Nat) (s : State) : (runRound dir j s).key = s.key := rfl
@[simp] theorem runRound_ibuf (dir : Direction) (j : Nat) (s : State) : (runRound dir j s).ibuf = s.ibuf := rfl
@[simp] theorem runRound_obuf (dir : Direction) (j : Nat) (s : State) : (runRound dir j s).obuf = s.obuf := rfl
@[simp] theorem runRound_draws (dir : Direction) (j : Nat) (s : State) : (runRound dir j s).draws = s.draws := rfl
@[simp] theorem runRound_events (dir : Direction) (j : Nat) (s : State) : (runRound dir j s).events = s.events := rfl
@[simp] theorem runRound_response (dir : Direction) (j : Nat) (s : State) :
    (runRound dir j s).response = s.response := rfl

/-! ## swapStep -/

@[simp] theorem swapStep_cfg (s : State) : (swapStep s).cfg = s.cfg := rfl
@[simp] theorem swapStep_op (s : State) : (swapStep s).op = s.op := rfl
@[simp] theorem swapStep_cmdword (s : State) : (swapStep s).cmdword = s.cmdword := rfl
@[simp] theorem swapStep_phase (s : State) : (swapStep s).phase = .swappedFinal := rfl
@[simp] theorem swapStep_round (s : State) : (swapStep s).round = 0 := rfl
@[simp] theorem swapStep_blk (s : State) : (swapStep s).blk = s.blk := rfl
@[simp] theorem swapStep_rk (s : State) : (swapStep s).rk = s.rk := rfl
@[simp] theorem swapStep_x (s : State) : (swapStep s).x = joinSwapped s.left s.right := rfl
@[simp] theorem swapStep_left (s : State) : (swapStep s).left = s.left := rfl
@[simp] theorem swapStep_right (s : State) : (swapStep s).right = s.right := rfl
@[simp] theorem swapStep_irqEn (s : State) : (swapStep s).irqEn = s.irqEn := rfl
@[simp] theorem swapStep_busy (s : State) : (swapStep s).busy = s.busy := rfl
@[simp] theorem swapStep_done (s : State) : (swapStep s).done = s.done := rfl
@[simp] theorem swapStep_err (s : State) : (swapStep s).err = s.err := rfl
@[simp] theorem swapStep_werr (s : State) : (swapStep s).werr = s.werr := rfl
@[simp] theorem swapStep_errcode (s : State) : (swapStep s).errcode = s.errcode := rfl
@[simp] theorem swapStep_keyLen (s : State) : (swapStep s).keyLen = s.keyLen := rfl
@[simp] theorem swapStep_inLen (s : State) : (swapStep s).inLen = s.inLen := rfl
@[simp] theorem swapStep_outLen (s : State) : (swapStep s).outLen = s.outLen := rfl
@[simp] theorem swapStep_key (s : State) : (swapStep s).key = s.key := rfl
@[simp] theorem swapStep_ibuf (s : State) : (swapStep s).ibuf = s.ibuf := rfl
@[simp] theorem swapStep_obuf (s : State) : (swapStep s).obuf = s.obuf := rfl
@[simp] theorem swapStep_draws (s : State) : (swapStep s).draws = s.draws := rfl
@[simp] theorem swapStep_events (s : State) : (swapStep s).events = s.events := rfl
@[simp] theorem swapStep_response (s : State) : (swapStep s).response = s.response := rfl

/-! ## swappedStep -/

@[simp] theorem swappedStep_cfg (s : State) : (swappedStep s).cfg = s.cfg := rfl
@[simp] theorem swappedStep_op (s : State) : (swappedStep s).op = s.op := rfl
@[simp] theorem swappedStep_cmdword (s : State) : (swappedStep s).cmdword = s.cmdword := rfl
@[simp] theorem swappedStep_phase (s : State) : (swappedStep s).phase = .permutedFinal := rfl
@[simp] theorem swappedStep_round (s : State) : (swappedStep s).round = s.round := rfl
@[simp] theorem swappedStep_blk (s : State) : (swappedStep s).blk = s.blk := rfl
@[simp] theorem swappedStep_rk (s : State) : (swappedStep s).rk = s.rk := rfl
@[simp] theorem swappedStep_x (s : State) : (swappedStep s).x = finalPermutation s.cfg s.x := rfl
@[simp] theorem swappedStep_left (s : State) : (swappedStep s).left = s.left := rfl
@[simp] theorem swappedStep_right (s : State) : (swappedStep s).right = s.right := rfl
@[simp] theorem swappedStep_irqEn (s : State) : (swappedStep s).irqEn = s.irqEn := rfl
@[simp] theorem swappedStep_busy (s : State) : (swappedStep s).busy = s.busy := rfl
@[simp] theorem swappedStep_done (s : State) : (swappedStep s).done = s.done := rfl
@[simp] theorem swappedStep_err (s : State) : (swappedStep s).err = s.err := rfl
@[simp] theorem swappedStep_werr (s : State) : (swappedStep s).werr = s.werr := rfl
@[simp] theorem swappedStep_errcode (s : State) : (swappedStep s).errcode = s.errcode := rfl
@[simp] theorem swappedStep_keyLen (s : State) : (swappedStep s).keyLen = s.keyLen := rfl
@[simp] theorem swappedStep_inLen (s : State) : (swappedStep s).inLen = s.inLen := rfl
@[simp] theorem swappedStep_outLen (s : State) : (swappedStep s).outLen = s.outLen := rfl
@[simp] theorem swappedStep_key (s : State) : (swappedStep s).key = s.key := rfl
@[simp] theorem swappedStep_ibuf (s : State) : (swappedStep s).ibuf = s.ibuf := rfl
@[simp] theorem swappedStep_obuf (s : State) :
    (swappedStep s).obuf = Memory.write s.obuf (8 * s.blk.toNat) (bytes (finalPermutation s.cfg s.x)) := rfl
@[simp] theorem swappedStep_draws (s : State) : (swappedStep s).draws = s.draws := rfl
@[simp] theorem swappedStep_events (s : State) : (swappedStep s).events = s.events := rfl
@[simp] theorem swappedStep_response (s : State) : (swappedStep s).response = s.response := rfl

/-! ## hardwareReset -/

@[simp] theorem hardwareReset_cfg (s : State) : (hardwareReset s).cfg = s.cfg := rfl
@[simp] theorem hardwareReset_op (s : State) : (hardwareReset s).op = Config.freeValue 8 s.draws := rfl
@[simp] theorem hardwareReset_cmdword (s : State) :
    (hardwareReset s).cmdword = Config.freeValue 32 (s.draws + 1) := rfl
@[simp] theorem hardwareReset_phase (s : State) : (hardwareReset s).phase = .idle := rfl
@[simp] theorem hardwareReset_round (s : State) : (hardwareReset s).round = 0 := rfl
@[simp] theorem hardwareReset_blk (s : State) : (hardwareReset s).blk = 0 := rfl
@[simp] theorem hardwareReset_rk (s : State) :
    (hardwareReset s).rk = Vector.ofFn fun i => Config.freeValue 48 (s.draws + 2 + i.val) := rfl
@[simp] theorem hardwareReset_x (s : State) : (hardwareReset s).x = Config.freeValue 64 (s.draws + 18) := rfl
@[simp] theorem hardwareReset_left (s : State) : (hardwareReset s).left = Config.freeValue 32 (s.draws + 19) := rfl
@[simp] theorem hardwareReset_right (s : State) : (hardwareReset s).right = Config.freeValue 32 (s.draws + 20) := rfl
@[simp] theorem hardwareReset_irqEn (s : State) : (hardwareReset s).irqEn = false := rfl
@[simp] theorem hardwareReset_busy (s : State) : (hardwareReset s).busy = false := rfl
@[simp] theorem hardwareReset_done (s : State) : (hardwareReset s).done = false := rfl
@[simp] theorem hardwareReset_err (s : State) : (hardwareReset s).err = false := rfl
@[simp] theorem hardwareReset_werr (s : State) : (hardwareReset s).werr = false := rfl
@[simp] theorem hardwareReset_errcode (s : State) : (hardwareReset s).errcode = .ok := rfl
@[simp] theorem hardwareReset_keyLen (s : State) : (hardwareReset s).keyLen = 0 := rfl
@[simp] theorem hardwareReset_inLen (s : State) : (hardwareReset s).inLen = 0 := rfl
@[simp] theorem hardwareReset_outLen (s : State) : (hardwareReset s).outLen = 0 := rfl
@[simp] theorem hardwareReset_key (s : State) : (hardwareReset s).key = [] := rfl
@[simp] theorem hardwareReset_ibuf (s : State) : (hardwareReset s).ibuf = [] := rfl
@[simp] theorem hardwareReset_obuf (s : State) : (hardwareReset s).obuf = [] := rfl
@[simp] theorem hardwareReset_draws (s : State) : (hardwareReset s).draws = s.draws + 21 := rfl
@[simp] theorem hardwareReset_events (s : State) : (hardwareReset s).events = s.events := rfl
@[simp] theorem hardwareReset_response (s : State) : (hardwareReset s).response = .none := rfl

/-! ## writeStatus -/

@[simp] theorem writeStatus_cfg (v : Word) (s : State) : (writeStatus v s).cfg = s.cfg := rfl
@[simp] theorem writeStatus_op (v : Word) (s : State) : (writeStatus v s).op = s.op := rfl
@[simp] theorem writeStatus_cmdword (v : Word) (s : State) : (writeStatus v s).cmdword = s.cmdword := rfl
@[simp] theorem writeStatus_phase (v : Word) (s : State) : (writeStatus v s).phase = s.phase := rfl
@[simp] theorem writeStatus_round (v : Word) (s : State) : (writeStatus v s).round = s.round := rfl
@[simp] theorem writeStatus_blk (v : Word) (s : State) : (writeStatus v s).blk = s.blk := rfl
@[simp] theorem writeStatus_rk (v : Word) (s : State) : (writeStatus v s).rk = s.rk := rfl
@[simp] theorem writeStatus_x (v : Word) (s : State) : (writeStatus v s).x = s.x := rfl
@[simp] theorem writeStatus_left (v : Word) (s : State) : (writeStatus v s).left = s.left := rfl
@[simp] theorem writeStatus_right (v : Word) (s : State) : (writeStatus v s).right = s.right := rfl
@[simp] theorem writeStatus_irqEn (v : Word) (s : State) : (writeStatus v s).irqEn = s.irqEn := rfl
@[simp] theorem writeStatus_busy (v : Word) (s : State) : (writeStatus v s).busy = s.busy := rfl
@[simp] theorem writeStatus_done (v : Word) (s : State) : (writeStatus v s).done = (s.done && !v.getLsbD 1) := rfl
@[simp] theorem writeStatus_err (v : Word) (s : State) : (writeStatus v s).err = (s.err && !v.getLsbD 2) := rfl
@[simp] theorem writeStatus_werr (v : Word) (s : State) : (writeStatus v s).werr = (s.werr && !v.getLsbD 3) := rfl
@[simp] theorem writeStatus_errcode (v : Word) (s : State) : (writeStatus v s).errcode = s.errcode := rfl
@[simp] theorem writeStatus_keyLen (v : Word) (s : State) : (writeStatus v s).keyLen = s.keyLen := rfl
@[simp] theorem writeStatus_inLen (v : Word) (s : State) : (writeStatus v s).inLen = s.inLen := rfl
@[simp] theorem writeStatus_outLen (v : Word) (s : State) : (writeStatus v s).outLen = s.outLen := rfl
@[simp] theorem writeStatus_key (v : Word) (s : State) : (writeStatus v s).key = s.key := rfl
@[simp] theorem writeStatus_ibuf (v : Word) (s : State) : (writeStatus v s).ibuf = s.ibuf := rfl
@[simp] theorem writeStatus_obuf (v : Word) (s : State) : (writeStatus v s).obuf = s.obuf := rfl
@[simp] theorem writeStatus_draws (v : Word) (s : State) : (writeStatus v s).draws = s.draws := rfl
@[simp] theorem writeStatus_events (v : Word) (s : State) : (writeStatus v s).events = s.events := rfl
@[simp] theorem writeStatus_response (v : Word) (s : State) : (writeStatus v s).response = s.response := rfl

/-! ## softReset -/

@[simp] theorem softReset_cfg (s : State) : (softReset s).cfg = s.cfg := rfl
@[simp] theorem softReset_op (s : State) : (softReset s).op = Config.freeValue 8 s.draws := rfl
@[simp] theorem softReset_cmdword (s : State) : (softReset s).cmdword = Config.freeValue 32 (s.draws + 1) := rfl
@[simp] theorem softReset_phase (s : State) : (softReset s).phase = .idle := rfl
@[simp] theorem softReset_round (s : State) : (softReset s).round = 0 := rfl
@[simp] theorem softReset_blk (s : State) : (softReset s).blk = 0 := rfl
@[simp] theorem softReset_rk (s : State) :
    (softReset s).rk = Vector.ofFn fun i => Config.freeValue 48 (s.draws + 2 + i.val) := rfl
@[simp] theorem softReset_x (s : State) : (softReset s).x = Config.freeValue 64 (s.draws + 18) := rfl
@[simp] theorem softReset_left (s : State) : (softReset s).left = Config.freeValue 32 (s.draws + 19) := rfl
@[simp] theorem softReset_right (s : State) : (softReset s).right = Config.freeValue 32 (s.draws + 20) := rfl
@[simp] theorem softReset_irqEn (s : State) : (softReset s).irqEn = false := rfl
@[simp] theorem softReset_busy (s : State) : (softReset s).busy = false := rfl
@[simp] theorem softReset_done (s : State) : (softReset s).done = false := rfl
@[simp] theorem softReset_err (s : State) : (softReset s).err = false := rfl
@[simp] theorem softReset_werr (s : State) : (softReset s).werr = false := rfl
@[simp] theorem softReset_errcode (s : State) : (softReset s).errcode = .ok := rfl
@[simp] theorem softReset_keyLen (s : State) : (softReset s).keyLen = 0 := rfl
@[simp] theorem softReset_inLen (s : State) : (softReset s).inLen = 0 := rfl
@[simp] theorem softReset_outLen (s : State) : (softReset s).outLen = 0 := rfl
@[simp] theorem softReset_key (s : State) : (softReset s).key = s.key := rfl
@[simp] theorem softReset_ibuf (s : State) : (softReset s).ibuf = s.ibuf := rfl
@[simp] theorem softReset_obuf (s : State) : (softReset s).obuf = [] := rfl
@[simp] theorem softReset_draws (s : State) : (softReset s).draws = s.draws + 21 := rfl
@[simp] theorem softReset_events (s : State) : (softReset s).events = s.events := rfl
@[simp] theorem softReset_response (s : State) : (softReset s).response = .none := rfl

end Sys2Proof.Machine
end

