-- ==== Sys2Proof/Laws/Command.lean ====
section
/-! SUPPORT. What a step of a command can do, said once: the ACCEPTED step, the block steps, and every other step, as
equations of `exec` and one inversion of it. -/

namespace Sys2Proof.Machine

/-- The first action of a command, after its checks (R321), by command. -/
def firstAction (i : Instr) (s : State) : State :=
  match i with
  | .permIp => deliver (bytes (initialPermutation s.cfg (ibufBits 0 64 s))) (s.drew 8)
  | .permFp => deliver (bytes (finalPermutation s.cfg (ibufBits 0 64 s))) (s.drew 8)
  | .permE => deliver (bytes (expand s.cfg (ibufBits 0 32 s))) (s.drew 4)
  | .permP => deliver (bytes (roundPermutation s.cfg (ibufBits 0 32 s))) (s.drew 4)
  | .subst => deliver (bytes (substitute s.cfg (ibufBits 0 48 s))) (s.drew 6)
  | .fround => deliver (bytes (roundFunction s.cfg (ibufBits 0 32 s) (ibufBits 4 48 (s.drew 4)))) (s.drew 10)
  | .keyDerive => keygenAction s
  | .encBlock => keygenAction s
  | .decBlock => keygenAction s
  | .pad => deliver (padBytes (message s)) (s.drew s.inLen.toNat)
  | .unpad => deliverUnpadded (message s) (s.drew s.inLen.toNat)
  | .encrypt => encryptPad s
  | .decrypt => keygenAction s

/-- The end action of R452 by command. -/
def endActionOf (i : Instr) (s : State) : State :=
  match i with
  | .encrypt => finishOk (8 * (encryptJob s).nblk) s
  | .decrypt => decryptEnd s
  | .permIp | .permFp | .permE | .permP | .subst | .fround | .keyDerive | .encBlock | .decBlock | .pad | .unpad =>
    finishOk 8 s

/-- The ACCEPTED step of every command (R321). -/
theorem exec_accepted (i : Instr) (s : State) (h : s.phase = .accepted) :
    exec i s = match checkFailure i s with
      | some code => .next (finishErr code s)
      | none => .next (firstAction i { s with op := opcField s.cmdword }) := by
  cases i <;>
    simp only [exec, execPermIp, execPermFp, execPermE, execPermP, execSubst, execFround, execKeyDerive, execEncBlock,
      execDecBlock, execPad, execUnpad, execEncrypt, execDecrypt, singleStep, h, acceptedStep] <;>
    rfl

/-- The steps of a block command from KEYGEN on (R453 to R459). -/
theorem exec_block (i : Instr) (s : State) (job : BlockJob) (hj : jobOf i s = some job) (h : s.phase = .keygen ∨ s.phase.inBlock = true) :
    exec i s = blockStep job (endActionOf i) s := by
  cases i <;> simp only [jobOf, Option.some.injEq, reduceCtorEq] at hj <;> subst hj <;>
    cases hp : s.phase <;> simp [hp, Phase.inBlock] at h <;>
    simp only [exec, execEncBlock, execDecBlock, execEncrypt, execDecrypt, hp, blockStep] <;> rfl

/-- The KEYGEN step of KEY_DERIVE (R436). -/
theorem exec_keyDerive_keygen (s : State) (h : s.phase = .keygen) :
    exec .keyDerive s = .next (deliver (roundKeyBytes s.rk) s) := by simp [exec, execKeyDerive, h]

/-- The PADDED step of ENCRYPT (R474). -/
theorem exec_encrypt_padded (s : State) (h : s.phase = .padded) : exec .encrypt s = .next (keygenAction s) := by
  simp [exec, execEncrypt, h]

/-- Everything a command's step can do. -/
inductive ExecCase (i : Instr) (s t : State) : Prop where
  | failed (hp : s.phase = .accepted) (code : ErrCode) (hc : checkFailure i s = some code) (ht : t = finishErr code s)
  | first (hp : s.phase = .accepted) (hc : checkFailure i s = none)
      (ht : t = firstAction i { s with op := opcField s.cmdword })
  | delivered (hi : i = .keyDerive) (hp : s.phase = .keygen) (ht : t = deliver (roundKeyBytes s.rk) s)
  | derived (hi : i = .encrypt) (hp : s.phase = .padded) (ht : t = keygenAction s)
  | block (job : BlockJob) (hj : jobOf i s = some job) (hp : s.phase = .keygen ∨ s.phase.inBlock = true)
      (ht : blockStep job (endActionOf i) s = .next t)

/-- The inversion of `exec`. -/
theorem exec_cases (i : Instr) (s t : State) (h : exec i s = .next t) : ExecCase i s t := by
  by_cases hp : s.phase = .accepted
  · rw [exec_accepted i s hp] at h
    cases hc : checkFailure i s with
    | some code => exact .failed hp code hc (by simpa [hc] using h.symm)
    | none => exact .first hp hc (by simpa [hc] using h.symm)
  · cases hj : jobOf i s with
    | some job =>
      by_cases hb : s.phase = .keygen ∨ s.phase.inBlock = true
      · exact .block job hj hb (by rw [← h, exec_block i s job hj hb])
      · cases i <;> simp only [jobOf, reduceCtorEq] at hj <;> cases hq : s.phase <;>
          simp [hq, Phase.inBlock] at hp hb <;>
          simp [exec, execEncBlock, execDecBlock, execEncrypt, execDecrypt, hq] at h
        exact .derived rfl hq h.symm
    | none =>
      cases i <;> simp only [jobOf, reduceCtorEq] at hj <;> cases hq : s.phase <;> simp [hq] at hp <;>
        simp [exec, execPermIp, execPermFp, execPermE, execPermP, execSubst, execFround, execKeyDerive, execPad,
          execUnpad, singleStep, hq] at h
      exact .delivered rfl hq h.symm

/-- The inversion of the block steps, one case a phase. -/
inductive BlockCase (job : BlockJob) (endAction : State → State) (s t : State) : Prop where
  | noBlock (hp : s.phase = .keygen) (hn : job.nblk = 0) (ht : t = finishErr .padding s)
  | firstBlock (hp : s.phase = .keygen) (hn : job.nblk ≠ 0) (ht : t = loadBlock job 0 s)
  | raw (hp : s.phase = .raw) (ht : t = rawStep s)
  | firstRound (hp : s.phase = .permutedInitial) (ht : t = runRound job.dir 0 s)
  | nextRound (hp : s.phase = .round) (hr : s.round.toNat < 15) (ht : t = runRound job.dir (s.round.toNat + 1) s)
  | swap (hp : s.phase = .round) (hr : s.round.toNat = 15) (ht : t = swapStep s)
  | final (hp : s.phase = .swappedFinal) (ht : t = swappedStep s)
  | nextBlock (hp : s.phase = .permutedFinal) (hb : s.blk.toNat + 1 < job.nblk) (ht : t = loadBlock job (s.blk.toNat + 1) s)
  | ended (hp : s.phase = .permutedFinal) (hb : job.nblk ≤ s.blk.toNat + 1) (ht : t = endAction s)

theorem blockStep_cases (job : BlockJob) (endAction : State → State) (s t : State)
    (h : blockStep job endAction s = .next t) : BlockCase job endAction s t := by
  cases hp : s.phase <;> simp only [blockStep, hp, reduceCtorEq, Host.Outcome.next.injEq] at h
  · by_cases hn : job.nblk = 0
    · exact .noBlock hp hn (by simpa [keygenStep, hn] using h.symm)
    · exact .firstBlock hp hn (by simpa [keygenStep, hn] using h.symm)
  · exact .raw hp h.symm
  · exact .firstRound hp h.symm
  · by_cases hr : s.round.toNat < 15
    · exact .nextRound hp hr (by simpa [roundStep, hr] using h.symm)
    · have := s.round.isLt
      exact .swap hp (by omega) (by simpa [roundStep, hr] using h.symm)
  · exact .final hp h.symm
  · by_cases hb : s.blk.toNat + 1 < job.nblk
    · exact .nextBlock hp hb (by simpa [permutedStep, hb] using h.symm)
    · exact .ended hp (by omega) (by simpa [permutedStep, hb] using h.symm)

/-! ## Steps of the machine -/

/-- A turn of the sequencer (R116). -/
theorem stepSequencer_eq (s : State) : stepSequencer s = sequencerStep s := rfl

theorem sequencerStep_idle (s : State) (h : s.busy = false) : sequencerStep s = .next s := by
  simp [sequencerStep, h, idleStep]

theorem sequencerStep_busy (s : State) (i : Instr) (h : s.busy = true) (hi : currentCommand s = some i) :
    sequencerStep s = exec i s := by simp [sequencerStep, h, hi]

theorem sequencerStep_illegal (s : State) (e : IllegalWord) (h : s.busy = true) (hp : s.phase = .accepted)
    (he : decode s.cmdword = .error e) : sequencerStep s = .next (finishErr .illegalCommand s) := by
  simp [sequencerStep, h, currentCommand, hp, he, noCommandStep]

/-- With nothing to come from outside, a step is a turn of the sequencer. -/
theorem step_noEvents (s : State) (h : s.events = []) : step s = sequencerStep s := by
  simp [step, takeEvent, h]

/-- Everything the sequencer's turn can do. -/
theorem sequencerStep_cases (s t : State) (h : sequencerStep s = .next t) :
    (s.busy = false ∧ t = s) ∨
    (s.busy = true ∧ ∃ i, currentCommand s = some i ∧ exec i s = .next t) ∨
    (s.busy = true ∧ s.phase = .accepted ∧ (∃ e, decode s.cmdword = .error e) ∧ t = finishErr .illegalCommand s) := by
  cases hb : s.busy with
  | false => exact .inl ⟨rfl, by simpa [sequencerStep, hb, idleStep] using h.symm⟩
  | true =>
    right
    cases hc : currentCommand s with
    | some i => exact .inl ⟨rfl, i, rfl, by simpa [sequencerStep, hb, hc] using h⟩
    | none =>
      right
      cases hp : s.phase <;> simp [sequencerStep, hb, hc, noCommandStep, hp] at h
      refine ⟨rfl, rfl, ?_, h.symm⟩
      cases hd : decode s.cmdword with
      | error e => exact ⟨e, rfl⟩
      | ok i => simp [currentCommand, hp, hd] at hc

/-- Everything a step of the machine can do: one event (R208). -/
theorem step_cases (s t : State) (h : step s = .next t) :
    (∃ s', (s.events = [] ∧ s' = s ∨ ∃ rest, s.events = .sequencer :: rest ∧ s' = { s with events := rest }) ∧
      sequencerStep s' = .next t) ∨
    (∃ tr rest, s.events = .bus tr :: rest ∧ busTransaction tr { s with events := rest } = .next t) ∨
    (∃ rest, s.events = .hardwareReset :: rest ∧ t = hardwareReset { s with events := rest }) := by
  cases he : s.events with
  | nil => exact .inl ⟨s, .inl ⟨rfl, rfl⟩, by simpa [step, takeEvent, he] using h⟩
  | cons e rest =>
    cases e with
    | sequencer => exact .inl ⟨_, .inr ⟨rest, rfl, rfl⟩, by simpa [step, takeEvent, he] using h⟩
    | bus tr => exact .inr (.inl ⟨tr, rest, rfl, by simpa [step, takeEvent, he] using h⟩)
    | hardwareReset => exact .inr (.inr ⟨rest, rfl, by simpa [step, takeEvent, he] using h.symm⟩)

/-- Everything a host transaction can do (R201). -/
theorem busTransaction_cases (tr : Transaction) (s t : State) (h : busTransaction tr s = .next t) :
    (∃ off, off < 0x4000 ∧ off % 4 = 0 ∧ tr = .read (s.cfg.base + off) 4 ∧
      t = { s with
        response := .data (readWord (regAt s.cfg.bufBytes off) s)
        draws := s.draws + readDraws (regAt s.cfg.bufBytes off) s }) ∨
    (∃ off v, off < 0x4000 ∧ off % 4 = 0 ∧ tr = .write (s.cfg.base + off) 4 v ∧
      t = { hostWriteReg (regAt s.cfg.bufBytes off) v s with response := .written }) ∨
    (∃ a w v, tr = .write a w v ∧ tr.wordAccess s.cfg.base = false ∧ t = { s with response := .busError }) := by
  unfold busTransaction at h
  by_cases hw : tr.inWindow s.cfg.base = true
  · rw [if_pos hw] at h
    simp only [Transaction.inWindow, Bool.and_eq_true, decide_eq_true_eq] at hw
    cases tr with
    | read a w =>
      simp only [Transaction.addr] at hw
      by_cases ha : (Transaction.read a w).wordAccess s.cfg.base = true
      · simp only [ha, if_true, Host.Outcome.next.injEq] at h
        simp only [Transaction.wordAccess, Transaction.addr, Transaction.width, Bool.and_eq_true, beq_iff_eq] at ha
        refine .inl ⟨a - s.cfg.base, by omega, ha.2, ?_, h.symm⟩
        rw [ha.1, Nat.add_sub_cancel' hw.1]
      · simp [ha] at h
    | write a w v =>
      simp only [Transaction.addr] at hw
      by_cases ha : (Transaction.write a w v).wordAccess s.cfg.base = true
      · simp only [ha, if_true, Host.Outcome.next.injEq] at h
        simp only [Transaction.wordAccess, Transaction.addr, Transaction.width, Bool.and_eq_true, beq_iff_eq] at ha
        refine .inr (.inl ⟨a - s.cfg.base, v, by omega, ha.2, ?_, h.symm⟩)
        rw [ha.1, Nat.add_sub_cancel' hw.1]
      · exact .inr (.inr ⟨a, w, v, rfl, by simpa using ha, by simpa [ha] using h.symm⟩)
  · simp [hw] at h

/-- A word access of the window, as a host transaction (R201). -/
theorem busTransaction_read (s : State) (off : Nat) (h : WordOffset off) :
    busTransaction (.read (s.cfg.base + off) 4) s = .next
      { s with
        response := .data (readWord (regAt s.cfg.bufBytes off) s)
        draws := s.draws + readDraws (regAt s.cfg.bufBytes off) s } := by
  obtain ⟨h1, h2⟩ := h
  simp [busTransaction, Transaction.inWindow, Transaction.wordAccess, Transaction.addr, Transaction.width,
    h1, h2]

theorem busTransaction_write (s : State) (off : Nat) (v : Word) (h : WordOffset off) :
    busTransaction (.write (s.cfg.base + off) 4 v) s = .next
      { hostWriteReg (regAt s.cfg.bufBytes off) v s with response := .written } := by
  obtain ⟨h1, h2⟩ := h
  simp [busTransaction, Transaction.inWindow, Transaction.wordAccess, Transaction.addr, Transaction.width,
    h1, h2]

theorem stepRead_eq (off : Nat) (s : State) (h : WordOffset off) :
    stepRead off s = .next
      { s with
        response := .data (readWord (regAt s.cfg.bufBytes off) s)
        draws := s.draws + readDraws (regAt s.cfg.bufBytes off) s } := busTransaction_read s off h

theorem stepWrite_eq (off : Nat) (v : Word) (s : State) (h : WordOffset off) :
    stepWrite off v s = .next { hostWriteReg (regAt s.cfg.bufBytes off) v s with response := .written } :=
  busTransaction_write s off v h

theorem stepHardwareReset_eq (s : State) : stepHardwareReset s = .next (hardwareReset s) := rfl

/-- One step of the host's run of any core, then the rest. -/
theorem core_run_next (M : Host.Core) (n : Nat) (s t : M.State) (h : M.step s = .next t) : M.run (n + 1) s = M.run n t := by
  show (match M.step s with
    | .next t => M.run n t
    | .fault r => .fault r
    | .refused r => .refused r) = _
  rw [h]

theorem core_run_fault (M : Host.Core) (n : Nat) (s : M.State) (r : M.Fault) (h : M.step s = .fault r) :
    M.run (n + 1) s = .fault r := by
  show (match M.step s with
    | .next t => M.run n t
    | .fault r => .fault r
    | .refused r => .refused r) = _
  rw [h]

theorem core_run_refused (M : Host.Core) (n : Nat) (s : M.State) (r : M.Refusal) (h : M.step s = .refused r) :
    M.run (n + 1) s = .refused r := by
  show (match M.step s with
    | .next t => M.run n t
    | .fault r => .fault r
    | .refused r => .refused r) = _
  rw [h]

/-- `runSteps` is the host's run of the core. -/
theorem runSteps_eq_core_run (n : Nat) (s : State) : Host.Core.run core n s = runSteps n s := by
  induction n generalizing s with
  | zero => rfl
  | succ n ih =>
    rw [runSteps]
    cases hs : step s with
    | next t => exact (core_run_next core n s t hs).trans (ih t)
    | fault r => exact core_run_fault core n s r hs
    | refused r => exact core_run_refused core n s r hs

/-- One step, then the rest. -/
theorem runs_succ (n : Nat) (s t : State) : Runs (n + 1) s t ↔ ∃ u, step s = .next u ∧ Runs n u t := by
  unfold Runs
  rw [runSteps]
  cases step s with
  | next s' => simp
  | fault r => simp
  | refused r => simp

theorem runs_zero (s t : State) : Runs 0 s t ↔ s = t :=
  ⟨fun h => Host.Outcome.next.inj h, fun h => h ▸ rfl⟩

theorem runs_one (s t : State) (h : step s = .next t) : Runs 1 s t :=
  (runs_succ 0 s t).2 ⟨t, h, (runs_zero t t).2 rfl⟩

/-- The first m steps, then n more. -/
theorem runs_add (m n : Nat) (s t u : State) (h : Runs m s t) (h' : Runs n t u) : Runs (m + n) s u := by
  induction m generalizing s with
  | zero => rw [runs_zero] at h; subst h; simpa using h'
  | succ m ih =>
    obtain ⟨v, hv, hr⟩ := (runs_succ m s t).1 h
    rw [Nat.succ_add]
    exact (runs_succ _ s u).2 ⟨v, hv, ih v hr⟩

/-- A run has one end. -/
theorem runs_unique (n : Nat) (s t u : State) (h : Runs n s t) (h' : Runs n s u) : t = u :=
  Host.Outcome.next.inj (h.symm.trans h')

end Sys2Proof.Machine
end

