-- ==== Sys2Proof/Laws/Memory.lean ====
section
/-! SUPPORT. The laws of buffers: reading after writing, and that every operation keeps the canonical form. -/

namespace Sys2Proof.Machine.Memory

/-- Every listed index of m is at least n. -/
def above (n : Nat) (m : Memory) : Prop := ∀ c ∈ m, n ≤ c.1

@[simp] theorem get?_nil (i : Nat) : get? [] i = none := rfl

theorem get?_cons (a : Nat) (b : Byte) (m : Memory) (i : Nat) :
    get? ((a, b) :: m) i = if a = i then some b else get? m i := rfl

theorem get?_append (m m' : Memory) (i : Nat) : get? (m ++ m') i = (get? m i).or (get? m' i) := by
  induction m with
  | nil => simp
  | cons c m ih =>
    obtain ⟨a, b⟩ := c
    by_cases h : a = i <;> simp [get?_cons, h, ih]

theorem get?_filter (p : Nat → Bool) (m : Memory) (i : Nat) :
    get? (m.filter fun c => p c.1) i = if p i then get? m i else none := by
  induction m with
  | nil => simp
  | cons c m ih =>
    obtain ⟨a, b⟩ := c
    by_cases hp : p a
    · by_cases h : a = i
      · subst h; simp [hp, get?_cons]
      · simp [hp, get?_cons, h, ih]
    · by_cases h : a = i
      · subst h; simp [hp, ih]
      · simp [hp, get?_cons, h, ih]

@[simp] theorem get?_below (m : Memory) (n i : Nat) : get? (below m n) i = if i < n then get? m i else none := by
  simpa [below] using get?_filter (fun a => decide (a < n)) m i

@[simp] theorem get?_from' (m : Memory) (n i : Nat) : get? (from' m n) i = if n ≤ i then get? m i else none := by
  simpa [from'] using get?_filter (fun a => decide (n ≤ a)) m i

theorem get?_cells (a : Nat) (bs : List Byte) (i : Nat) :
    get? (cells a bs) i = if a ≤ i then bs[i - a]? else none := by
  induction bs generalizing a with
  | nil => simp [cells]
  | cons b bs ih =>
    rw [cells, get?_cons, ih]
    by_cases h : a = i
    · simp [h]
    · by_cases h' : a ≤ i
      · obtain ⟨k, rfl⟩ : ∃ k, i = a + 1 + k := ⟨i - a - 1, by omega⟩
        have e : a + 1 + k - a = k + 1 := by omega
        simp [h, e, show a ≤ a + 1 + k by omega]
      · simp [h, h', show ¬ a + 1 ≤ i by omega]

/-- Reading after writing: the written bytes at the written indices, and the old contents everywhere else. -/
theorem get?_write (m : Memory) (a : Nat) (bs : List Byte) (i : Nat) :
    get? (write m a bs) i = if a ≤ i ∧ i < a + bs.length then bs[i - a]? else get? m i := by
  simp only [write, get?_append, get?_below, get?_cells, get?_from']
  by_cases h1 : i < a
  · simp [h1, show ¬ a ≤ i by omega, show ¬ a + bs.length ≤ i by omega]
  · by_cases h2 : i < a + bs.length
    · simp [h1, h2, show a ≤ i by omega, show ¬ a + bs.length ≤ i by omega]
    · simp [h1, h2, show a ≤ i by omega, show a + bs.length ≤ i by omega, show bs.length ≤ i - a by omega]

theorem get?_write_same (m : Memory) (a : Nat) (bs : List Byte) (k : Nat) (h : k < bs.length) :
    get? (write m a bs) (a + k) = some bs[k] := by
  rw [get?_write]; simp [h]

theorem get?_write_other (m : Memory) (a : Nat) (bs : List Byte) (i : Nat) (h : i < a ∨ a + bs.length ≤ i) :
    get? (write m a bs) i = get? m i := by
  rw [get?_write, if_neg (by omega)]

/-! ## The canonical form -/

@[simp] theorem wf_nil : wf [] = true := rfl

/-- The canonical form as a statement about all pairs of cells. -/
theorem wf_iff_pairwise (m : Memory) : wf m = true ↔ m.Pairwise fun c d => c.1 < d.1 := by
  induction m with
  | nil => simp
  | cons c m ih =>
    obtain ⟨a, b⟩ := c
    cases m with
    | nil => simp [wf]
    | cons d m =>
      obtain ⟨a', b'⟩ := d
      rw [wf, Bool.and_eq_true, ih, decide_eq_true_eq, List.pairwise_cons (a := (a, b))]
      constructor
      · rintro ⟨h, hp⟩
        refine ⟨?_, hp⟩
        intro e he
        rcases List.mem_cons.1 he with rfl | he
        · exact h
        · exact Nat.lt_trans h ((List.pairwise_cons.1 hp).1 e he)
      · rintro ⟨h, hp⟩
        exact ⟨h _ List.mem_cons_self, hp⟩

theorem wf_filter (p : Host.Cell → Bool) (m : Memory) (h : wf m = true) : wf (m.filter p) = true := by
  rw [wf_iff_pairwise] at *
  exact h.filter p

theorem wf_below (m : Memory) (n : Nat) (h : wf m = true) : wf (below m n) = true := wf_filter _ m h

theorem mem_cells (a : Nat) (bs : List Byte) (c : Host.Cell) (h : c ∈ cells a bs) :
    a ≤ c.1 ∧ c.1 < a + bs.length := by
  induction bs generalizing a with
  | nil => simp [cells] at h
  | cons b bs ih =>
    rw [cells, List.mem_cons] at h
    rcases h with rfl | h
    · simp
    · have := ih (a + 1) h
      simp only [List.length_cons]
      omega

theorem cells_pairwise (a : Nat) (bs : List Byte) : (cells a bs).Pairwise fun c d => c.1 < d.1 := by
  induction bs generalizing a with
  | nil => simp [cells]
  | cons b bs ih =>
    rw [cells, List.pairwise_cons]
    refine ⟨fun d hd => ?_, ih (a + 1)⟩
    have := mem_cells _ _ _ hd
    show a < d.1
    omega

theorem mem_below {m : Memory} {n : Nat} {c : Host.Cell} : c ∈ below m n ↔ c ∈ m ∧ c.1 < n := by
  simp [below, List.mem_filter]

theorem mem_from' {m : Memory} {n : Nat} {c : Host.Cell} : c ∈ from' m n ↔ c ∈ m ∧ n ≤ c.1 := by
  simp [from', List.mem_filter]

/-- A write keeps the canonical form. -/
theorem wf_write (m : Memory) (a : Nat) (bs : List Byte) (h : wf m = true) : wf (write m a bs) = true := by
  have h1 := (wf_iff_pairwise _).1 (wf_filter (fun c => decide (c.1 < a)) m h)
  have h2 := (wf_iff_pairwise _).1 (wf_filter (fun c => decide (a + bs.length ≤ c.1)) m h)
  rw [wf_iff_pairwise, write, List.pairwise_append, List.pairwise_append]
  refine ⟨⟨h1, cells_pairwise a bs, ?_⟩, h2, ?_⟩
  · intro c hc d hd
    have := (mem_below.1 hc).2
    have := mem_cells _ _ _ hd
    omega
  · intro c hc d hd
    have hd' := (mem_from'.1 hd).2
    rcases List.mem_append.1 hc with hc | hc
    · have := (mem_below.1 hc).2
      omega
    · have := mem_cells _ _ _ hc
      omega

theorem boundedBy_iff (n : Nat) (m : Memory) : boundedBy n m = true ↔ ∀ c ∈ m, c.1 < n := by
  simp [boundedBy]

@[simp] theorem boundedBy_nil (n : Nat) : boundedBy n [] = true := rfl

theorem boundedBy_below (n : Nat) (m : Memory) : boundedBy n (below m n) = true :=
  (boundedBy_iff n _).2 fun _ hc => (mem_below.1 hc).2

theorem boundedBy_below_of (k n : Nat) (m : Memory) (h : boundedBy k m = true) : boundedBy k (below m n) = true :=
  (boundedBy_iff k _).2 fun c hc => (boundedBy_iff k m).1 h c (mem_below.1 hc).1

theorem boundedBy_write (n : Nat) (m : Memory) (a : Nat) (bs : List Byte) (h : boundedBy n m = true)
    (hb : a + bs.length ≤ n) : boundedBy n (write m a bs) = true := by
  rw [boundedBy_iff] at *
  intro c hc
  rw [write, List.mem_append, List.mem_append] at hc
  rcases hc with (hc | hc) | hc
  · exact h c (mem_below.1 hc).1
  · have := mem_cells _ _ _ hc
    omega
  · exact h c (mem_from'.1 hc).1

theorem get?_of_boundedBy (n : Nat) (m : Memory) (h : boundedBy n m = true) (i : Nat) (hi : n ≤ i) :
    get? m i = none := by
  induction m with
  | nil => rfl
  | cons c m ih =>
    obtain ⟨a, b⟩ := c
    rw [boundedBy_iff] at h
    have ha := h (a, b) List.mem_cons_self
    have hm := ih ((boundedBy_iff n m).2 fun c hc => h c (List.mem_cons_of_mem _ hc))
    have : a ≠ i := by simp only at ha; omega
    simp [get?_cons, this, hm]

/-- Two buffers in canonical form that read alike are equal data. -/
theorem eq_of_get?_eq (m m' : Memory) (h : wf m = true) (h' : wf m' = true) (he : ∀ i, get? m i = get? m' i) :
    m = m' := by
  have low : ∀ (m : Memory) (a : Nat), (∀ c ∈ m, a < c.1) → get? m a = none := by
    intro m a ha
    induction m with
    | nil => rfl
    | cons c m ih =>
      obtain ⟨x, y⟩ := c
      have hx := ha (x, y) List.mem_cons_self
      simp only at hx
      rw [get?_cons, if_neg (by omega), ih fun c hc => ha c (List.mem_cons_of_mem _ hc)]
  induction m generalizing m' with
  | nil =>
    cases m' with
    | nil => rfl
    | cons c m' =>
      obtain ⟨a, b⟩ := c
      have := he a
      simp [get?_cons] at this
  | cons c m ih =>
    obtain ⟨a, b⟩ := c
    rw [wf_iff_pairwise, List.pairwise_cons] at h
    cases m' with
    | nil =>
      have := he a
      simp [get?_cons] at this
    | cons d m' =>
      obtain ⟨a', b'⟩ := d
      rw [wf_iff_pairwise, List.pairwise_cons] at h'
      have haa : a = a' := by
        by_contra hne
        rcases Nat.lt_or_gt_of_ne hne with hlt | hgt
        · have h1 := he a
          rw [get?_cons, if_pos rfl, get?_cons, if_neg (Ne.symm hne)] at h1
          rw [low m' a fun c hc => Nat.lt_trans hlt (h'.1 c hc)] at h1
          cases h1
        · have h1 := he a'
          rw [get?_cons, if_neg hne, get?_cons, if_pos rfl] at h1
          rw [low m a' fun c hc => Nat.lt_trans hgt (h.1 c hc)] at h1
          cases h1
      subst haa
      have hb := he a
      rw [get?_cons, if_pos rfl, get?_cons, if_pos rfl] at hb
      cases hb
      have hm : m = m' := by
        refine ih m' ((wf_iff_pairwise m).2 h.2) ((wf_iff_pairwise m').2 h'.2) fun i => ?_
        by_cases hi : a = i
        · subst hi
          rw [low m a fun c hc => h.1 c hc, low m' a fun c hc => h'.1 c hc]
        · have := he i
          rwa [get?_cons, if_neg hi, get?_cons, if_neg hi] at this
      rw [hm]

theorem wf_from' (m : Memory) (n : Nat) (h : wf m = true) : wf (from' m n) = true := wf_filter _ m h

theorem wf_cells (a : Nat) (bs : List Byte) : wf (cells a bs) = true := (wf_iff_pairwise _).2 (cells_pairwise a bs)

/-- The buffers of the reset state are in canonical form. -/
theorem reset_wf : wf State.reset.key = true ∧ wf State.reset.ibuf = true ∧ wf State.reset.obuf = true := ⟨rfl, rfl, rfl⟩

/-! ## Reading -/

@[simp] theorem read_length (m : Memory) (a n d : Nat) : (read m a n d).length = n := by simp [read]

theorem read_getElem (m : Memory) (a n d t : Nat) (h : t < (read m a n d).length) :
    (read m a n d)[t] = (m.get? (a + t)).getD (Config.freeValue 8 (d + t)) := by simp [read]

theorem read_getElem? (m : Memory) (a n d t : Nat) :
    (read m a n d)[t]? = if t < n then some ((m.get? (a + t)).getD (Config.freeValue 8 (d + t))) else none := by
  by_cases h : t < n <;> simp [read, h]

/-- Where every byte holds a value, a read does not depend on the draws (R478). -/
theorem read_of_written (m : Memory) (a n d d' : Nat) (h : ∀ t, t < n → (m.get? (a + t)).isSome = true) :
    read m a n d = read m a n d' := by
  apply List.map_congr_left
  intro t ht
  obtain ⟨b, hb⟩ := Option.isSome_iff_exists.1 (h t (List.mem_range.1 ht))
  simp [hb]

/-- Reading back what was just written. -/
theorem read_write_same (m : Memory) (a d : Nat) (bs : List Byte) : read (write m a bs) a bs.length d = bs := by
  apply List.ext_getElem
  · simp
  · intro t h1 h2
    rw [read_getElem, get?_write_same m a bs t h2]
    rfl

end Sys2Proof.Machine.Memory
end

