-- ==== Sys2Proof/Laws/PerInstr.lean ====
section
/-! SUPPORT. What holds of every command as syntax, one lemma per constructor. -/

namespace Sys2Proof.Laws.RoundTrip

/-- The command is well formed, and its word decodes to it (R300, R301, R303). -/
def Statement (i : Sys2Proof.Instr) : Prop := i.wf = true ∧ Sys2Proof.decode (Sys2Proof.encode i) = .ok i

theorem permIp : Statement .permIp := ⟨rfl, rfl⟩

theorem permFp : Statement .permFp := ⟨rfl, rfl⟩

theorem permE : Statement .permE := ⟨rfl, rfl⟩

theorem permP : Statement .permP := ⟨rfl, rfl⟩

theorem subst : Statement .subst := ⟨rfl, rfl⟩

theorem fround : Statement .fround := ⟨rfl, rfl⟩

theorem keyDerive : Statement .keyDerive := ⟨rfl, rfl⟩

theorem encBlock : Statement .encBlock := ⟨rfl, rfl⟩

theorem decBlock : Statement .decBlock := ⟨rfl, rfl⟩

theorem pad : Statement .pad := ⟨rfl, rfl⟩

theorem unpad : Statement .unpad := ⟨rfl, rfl⟩

theorem encrypt : Statement .encrypt := ⟨rfl, rfl⟩

theorem decrypt : Statement .decrypt := ⟨rfl, rfl⟩

end Sys2Proof.Laws.RoundTrip
end

