-- ==== Sys2Proof/Laws/Run.lean ====
section
/-! SUPPORT. Runs of a command: chains of steps with BUSY = 1, the path of one block through the datapath (R454 to R458),
and the path of all blocks of a command from KEYGEN to the last PERMUTED_FINAL (R452 to R459). -/

namespace Sys2Proof.Machine

/-! ## Chains of steps -/

/-- n steps lead from s to t, the core being busy before each. -/
inductive BusyRun : Nat → State → State → Prop
  | nil (s) : BusyRun 0 s s
  | cons {n s t u} (hb : s.busy = true) (h : step s = .next t) (p : BusyRun n t u) : BusyRun (n + 1) s u

theorem BusyRun.one {s t} (hb : s.busy = true) (h : step s = .next t) : BusyRun 1 s t := .cons hb h (.nil _)

theorem BusyRun.append {m n s t u} (p : BusyRun m s t) (q : BusyRun n t u) : BusyRun (m + n) s u := by
  induction p with
  | nil => simpa using q
  | cons hb h _ ih => rw [Nat.succ_add]; exact .cons hb h (ih q)

theorem BusyRun.runs {n s t} (p : BusyRun n s t) : Runs n s t := by
  induction p with
  | nil s => exact (runs_zero s s).2 rfl
  | cons hb h _ ih => exact (runs_succ _ _ _).2 ⟨_, h, ih⟩

theorem BusyRun.busyBefore {n s t} (p : BusyRun n s t) (k : Nat) (hk : k < n) : ∃ u, Runs k s u ∧ u.busy = true := by
  induction p generalizing k with
  | nil => omega
  | cons hb h _ ih =>
    cases k with
    | zero => exact ⟨_, (runs_zero _ _).2 rfl, hb⟩
    | succ k =>
      obtain ⟨u, hu, hb'⟩ := ih k (by omega)
      exact ⟨u, (runs_succ _ _ _).2 ⟨_, h, hu⟩, hb'⟩

/-- A chain that reaches an idle core is a whole command: its step count is exact. -/
theorem BusyRun.ends {n s t} (p : BusyRun n s t) (h : t.busy = false) : EndsAfter n s t := ⟨p.runs, h, p.busyBefore⟩

theorem currentCommand_of_op (s : State) (hp : s.phase ≠ .accepted) : currentCommand s = decodeOpcode s.op := by
  cases h : s.phase <;> simp_all [currentCommand]

theorem decodeOpcode_of_decode (w : Word) (i : Instr) (h : decode w = .ok i) : decodeOpcode (opcField w) = some i := by
  unfold decode at h
  split at h
  · split at h
    · cases h; assumption
    · cases h
  · cases h

/-- The first step of an accepted command. -/
theorem JustAccepted.step_eq {i s} (h : JustAccepted i s) : step s = exec i s := by
  rw [step_noEvents s h.events, sequencerStep_busy s i h.busy (by simp [currentCommand, h.phase, h.word])]

/-- The command i is past ACCEPTED and the sequencer has every turn. -/
structure Past (i : Instr) (s : State) : Prop where
  busy   : s.busy = true
  events : s.events = []
  phase  : s.phase ≠ .accepted
  op     : decodeOpcode s.op = some i

theorem Past.step_eq {i s} (h : Past i s) : step s = exec i s := by
  rw [step_noEvents s h.events, sequencerStep_busy s i h.busy (by rw [currentCommand_of_op s h.phase, h.op])]

theorem Past.run {i s t} (h : Past i s) (hx : exec i s = .next t) : BusyRun 1 s t := .one h.busy (h.step_eq.trans hx)

theorem HostStateKept.trans {s t u : State} (h : HostStateKept s t) (h' : HostStateKept t u) : HostStateKept s u :=
  ⟨h'.cfg.trans h.cfg, h'.cmdword.trans h.cmdword, h'.irqEn.trans h.irqEn, h'.werr.trans h.werr,
    h'.keyLen.trans h.keyLen, h'.inLen.trans h.inLen, h'.key.trans h.key, h'.ibuf.trans h.ibuf,
    h'.events.trans h.events, h'.response.trans h.response⟩

/-! ## One block -/

/-- The state after the rounds 0 to k (R455, R456). -/
def afterRounds (dir : Direction) (k : Nat) (s : State) : State :=
  { s with
    left := (feistelRounds s.cfg (keyAt dir s.rk) (k + 1) (s.left, s.right)).1
    right := (feistelRounds s.cfg (keyAt dir s.rk) (k + 1) (s.left, s.right)).2
    round := BitVec.ofNat 4 k
    phase := .round }

/-- The steps out of PERMUTED_INITIAL and ROUND, up to ROUND = k. -/
theorem rounds_run {i : Instr} {job : BlockJob} {s : State} (h : Past i s) (hj : jobOf i s = some job)
    (hp : s.phase = .permutedInitial) (k : Nat) (hk : k < 16) : BusyRun (k + 1) s (afterRounds job.dir k s) := by
  induction k with
  | zero =>
    refine h.run ?_
    rw [exec_block i s job hj (by simp [hp, Phase.inBlock])]
    simp [blockStep, hp, runRound, afterRounds, feistelRounds, feistelRound]
  | succ k ih =>
    refine (ih (by omega)).append ?_
    have hu : Past i (afterRounds job.dir k s) := ⟨h.busy, h.events, by simp [afterRounds], h.op⟩
    have hr : (afterRounds job.dir k s).round.toNat = k := by simp [afterRounds]; omega
    refine hu.run ?_
    rw [exec_block i _ job (by cases i <;> exact hj) (by simp [afterRounds, Phase.inBlock])]
    simp only [blockStep, show (afterRounds job.dir k s).phase = .round from rfl, roundStep, hr]
    rw [if_pos (by omega)]
    simp [runRound, afterRounds, feistelRounds, feistelRound]

/-- The state after the block in X has gone through the datapath (R454 to R458), but for the half registers. -/
def afterBlock (dir : Direction) (left right : BitVec 32) (s : State) : State :=
  { s with
    left := left
    right := right
    x := blockBits s.cfg (keyAt dir s.rk) s.x
    phase := .permutedFinal
    obuf := s.obuf.write (8 * s.blk.toNat) (bytes (blockBits s.cfg (keyAt dir s.rk) s.x)) }

/-- The 19 steps from RAW to PERMUTED_FINAL compute the block transform (R450). -/
theorem block_run {i : Instr} {job : BlockJob} {s : State} (h : Past i s) (hj : jobOf i s = some job)
    (hp : s.phase = .raw) (hr : s.round = 0) : ∃ l r, BusyRun 19 s (afterBlock job.dir l r s) := by
  have p1 : BusyRun 1 s (rawStep s) :=
    h.run (by rw [exec_block i s job hj (by simp [hp, Phase.inBlock])]; simp [blockStep, hp])
  have h1 : Past i (rawStep s) := ⟨h.busy, h.events, by simp [rawStep], h.op⟩
  have p2 := rounds_run h1 (by cases i <;> exact hj) rfl 15 (by omega)
  generalize hu : afterRounds job.dir 15 (rawStep s) = u at p2
  have h2 : Past i u := by subst hu; exact ⟨h.busy, h.events, by simp [afterRounds], h.op⟩
  have hj2 : jobOf i u = some job := by subst hu; cases i <;> exact hj
  have hp2 : u.phase = .round := by subst hu; rfl
  have p3 : BusyRun 1 u (swapStep u) := h2.run (by
    rw [exec_block i u job hj2 (by simp [hp2, Phase.inBlock])]
    simp [blockStep, hp2, roundStep, show u.round.toNat = 15 by subst hu; rfl])
  have h3 : Past i (swapStep u) := ⟨h2.busy, h2.events, by simp [swapStep], h2.op⟩
  have p4 : BusyRun 1 (swapStep u) (swappedStep (swapStep u)) := h3.run (by
    rw [exec_block i _ job (by cases i <;> exact hj2) (by simp [swapStep, Phase.inBlock])]
    simp [blockStep, swapStep])
  have e : swappedStep (swapStep u) = afterBlock job.dir u.left u.right s := by
    subst hu
    simp only [swappedStep, swapStep, memWriteObuf, rawStep, blockBits, halves, afterRounds, afterBlock]
    rw [hr]
  exact ⟨u.left, u.right, e ▸ ((p1.append p2).append p3).append p4⟩

/-! ## All the blocks of a command -/

@[simp] theorem block_length (c : Config) (k : Nat → BitVec 48) (b : List Byte) : (block c k b).length = 8 := by
  simp [block]

theorem blocks_succ (c : Config) (k : Nat → BitVec 48) (m : List Byte) (n : Nat) :
    blocks c k m (n + 1) = blocks c k m n ++ block c k ((m.drop (8 * n)).take 8) := by
  simp [blocks, List.range_succ, List.flatMap_append]

@[simp] theorem blocks_length (c : Config) (k : Nat → BitVec 48) (m : List Byte) (n : Nat) :
    (blocks c k m n).length = 8 * n := by
  induction n with
  | zero => rfl
  | succ n ih => rw [blocks_succ, List.length_append, ih, block_length]; omega

/-- Writing the next output block after the outputs of the blocks before it. -/
theorem get?_write_block (c : Config) (k : Nat → BitVec 48) (m : List Byte) (o : Memory) (b : Nat)
    (ho : ∀ a, a < 8 * b → Memory.get? o a = (blocks c k m b)[a]?) (a : Nat) :
    Memory.get? (o.write (8 * b) (block c k ((m.drop (8 * b)).take 8))) a =
      if a < 8 * (b + 1) then (blocks c k m (b + 1))[a]? else Memory.get? o a := by
  rw [Memory.get?_write, block_length, blocks_succ]
  by_cases h1 : a < 8 * b
  · rw [if_neg (by omega), if_pos (by omega), ho a h1, List.getElem?_append_left (by rwa [blocks_length])]
  · by_cases h2 : a < 8 * (b + 1)
    · rw [if_pos (by omega), if_pos h2, List.getElem?_append_right (by rw [blocks_length]; omega), blocks_length]
    · rw [if_neg (by omega), if_neg h2]

/-- A read of 8 bytes of a buffer does not see a write below them. -/
theorem read_write_below (m : Memory) (a b d : Nat) (bs : List Byte) (h : a + bs.length ≤ b) :
    (m.write a bs).read b 8 d = m.read b 8 d := by
  apply List.ext_getElem?
  intro t
  rw [Memory.read_getElem?, Memory.read_getElem?]
  split
  · rw [Memory.get?_write_other _ _ _ _ (.inr (by omega))]
  · rfl

/-- Block j of a long read is the read of 8 bytes with as many draws before it. -/
theorem read_block (m : Memory) (n d j : Nat) (hj : j < n) :
    m.read (8 * j) 8 (d + 8 * j) = ((m.read 0 (8 * n) d).drop (8 * j)).take 8 := by
  apply List.ext_getElem?
  intro t
  rw [Memory.read_getElem?]
  by_cases h : t < 8
  · rw [List.getElem?_take_of_lt h, List.getElem?_drop, Memory.read_getElem?, if_pos h, if_pos (by omega)]
    simp [Nat.add_assoc]
  · rw [if_neg h, List.getElem?_take_eq_none (by omega)]

/-- What holds when the last block of a command reaches PERMUTED_FINAL, m being its blocks' bytes. -/
structure BlocksDone (i : Instr) (job : BlockJob) (m : List Byte) (s t : State) : Prop where
  past  : Past i t
  phase : t.phase = .permutedFinal
  blk   : t.blk.toNat + 1 = job.nblk
  kept  : HostStateKept s t
  rk    : t.rk = s.rk
  obuf  : ∀ a, Memory.get? t.obuf a =
    if a < 8 * job.nblk then (blocks s.cfg (keyAt job.dir s.rk) m job.nblk)[a]? else Memory.get? s.obuf a

/-- From RAW with block b loaded and n blocks still to come, where the outputs of the blocks before b stand in OBUF and
SRC holds the blocks after b. -/
theorem blocks_run_from {i : Instr} {job : BlockJob} (m : List Byte) (n b : Nat) (s : State) (h : Past i s)
    (hj : jobOf i s = some job) (hp : s.phase = .raw) (hr : s.round = 0) (hb : s.blk.toNat = b)
    (hn : b + n + 1 = job.nblk) (hle : job.nblk ≤ 65536) (hx : s.x = bits 64 ((m.drop (8 * b)).take 8))
    (hsrc : ∀ j, b < j → j < job.nblk →
      (s.buffer job.src).read (8 * j) 8 (s.draws + 8 * (j - b - 1)) = (m.drop (8 * j)).take 8)
    (hout : ∀ a, a < 8 * b → Memory.get? s.obuf a = (blocks s.cfg (keyAt job.dir s.rk) m b)[a]?) :
    ∃ t, BusyRun (20 * n + 19) s t ∧ BlocksDone i job m s t := by
  induction n generalizing b s with
  | zero =>
    obtain ⟨l, r, p⟩ := block_run h hj hp hr
    refine ⟨_, p, ⟨h.busy, h.events, by simp [afterBlock], h.op⟩, rfl, by simpa [afterBlock, hb] using hn,
      ⟨rfl, rfl, rfl, rfl, rfl, rfl, rfl, rfl, rfl, rfl⟩, rfl, fun a => ?_⟩
    simp only [afterBlock, hx, hb]
    rw [← hn]
    exact get?_write_block s.cfg _ m s.obuf b hout a
  | succ n ih =>
    obtain ⟨l, r, p⟩ := block_run h hj hp hr
    generalize hu : afterBlock job.dir l r s = u at p
    have h2 : Past i u := by subst hu; exact ⟨h.busy, h.events, by simp [afterBlock], h.op⟩
    have hj2 : jobOf i u = some job := by subst hu; cases i <;> exact hj
    have hp2 : u.phase = .permutedFinal := by subst hu; rfl
    have hb2 : u.blk.toNat = b := by subst hu; exact hb
    have ho2 : u.obuf = s.obuf.write (8 * b) (block s.cfg (keyAt job.dir s.rk) ((m.drop (8 * b)).take 8)) := by
      subst hu; simp only [afterBlock, hx, hb]; rfl
    have p2 : BusyRun 1 u (loadBlock job (b + 1) u) := h2.run (by
      rw [exec_block i u job hj2 (by simp [hp2, Phase.inBlock])]
      simp only [blockStep, hp2, permutedStep, hb2]
      rw [if_pos (by omega)])
    have hsrc2 : ∀ j, b < j → j < job.nblk →
        (u.buffer job.src).read (8 * j) 8 (s.draws + 8 * (j - b - 1)) = (m.drop (8 * j)).take 8 := by
      intro j hj1 hj2
      rw [← hsrc j hj1 hj2]
      cases hjs : job.src with
      | obuf =>
        simp only [State.buffer, ho2]
        exact read_write_below _ _ _ _ _ (by rw [block_length]; omega)
      | ibuf => subst hu; rfl
      | key => subst hu; rfl
    have hd2 : u.draws = s.draws := by subst hu; rfl
    have hc2 : u.cfg = s.cfg := by subst hu; rfl
    have hk2 : u.rk = s.rk := by subst hu; rfl
    obtain ⟨t, q, ht⟩ := ih (b + 1) (loadBlock job (b + 1) u) ⟨h2.busy, h2.events, by simp [loadBlock], h2.op⟩
      (by cases i <;> exact hj2) rfl rfl (by simp [loadBlock]; omega) (by omega)
      (by
        simp only [loadBlock, memRead]
        rw [← hsrc2 (b + 1) (by omega) (by omega), hd2]
        simp)
      (by
        intro j hj1 hj2
        show Memory.read (State.buffer _ _) _ _ (u.draws + 8 + _) = _
        rw [hd2, show s.draws + 8 + 8 * (j - (b + 1) - 1) = s.draws + 8 * (j - b - 1) by omega,
          ← hsrc2 j (by omega) hj2]
        cases job.src <;> rfl)
      (by
        intro a ha
        show Memory.get? u.obuf a = (blocks u.cfg (keyAt job.dir u.rk) m (b + 1))[a]?
        rw [ho2, hc2, hk2, get?_write_block s.cfg _ m s.obuf b hout a, if_pos ha])
    refine ⟨t, ?_, ht.past, ht.phase, ht.blk, ?_, ht.rk.trans hk2, fun a => ?_⟩
    · rw [show 20 * (n + 1) + 19 = 19 + 1 + (20 * n + 19) by omega]
      exact (p.append p2).append q
    · exact HostStateKept.trans (t := loadBlock job (b + 1) u)
        (by subst hu; exact ⟨rfl, rfl, rfl, rfl, rfl, rfl, rfl, rfl, rfl, rfl⟩) ht.kept
    · rw [ht.obuf a]
      show (if _ then (blocks u.cfg (keyAt job.dir u.rk) m job.nblk)[a]? else Memory.get? u.obuf a) = _
      rw [hc2, hk2]
      split
      · rfl
      · rw [ho2, Memory.get?_write_other _ _ _ _ (.inr (by rw [block_length]; omega))]

/-- From KEYGEN, where SRC holds the blocks of m: 20 steps a block lead to the last PERMUTED_FINAL, with the outputs of
all the blocks in OBUF. -/
theorem blocks_run {i : Instr} {job : BlockJob} (m : List Byte) (s : State) (h : Past i s) (hj : jobOf i s = some job)
    (hp : s.phase = .keygen) (hn : job.nblk ≠ 0) (hle : job.nblk ≤ 65536)
    (hsrc : ∀ j, j < job.nblk →
      (s.buffer job.src).read (8 * j) 8 (s.draws + 8 * j) = (m.drop (8 * j)).take 8) :
    ∃ t, BusyRun (20 * job.nblk) s t ∧ BlocksDone i job m s t := by
  have p1 : BusyRun 1 s (loadBlock job 0 s) := h.run (by
    rw [exec_block i s job hj (.inl hp)]
    simp [blockStep, hp, keygenStep, hn])
  obtain ⟨t, q, ht⟩ := blocks_run_from (job := job) m (job.nblk - 1) 0 (loadBlock job 0 s)
    ⟨h.busy, h.events, by simp [loadBlock], h.op⟩ (by cases i <;> exact hj) rfl rfl rfl (by omega) hle
    (by simp only [loadBlock, memRead]; rw [← hsrc 0 (by omega)]; simp)
    (by
      intro j h1 h2
      rw [← hsrc j h2]
      show Memory.read (State.buffer _ _) _ _ (s.draws + 8 + _) = _
      rw [show s.draws + 8 + 8 * (j - 0 - 1) = s.draws + 8 * j by omega]
      cases job.src <;> rfl)
    (by intro a ha; omega)
  refine ⟨t, ?_, ht.past, ht.phase, ht.blk, ?_, ht.rk, ht.obuf⟩
  · have := p1.append q
    rwa [show 1 + (20 * (job.nblk - 1) + 19) = 20 * job.nblk by omega] at this
  · exact HostStateKept.trans (t := loadBlock job 0 s) ⟨rfl, rfl, rfl, rfl, rfl, rfl, rfl, rfl, rfl, rfl⟩ ht.kept

end Sys2Proof.Machine
end

