-- ==== Sys2Proof/Tests/Slice0.lean ====
section
/-! SUPPORT. Tests against the vectors of spec/95_test_vectors.md and words written out from R300 and R301, and for every
obligation with hypotheses a witness that they can be met. -/

namespace Sys2Proof.Tests

open Sys2Proof Sys2Proof.Machine

-- One theorem at a time: each kernel evaluation else waits in a thread of its own.
set_option Elab.async false

/-! ## A configuration and states -/

/-- TESTCFG (95_test_vectors.md §2.1) at BASE = 0x10000, BUF_BYTES = 1024. -/
def testRaw : RawConfig where
  base     := 0x10000
  bufBytes := 1024
  ip       := (List.range 64).map fun i => 64 - i
  fp       := (List.range 64).map fun i => 64 - i
  e        := (List.range 48).map fun j => j % 32 + 1
  p        := (List.range 32).map fun i => 32 - i
  sbox     := (List.range 8).map fun g => (List.range 4).map fun r => (List.range 16).map fun c => (c + 4 * r + g) % 16

theorem test_testcfg_wellFormed : testRaw.wf = true := by decide +kernel

def testCfg : Config := ⟨testRaw, test_testcfg_wellFormed⟩

/-- The core right after a hardware reset, with the parameters of TESTCFG. -/
def fresh : State := State.afterReset testCfg 0 []

/-- The core that has just accepted the word w, with this input, this key, and the sequencer having every turn. -/
def accepted (w : Word) (input key : List Byte) : State :=
  { fresh with
    ibuf := Memory.cells 0 input, inLen := BitVec.ofNat 32 input.length
    key := Memory.cells 0 key, keyLen := BitVec.ofNat 32 key.length
    op := opcField w, cmdword := w, busy := true, phase := .accepted }

/-- The core in the middle of the command with this OPC. -/
def midway (opc : BitVec 8) (p : Phase) (input key : List Byte) : State :=
  { accepted (0#24 ++ opc) input key with phase := p }

/-- A property of the next state; false of a fault or a refusal. -/
def nextHas (o : Host.Outcome State Fault Refusal) (f : State → Bool) : Bool :=
  match o with
  | .next t => f t
  | .fault _ => false
  | .refused _ => false

/-- The command ended well with exactly these output bytes. -/
def ended (out : List Byte) (t : State) : Bool :=
  !t.busy && t.done && !t.err && t.phase == .idle && t.outLen == BitVec.ofNat 32 out.length &&
    t.obuf == Memory.cells 0 out

/-- The command ended with this STATUS word and no output. -/
def failedWith (status : Word) (t : State) : Bool :=
  statusWord t == status && t.outLen == 0 && t.obuf.isEmpty

/-- "HELLO" and the key "A1B2C3D4" (scenario S1). -/
def hello : List Byte := [0x48, 0x45, 0x4C, 0x4C, 0x4F]
def helloKey : List Byte := [0x41, 0x31, 0x42, 0x32, 0x43, 0x33, 0x44, 0x34]
def zeros (n : Nat) : List Byte := List.replicate n 0

/-! ## Checks of configurations and accesses: one ill-formed term for each -/

theorem test_refuses_unaligned_base : (Config.ofRaw? { testRaw with base := 0x10004 }).isNone = true := by
  decide +kernel
theorem test_refuses_small_buffer : RawConfig.bufBytesOk { testRaw with bufBytes := 88 } = false := by decide +kernel
theorem test_refuses_large_buffer : RawConfig.bufBytesOk { testRaw with bufBytes := 4096 } = false := by
  decide +kernel
theorem test_refuses_odd_buffer : RawConfig.bufBytesOk { testRaw with bufBytes := 100 } = false := by decide +kernel
theorem test_refuses_short_table : RawConfig.lengthsOk { testRaw with e := (List.range 47).map (· % 32 + 1) } = false := by
  decide +kernel
theorem test_refuses_entry_zero : RawConfig.rangesOk { testRaw with e := (List.range 48).map (· % 32) } = false := by
  decide +kernel
theorem test_refuses_entry_too_large :
    RawConfig.rangesOk { testRaw with p := (List.range 32).map (· + 2) } = false := by decide +kernel
theorem test_refuses_repeated_entry :
    RawConfig.bijectionsOk { testRaw with p := List.replicate 32 1 } = false := by decide +kernel
theorem test_refuses_wrong_inverse :
    RawConfig.inverseOk { testRaw with fp := (List.range 64).map (· + 1) } = false := by decide +kernel
theorem test_refuses_large_sbox_entry :
    RawConfig.sboxOk { testRaw with sbox := List.replicate 8 (List.replicate 4 (List.replicate 16 16)) } = false := by
  decide +kernel
theorem test_refuses_seven_sboxes :
    RawConfig.sboxOk { testRaw with sbox := testRaw.sbox.take 7 } = false := by decide +kernel
/-- R415: an expansion table may repeat entries and may omit positions. -/
theorem test_accepts_repeating_expansion : RawConfig.wf { testRaw with e := List.replicate 48 7 } = true := by
  decide +kernel
theorem test_refuses_access_below_window : Transaction.wf 0x10000 (.read 0xFFFC 4) = false := by decide
theorem test_refuses_access_above_window : Transaction.wf 0x10000 (.write 0x14000 4 0) = false := by decide
theorem test_refuses_narrow_access : Transaction.wf 0x10000 (.read 0x10000 2) = false := by decide
theorem test_refuses_unaligned_access : Transaction.wf 0x10000 (.write 0x10002 4 0) = false := by decide
theorem test_accepts_last_word : Transaction.wf 0x10000 (.read 0x13FFC 4) = true := by decide

/-! ## Decoding: words written out bit by bit from R300 (RSV in 31:8, OPC in 7:0) and R301 -/

theorem test_decode_permIp : decode 0b00000000000000000000000000010000#32 = .ok .permIp := by decide
theorem test_decode_permFp : decode 0b00000000000000000000000000010001#32 = .ok .permFp := by decide
theorem test_decode_permE : decode 0b00000000000000000000000000010010#32 = .ok .permE := by decide
theorem test_decode_permP : decode 0b00000000000000000000000000010011#32 = .ok .permP := by decide
theorem test_decode_subst : decode 0b00000000000000000000000000010100#32 = .ok .subst := by decide
theorem test_decode_fround : decode 0b00000000000000000000000000010101#32 = .ok .fround := by decide
theorem test_decode_keyDerive : decode 0b00000000000000000000000000100000#32 = .ok .keyDerive := by decide
theorem test_decode_encBlock : decode 0b00000000000000000000000000100001#32 = .ok .encBlock := by decide
theorem test_decode_decBlock : decode 0b00000000000000000000000000100010#32 = .ok .decBlock := by decide
theorem test_decode_pad : decode 0b00000000000000000000000000110000#32 = .ok .pad := by decide
theorem test_decode_unpad : decode 0b00000000000000000000000000110001#32 = .ok .unpad := by decide
theorem test_decode_encrypt : decode 0b00000000000000000000000000110010#32 = .ok .encrypt := by decide
theorem test_decode_decrypt : decode 0b00000000000000000000000000110011#32 = .ok .decrypt := by decide
theorem test_decode_unassigned :
    decode 0x00#32 = .error .unassignedOpcode ∧ decode 0x16#32 = .error .unassignedOpcode ∧
    decode 0x34#32 = .error .unassignedOpcode ∧ decode 0xFF#32 = .error .unassignedOpcode := by decide
theorem test_decode_reservedBits :
    decode 0x00000121#32 = .error .reservedBitsSet ∧ decode 0x80000032#32 = .error .reservedBitsSet := by decide
theorem test_encode_decrypt : encode .decrypt = 0b00000000000000000000000000110011#32 := by decide
theorem test_decodeTableWord : decodeTableWord 32 0x22 = some .decBlock ∧ decodeTableWord 32 0x122 = none := by decide

/-! ## The codec (§3.1) and the datapath primitives (§3.2, §4) -/

theorem test_codec_bits : bits 16 [0x01, 0x23] = 0b0000000100100011#16 := by decide
theorem test_codec_bytes : bytes (0b10100101#8) = [0xA5] := by decide
theorem test_codec_width : bitsToBytes? (0b101#3) = none := by decide

theorem test_permIp : nextHas (step (accepted 0x10 [0x01, 0x23, 0x45, 0x67, 0x89, 0xAB, 0xCD, 0xEF] []))
    (ended [0xF7, 0xB3, 0xD5, 0x91, 0xE6, 0xA2, 0xC4, 0x80]) = true := by decide +kernel
theorem test_permIp_badLength : nextHas (step (accepted 0x10 (zeros 7) [])) (failedWith 0x14) = true := by
  decide +kernel
theorem test_permFp : nextHas (step (accepted 0x11 [0x80, 0, 0, 0, 0, 0, 0, 0] []))
    (ended [0, 0, 0, 0, 0, 0, 0, 0x01]) = true := by decide +kernel
theorem test_permFp_badLength : nextHas (step (accepted 0x11 (zeros 9) [])) (failedWith 0x14) = true := by
  decide +kernel
theorem test_permE : nextHas (step (accepted 0x12 [0x01, 0x23, 0x45, 0x67] []))
    (ended [0x01, 0x23, 0x45, 0x67, 0x01, 0x23]) = true := by decide +kernel
theorem test_permE_badLength : nextHas (step (accepted 0x12 (zeros 5) [])) (failedWith 0x14) = true := by
  decide +kernel
theorem test_permP : nextHas (step (accepted 0x13 [0x01, 0x23, 0x45, 0x67] []))
    (ended [0xE6, 0xA2, 0xC4, 0x80]) = true := by decide +kernel
theorem test_permP_badLength : nextHas (step (accepted 0x13 (zeros 3) [])) (failedWith 0x14) = true := by
  decide +kernel
theorem test_subst : nextHas (step (accepted 0x14 [0x01, 0x23, 0x45, 0x67, 0x89, 0xAB] []))
    (ended [0x0A, 0xC9, 0x49, 0x18]) = true := by decide +kernel
/-- Group 0 = 011111 has row 1 and column 15, group 1 = 100000 row 2 and column 0 (§4.1). -/
theorem test_subst_rowAndColumn : nextHas (step (accepted 0x14 [0x7E, 0, 0, 0, 0, 0] []))
    (ended [0x39, 0x23, 0x45, 0x67]) = true := by decide +kernel
theorem test_fround : nextHas (step (accepted 0x15 [0x12, 0x34, 0x56, 0x78, 0x41, 0x31, 0x42, 0x32, 0x43, 0x33] []))
    (ended [0x71, 0xCB, 0xB3, 0x85]) = true := by decide +kernel
theorem test_fround_badLength : nextHas (step (accepted 0x15 (zeros 8) [])) (failedWith 0x14) = true := by
  decide +kernel

/-! ## Keys and blocks (§5, §6) -/

/-- K3: the key "abc" with KEY_LEN = 3; RK[10] = 89 8C 00 00 00 01 (zero extension and the wrap). -/
theorem test_keyDerive_first : nextHas (step (accepted 0x20 [] [0x61, 0x62, 0x63]))
    (fun t => t.phase == .keygen && t.rk.getD 0 0 == 0x616263000000 && t.rk.getD 10 0 == 0x898C00000001) = true := by
  decide +kernel
/-- K1: OBUF[6..11] of KEY_DERIVE is RK[1] = 82 62 84 64 86 66. -/
theorem test_keyDerive_second :
    nextHas (step { midway 0x20 .keygen [] helloKey with rk := deriveKeys (normalizeKey helloKey) })
      (fun t => t.outLen == 96 && t.done && (t.obuf.map Prod.snd).length == 96 &&
        ((t.obuf.map Prod.snd).drop 6).take 6 == [0x82, 0x62, 0x84, 0x64, 0x86, 0x66]) = true := by decide +kernel

/-- The round trace of §6.1: round 0 of the S1 block. -/
theorem test_encBlock_round0 :
    nextHas (step { midway 0x21 .permutedInitial hello helloKey with
      rk := deriveKeys (normalizeKey helloKey), left := 0xC0C0C0F2, right := 0x3232A212 })
      (fun t => t.left == 0x3232A212 && t.right == 0x11F11B75 && t.phase == .round && t.round == 0) = true := by
  decide +kernel
/-- The round trace of §6.1: round 15, then R457 and R458 as in the hand check. -/
theorem test_encBlock_round15 :
    nextHas (step { midway 0x21 .round hello helloKey with
      rk := deriveKeys (normalizeKey helloKey), left := 0xE19B908F, right := 0xEF668637, round := 14 })
      (fun t => t.left == 0xEF668637 && t.right == 0xB261D984 && t.phase == .round && t.round == 15) = true := by
  decide +kernel
/-- The reverse order: round 0 of DEC_BLOCK uses RK[15]; on the swapped halves it undoes round 15 of the trace. -/
theorem test_decBlock_round0 :
    nextHas (step { midway 0x22 .permutedInitial hello helloKey with
      rk := deriveKeys (normalizeKey helloKey), left := 0xB261D984, right := 0xEF668637 })
      (fun t => t.left == 0xEF668637 && t.right == 0xE19B908F) = true := by decide +kernel
/-- The hand check of §6.1: FP of X, written to OBUF[0..7]. -/
theorem test_decBlock_finalPermutation :
    nextHas (step { midway 0x22 .swappedFinal hello helloKey with x := 0xB261D984EF668637 })
      (fun t => t.phase == .permutedFinal &&
        t.obuf.map Prod.snd == [0xEC, 0x61, 0x66, 0xF7, 0x21, 0x9B, 0x86, 0x4D]) = true := by decide +kernel
/-- §6.2, the key "A1B2C3D4": the whole transform. -/
theorem test_block_hello :
    block testCfg (keyAt .forward (deriveKeys (normalizeKey helloKey))) [0x48, 0x45, 0x4C, 0x4C, 0x4F, 3, 3, 3] =
      [0xEC, 0x61, 0x66, 0xF7, 0x21, 0x9B, 0x86, 0x4D] := by decide +kernel

/-! ## Padding and messages (§7, §8) -/

theorem test_pad : nextHas (step (accepted 0x30 hello [])) (ended [0x48, 0x45, 0x4C, 0x4C, 0x4F, 3, 3, 3]) = true := by
  decide +kernel
theorem test_pad_full : nextHas (step (accepted 0x30 [] [])) (ended [8, 8, 8, 8, 8, 8, 8, 8]) = true := by
  decide +kernel
/-- Only the last byte is checked (§7.2, second row). -/
theorem test_unpad : nextHas (step (accepted 0x31 [1, 2, 3, 4, 5, 6, 7, 3] [])) (ended [1, 2, 3, 4, 5]) = true := by
  decide +kernel
theorem test_unpad_padding : nextHas (step (accepted 0x31 [0x02, 0x05] [])) (failedWith 0x34) = true := by
  decide +kernel
theorem test_encrypt_pads : nextHas (step (accepted 0x32 hello helloKey))
    (fun t => t.phase == .padded && t.busy && t.obuf == Memory.cells 0 [0x48, 0x45, 0x4C, 0x4C, 0x4F, 3, 3, 3]) = true := by
  decide +kernel
/-- §8.1, "0123456789". -/
theorem test_encrypt_bytes :
    encryptBytes testCfg helloKey [0x30, 0x31, 0x32, 0x33, 0x34, 0x35, 0x36, 0x37, 0x38, 0x39] =
      [0xA1, 0xBC, 0xB4, 0x12, 0xB0, 0x97, 0xF5, 0xFF, 0x92, 0xB3, 0x4B, 0xB9, 0xE6, 0xE0, 0xAC, 0xB9] := by
  decide +kernel
theorem test_decrypt_badLength : nextHas (step (accepted 0x33 (zeros 5) helloKey)) (failedWith 0x24) = true := by
  decide +kernel
/-- §8.2: the wrong key "B1B2C3D4" meets a last byte above 8. -/
theorem test_decrypt_wrongKey :
    decryptBytes testCfg [0x42, 0x31, 0x42, 0x32, 0x43, 0x33, 0x44, 0x34]
      [0xEC, 0x61, 0x66, 0xF7, 0x21, 0x9B, 0x86, 0x4D] = none ∧
    decryptBytes testCfg helloKey [0xEC, 0x61, 0x66, 0xF7, 0x21, 0x9B, 0x86, 0x4D] = some hello := by decide +kernel
theorem test_decrypt_lengthRange :
    nextHas (step { accepted 0x33 [] helloKey with inLen := 1028 }) (failedWith 0x54) = true := by decide +kernel
theorem test_illegal_word : nextHas (step (accepted 0x121 hello [])) (failedWith 0x44) = true := by decide +kernel

/-! ## The bus, resets and the interrupt (§9) -/

theorem test_read_id : nextHas (stepRead 0x000 fresh) (fun t => t.response == .data 0x46430107) = true := by
  decide +kernel
theorem test_read_param : nextHas (stepRead 0x01C fresh) (fun t => t.response == .data 0x400) = true := by
  decide +kernel
theorem test_read_reserved : nextHas (stepRead 0x3000 fresh) (fun t => t.response == .data 0) = true := by
  decide +kernel
theorem test_status_accepted : nextHas (stepWrite 0x00C 0x32 fresh) (fun t => statusWord t == 0x101) = true := by
  decide +kernel
/-- R100: acceptance latches OP, of an illegal word too. -/
theorem test_accept_latches_op :
    nextHas (stepWrite 0x00C 0x32 fresh) (fun t => t.op == 0x32 && t.cmdword == 0x32) = true ∧
    nextHas (stepWrite 0x00C 0x1FF fresh) (fun t => t.op == 0xFF && t.busy) = true := by decide +kernel
/-- §9.2, STATUS = 0x5601 and the dropped write of KEY_LEN. -/
theorem test_dropped_write :
    statusWord { midway 0x32 .round hello helloKey with round := 5 } = 0x5601 ∧
    nextHas (stepWrite 0x010 3 { midway 0x32 .round hello helloKey with round := 5 })
      (fun t => statusWord t == 0x5609 && t.keyLen == 8) = true := by decide +kernel
/-- §9.2, the soft reset: KEY0 and IBUF+0 survive as words. -/
theorem test_soft_reset :
    nextHas (stepWrite 0x004 3 (midway 0x32 .round hello helloKey)) (fun t =>
      statusWord t == 0 && ctrlWord t == 0 && t.keyLen == 0 && readWord (.key 0) t == 0x32423141 &&
        readWord (.ibuf 0) t == 0x4C4C4548) = true := by decide +kernel
/-- R203: the word 0x4C4C4548 at IBUF+0 is IBUF[0..3] = 48 45 4C 4C. -/
theorem test_ibuf_lanes : nextHas (stepWrite 0x1000 0x4C4C4548 fresh)
    (fun t => t.ibuf == Memory.cells 0 [0x48, 0x45, 0x4C, 0x4C]) = true := by decide +kernel
/-- §9.3: setting IRQ_EN with DONE pending raises irq at once; W1C of ERR leaves it, W1C of DONE lowers it. -/
theorem test_interrupt :
    nextHas (stepWrite 0x004 2 { fresh with done := true }) irq = true ∧
    nextHas (stepWrite 0x008 4 { fresh with done := true, irqEn := true }) irq = true ∧
    nextHas (stepWrite 0x008 2 { fresh with done := true, irqEn := true }) (fun t => !irq t && statusWord t == 0) =
      true := by decide +kernel
theorem test_withFetchWord : nextHas (step (State.reset.withFetchWord 32 0x32)) (fun t => t.phase == .padded) = true := by
  decide +kernel

/-! ## Witnesses: the hypotheses of each obligation can be met, each clause at a boundary of its range -/

/-- BUF_BYTES of the test configuration. -/
theorem testCfg_bufBytes : fresh.cfg.bufBytes = 1024 := rfl

/-- A core with IN_LEN = n that has just accepted w. -/
def withLen (w : Word) (n : Nat) : State := { accepted w [] [] with inLen := BitVec.ofNat 32 n }

theorem witness_ParametersNeverChange :
    (∃ t, step fresh = .next t) ∧ (∃ t, step { fresh with events := [.hardwareReset] } = .next t) ∧
    ∃ t, step { fresh with events := [.bus (.write 0x13FFC 4 1)] } = .next t := ⟨⟨_, rfl⟩, ⟨_, rfl⟩, ⟨_, rfl⟩⟩

theorem witness_CodecRoundTrips : 48 % 8 = 0 ∧ 0 % 8 = 0 := by decide

theorem witness_MemRead : 4 < 5 ∧ Memory.get? ((accepted 0x30 hello []).buffer .ibuf) (0 + 4) = some 0x4F := by decide

theorem witness_IllegalWords :
    (accepted 0x121 [] []).busy = true ∧ (accepted 0x121 [] []).phase = .accepted ∧
    decode (accepted 0x121 [] []).cmdword = .error .reservedBitsSet ∧
    decode (accepted 0x34 [] []).cmdword = .error .unassignedOpcode := by decide

/-- The bounds of each range of OPC values that R302 reserves. -/
theorem witness_IllegalWords_ranges :
    decode 0x0F = .error .unassignedOpcode ∧ decode 0x16 = .error .unassignedOpcode ∧
    decode 0x1F = .error .unassignedOpcode ∧ decode 0x23 = .error .unassignedOpcode ∧
    decode 0x2F = .error .unassignedOpcode ∧ decode 0x34 = .error .unassignedOpcode := by decide

theorem witness_StepRunsDecodedCommand :
    ((accepted 0x33 [] []).busy = true ∧ (accepted 0x33 [] []).phase = .accepted ∧
      decode (accepted 0x33 [] []).cmdword = .ok .decrypt ∧ (accepted 0x33 [] []).events = []) ∧
    ((midway 0x21 .raw [] []).busy = true ∧ (midway 0x21 .raw [] []).phase ≠ .accepted ∧
      decodeOpcode (midway 0x21 .raw [] []).op = some .encBlock) := by decide

theorem witness_IdleCoreTakesNoStep : fresh.busy = false ∧ State.reset.busy = false := ⟨rfl, rfl⟩

theorem witness_PermutationCommands :
    (withLen 0x10 8).phase = .accepted ∧ (withLen 0x10 8).inLen.toNat = 8 ∧ (withLen 0x11 8).inLen.toNat = 8 ∧
    (withLen 0x12 4).inLen.toNat = 4 ∧ (withLen 0x13 4).inLen.toNat = 4 := by decide

theorem witness_Subst : (withLen 0x14 6).phase = .accepted ∧ (withLen 0x14 6).inLen.toNat = 6 := by decide

theorem witness_Fround : (withLen 0x15 10).phase = .accepted ∧ (withLen 0x15 10).inLen.toNat = 10 := by decide

theorem witness_KeyDerive : (accepted 0x20 [] helloKey).phase = .accepted ∧ 15 < 16 ∧ 47 < 48 := by decide

theorem witness_KeyScheduleProperties :
    helloKey.length = 8 ∧ (zeros 8).length = 8 ∧ zeros 8 = List.replicate 8 0 ∧
    (helloKey.take 7 ++ [0x35]).take 7 = helloKey.take 7 ∧
    ((normalizeKey (helloKey.take 7 ++ [0x35])).take 7 = (normalizeKey helloKey).take 7) ∧
    (55 + 56 - 15) % 56 ≤ 47 ∧ (0 + 56 - 9) % 56 ≤ 47 ∧ 47 < 48 - 0 ∧ 32 < 48 - 15 := by decide

theorem witness_OnlyKeygenWritesRoundKeys :
    (∃ t, exec .encBlock (withLen 0x21 8) = .next t ∧ t.phase = .keygen) ∧
    (∃ t, exec .encrypt (midway 0x32 .padded [] []) = .next t ∧ t.phase = .keygen) :=
  ⟨⟨_, rfl, rfl⟩, ⟨_, rfl, rfl⟩⟩

theorem witness_KeyedCommandsDeriveAtAccepted :
    (withLen 0x20 7).phase = .accepted ∧ (withLen 0x21 8).inLen.toNat = 8 ∧
    (withLen 0x33 1024).inLen.toNat ≤ fresh.cfg.bufBytes ∧ (withLen 0x33 1024).inLen.toNat % 8 = 0 ∧
    (withLen 0x33 0).inLen.toNat % 8 = 0 := by
  rw [testCfg_bufBytes]; decide

/-- A DECRYPT of n blocks at phase p. -/
def decrypting (p : Phase) (n : Nat) : State := { midway 0x33 p [] [] with inLen := BitVec.ofNat 32 (8 * n) }

theorem witness_KeygenStepLoadsFirstBlock :
    jobOf .decrypt (decrypting .keygen 0) = some { src := .ibuf, nblk := 0, dir := .reverse } ∧
    jobOf .encrypt (midway 0x32 .keygen [] []) = some { src := .obuf, nblk := 1, dir := .forward } ∧
    (decrypting .keygen 0).phase = .keygen := by decide

theorem witness_RawStep :
    jobOf .encBlock (midway 0x21 .raw [] []) = some { src := .ibuf, nblk := 1, dir := .forward } ∧
    (midway 0x21 .raw [] []).phase = .raw := by decide

theorem witness_RoundSteps :
    jobOf .decBlock (midway 0x22 .permutedInitial [] []) = some { src := .ibuf, nblk := 1, dir := .reverse } ∧
    (midway 0x22 .permutedInitial [] []).phase = .permutedInitial ∧
    (midway 0x22 .round [] []).phase = .round ∧ (midway 0x22 .round [] []).round.toNat < 15 ∧
    ({ midway 0x22 .round [] [] with round := 14 } : State).round.toNat < 15 ∧
    ({ midway 0x22 .round [] [] with round := 15 } : State).round.toNat = 15 := by decide

theorem witness_SwappedFinalStep :
    jobOf .encrypt (midway 0x32 .swappedFinal [] []) = some { src := .obuf, nblk := 1, dir := .forward } ∧
    (midway 0x32 .swappedFinal [] []).phase = .swappedFinal := by decide

theorem witness_PermutedFinalStep :
    jobOf .decrypt (decrypting .permutedFinal 2) = some { src := .ibuf, nblk := 2, dir := .reverse } ∧
    (decrypting .permutedFinal 2).blk.toNat + 1 < 2 ∧ 1 ≤ (decrypting .permutedFinal 1).blk.toNat + 1 ∧
    jobOf .decBlock (midway 0x22 .permutedFinal [] []) = some { src := .ibuf, nblk := 1, dir := .reverse } := by decide

/-- A core that has just accepted a legal word meets JustAccepted. -/
theorem justAccepted (w : Word) (i : Instr) (input key : List Byte) (h : decode w = .ok i) :
    JustAccepted i (accepted w input key) := ⟨rfl, rfl, h, rfl⟩

theorem witness_BlockCommands :
    JustAccepted .encBlock (accepted 0x21 (zeros 8) helloKey) ∧ JustAccepted .decBlock (accepted 0x22 (zeros 8) []) ∧
    (accepted 0x21 (zeros 8) helloKey).inLen.toNat = 8 ∧ (accepted 0x22 (zeros 8) []).inLen.toNat = 8 :=
  ⟨justAccepted _ _ _ _ rfl, justAccepted _ _ _ _ rfl, by decide, by decide⟩

theorem witness_ReverseBlock : (zeros 8).length = 8 ∧ helloKey.length = 8 ∧ zeros 8 ≠ helloKey := by decide

theorem witness_PadAppends :
    (withLen 0x30 0).phase = .accepted ∧ (withLen 0x30 0).inLen.toNat ≤ fresh.cfg.bufBytes ∧
    (withLen 0x30 1024).inLen.toNat ≤ fresh.cfg.bufBytes ∧ 8 = 8 - (withLen 0x30 1024).inLen.toNat % 8 ∧
    1 = 8 - (withLen 0x30 1023).inLen.toNat % 8 := by
  rw [testCfg_bufBytes]; decide

theorem witness_UnpadDrops :
    (withLen 0x31 0).inLen.toNat ≤ fresh.cfg.bufBytes ∧ (withLen 0x31 1024).inLen.toNat ≤ fresh.cfg.bufBytes ∧
    (accepted 0x31 [1, 2, 3, 4, 5, 6, 7, 8] []).phase = .accepted ∧
    8 = ((Memory.read (accepted 0x31 [1, 2, 3, 4, 5, 6, 7, 8] []).ibuf 0 8 21).getD 7 0).toNat ∧
    9 = ((Memory.read (accepted 0x31 [9] []).ibuf 0 1 21).getD 0 0).toNat ∧
    0 = ((Memory.read (accepted 0x31 [0] []).ibuf 0 1 21).getD 0 0).toNat := by
  rw [testCfg_bufBytes]; decide +kernel

theorem witness_EncryptPadsThenDerives :
    (withLen 0x32 1024).phase = .accepted ∧ (withLen 0x32 1024).inLen.toNat ≤ fresh.cfg.bufBytes ∧
    (withLen 0x32 0).inLen.toNat ≤ fresh.cfg.bufBytes ∧ (midway 0x32 .padded [] []).phase = .padded := by
  rw [testCfg_bufBytes]; decide

theorem witness_EncryptComputesEncryption :
    JustAccepted .encrypt (withLen 0x32 0) ∧ JustAccepted .encrypt (withLen 0x32 1024) ∧
    (withLen 0x32 1024).inLen.toNat ≤ fresh.cfg.bufBytes :=
  ⟨⟨rfl, rfl, rfl, rfl⟩, ⟨rfl, rfl, rfl, rfl⟩, by rw [testCfg_bufBytes]; decide⟩

theorem witness_DecryptComputesDecryption :
    JustAccepted .decrypt (withLen 0x33 0) ∧ JustAccepted .decrypt (withLen 0x33 1024) ∧
    (withLen 0x33 1024).inLen.toNat ≤ fresh.cfg.bufBytes ∧ (withLen 0x33 1024).inLen.toNat % 8 = 0 :=
  ⟨⟨rfl, rfl, rfl, rfl⟩, ⟨rfl, rfl, rfl, rfl⟩, by rw [testCfg_bufBytes]; decide, by decide⟩

/-- The core before ENCRYPT on "HELLO". -/
def encryptingHello : State := accepted 0x32 hello helloKey

/-- The core that has accepted DECRYPT with the output of t as its input. -/
def decryptingOutput (t : State) : State :=
  { accepted 0x33 [] helloKey with inLen := t.outLen, ibuf := t.obuf }

theorem witness_EncryptThenDecrypt :
    JustAccepted .encrypt encryptingHello ∧ encryptingHello.inLen.toNat + 8 ≤ fresh.cfg.bufBytes ∧
    (withLen 0x32 1016).inLen.toNat + 8 ≤ fresh.cfg.bufBytes ∧
    Written encryptingHello.ibuf 0 encryptingHello.inLen.toNat ∧
    Written encryptingHello.key 0 (min encryptingHello.keyLen.toNat 8) ∧
    ∀ t : State, JustAccepted .decrypt (decryptingOutput t) ∧ (decryptingOutput t).cfg = encryptingHello.cfg ∧
      (decryptingOutput t).key = encryptingHello.key ∧ (decryptingOutput t).keyLen = encryptingHello.keyLen ∧
      (decryptingOutput t).inLen = t.outLen ∧
      ∀ a, a < t.outLen.toNat → Memory.get? (decryptingOutput t).ibuf a = Memory.get? t.obuf a :=
  ⟨⟨rfl, rfl, rfl, rfl⟩, by rw [testCfg_bufBytes]; decide, by rw [testCfg_bufBytes]; decide,
    (by decide : ∀ k, k < 5 → (Memory.get? encryptingHello.ibuf (0 + k)).isSome = true),
    (by decide : ∀ k, k < 8 → (Memory.get? encryptingHello.key (0 + k)).isSome = true),
    fun _ => ⟨⟨rfl, rfl, show decode 0x33 = .ok .decrypt by decide, rfl⟩, rfl, rfl, rfl, rfl, fun _ _ => rfl⟩⟩

theorem witness_BlocksAreIndependent :
    (zeros 8).length % 8 = 0 ∧ ([] : List Byte).length % 8 = 0 ∧ helloKey ≠ [] ∧ helloKey.length % 8 = 0 := by decide

theorem witness_LengthChecksInOrder :
    (withLen 0x10 7).inLen.toNat ≠ 8 ∧ (withLen 0x22 9).inLen.toNat ≠ 8 ∧ (withLen 0x12 3).inLen.toNat ≠ 4 ∧
    (withLen 0x13 5).inLen.toNat ≠ 4 ∧ (withLen 0x14 0).inLen.toNat ≠ 6 ∧ (withLen 0x15 9).inLen.toNat ≠ 10 ∧
    fresh.cfg.bufBytes < (withLen 0x30 1025).inLen.toNat ∧ fresh.cfg.bufBytes < (withLen 0x33 1028).inLen.toNat ∧
    (withLen 0x33 1020).inLen.toNat ≤ fresh.cfg.bufBytes ∧ (withLen 0x33 1020).inLen.toNat % 8 ≠ 0 ∧
    (withLen 0x33 1020).phase = .accepted := by
  rw [testCfg_bufBytes]; decide

theorem witness_CommandsEndOnlyByFinish :
    (∃ t, exec .keyDerive (accepted 0x20 [] []) = .next t ∧ t.busy = true) ∧
    (∃ t, exec .pad (accepted 0x30 [] []) = .next t ∧ t.done = true) ∧
    (∃ t, exec .decrypt (withLen 0x33 5) = .next t ∧ t.err = true) ∧ (withLen 0x33 5).busy = true :=
  ⟨⟨_, rfl, rfl⟩, ⟨_, rfl, rfl⟩, ⟨_, rfl, rfl⟩, rfl⟩

theorem witness_CommandStepsKeepHostState : ∃ t, exec .unpad (accepted 0x31 [1] []) = .next t := ⟨_, rfl⟩

theorem witness_RunningCommandsWriteOnlyTheirBlock :
    nextHas (exec .encrypt (accepted 0x32 hello [])) (fun t => t.busy && Memory.get? t.obuf 7 != none) = true ∧
    nextHas (exec .decBlock { midway 0x22 .swappedFinal [] [] with x := 0 })
      (fun t => t.busy && Memory.get? t.obuf 0 != none) = true ∧
    Memory.get? (accepted 0x32 hello []).obuf 7 = none ∧ (accepted 0x32 hello []).busy = true := by decide +kernel

theorem witness_CmdWriteIsAccepted : fresh.busy = false := rfl

/-- Each clause of the busy protection at the ends of its range, with BUF_BYTES = 1024. -/
theorem witness_BusyProtection :
    (midway 0x21 .raw [] []).busy = true ∧
    (∀ off ∈ [0x00C, 0x010, 0x014, 0x020, 0x024, 0x1000, 0x13FC], WordOffset off ∧ ProtectedOffset 1024 off) ∧
    (∀ off ∈ [0x000, 0x018, 0x01C], WordOffset off) ∧
    (∀ off ∈ [0x2000, 0x2404], WordOffset off ∧ 0x2000 ≤ off ∧ off < 0x2000 + 1024 + 8) ∧
    (∀ off ∈ [0x028, 0xFFC, 0x1400, 0x1FFC, 0x2408, 0x3FFC], WordOffset off ∧ ReservedOffset 1024 off) ∧
    (2 : Word).getLsbD 0 = false ∧ (3 : Word).getLsbD 0 = true := by
  simp only [WordOffset, ProtectedOffset, ReservedOffset]
  decide

theorem witness_Reads : ∃ t, stepRead 0x00C fresh = .next t := ⟨_, rfl⟩

theorem witness_ReservedOffsets : WordOffset 0x3000 ∧ ReservedOffset 1024 0x3000 := by
  simp only [WordOffset, ReservedOffset]
  decide

theorem witness_ControlAndLength : fresh.busy = false := rfl

theorem witness_BufferWords :
    fresh.busy = false ∧ 4 * 0 < fresh.cfg.bufBytes ∧ 4 * 255 < fresh.cfg.bufBytes ∧ 1 < 2 ∧
    4 * 257 < fresh.cfg.bufBytes + 8 ∧
    Memory.get? ({ fresh with obuf := [(1028, 7)] } : State).obuf (4 * 257 + 0) = some 7 := by
  rw [testCfg_bufBytes]; decide

theorem witness_OutputIsHidden :
    (midway 0x21 .raw [] []).busy = true ∧ WordOffset 0x2404 ∧ 0x2000 ≤ 0x2404 ∧
    0x2404 < 0x2000 + fresh.cfg.bufBytes + 8 := by
  rw [testCfg_bufBytes]
  simp only [WordOffset]
  decide

theorem witness_MisalignedOrNarrow :
    (0x3FFF < 0x4000 ∧ (4 ≠ 4 ∨ 0x3FFF % 4 ≠ 0)) ∧ (0 < 0x4000 ∧ (2 ≠ 4 ∨ 0 % 4 ≠ 0)) := by decide

theorem witness_HostCannotDisturb :
    (midway 0x21 .raw [] []).busy = true ∧
    (∃ t, step { midway 0x21 .raw [] [] with events := [.bus (.write 0x10010 4 3)] } = .next t) ∧
    ∀ v, (Transaction.write 0x10010 4 3) = .write (fresh.cfg.base + 0x004) 4 v → v.getLsbD 0 = false :=
  ⟨rfl, ⟨_, rfl⟩, fun v h => absurd (Transaction.write.inj h).1 (by decide +kernel)⟩

theorem witness_SoftReset : (3 : Word).getLsbD 0 = true ∧ (1 : Word).getLsbD 0 = true := by decide

theorem witness_InterruptOutput :
    (∃ t, exec .pad (accepted 0x30 [] []) = .next t ∧ t.busy = false) ∧ (accepted 0x30 [] []).busy = true ∧
    ((2 : Word).getLsbD 0 = false ∧ (2 : Word).getLsbD 1 = true) ∧
    ((6 : Word).getLsbD 1 = true ∧ (6 : Word).getLsbD 2 = true) ∧ fresh.busy = false ∧
    ((0 : Word).getLsbD 0 = false ∧ (0 : Word).getLsbD 1 = false) ∧ (1 : Word).getLsbD 0 = true :=
  ⟨⟨_, rfl, rfl⟩, rfl, by decide, by decide, rfl, by decide, by decide⟩

/-- The finish step of an illegal word and of a legal command. -/
theorem witness_InterruptOutput_sequencer :
    (∃ t, stepSequencer (accepted 0x34 [] []) = .next t ∧ t.busy = false) ∧ (accepted 0x34 [] []).busy = true ∧
    ∃ t, stepSequencer (accepted 0x30 [] []) = .next t ∧ t.busy = false := ⟨⟨_, rfl, rfl⟩, rfl, ⟨_, rfl, rfl⟩⟩

theorem witness_OnlyCmdWriteStartsCommand :
    ∃ t, step { fresh with events := [.bus (.write 0x1000C 4 0x10)] } = .next t ∧ t.busy = true ∧ fresh.busy = false :=
  ⟨_, rfl, rfl, rfl⟩

theorem witness_OnlyHostOrResetClearsWerr :
    (∃ t, step { fresh with werr := true, events := [.bus (.write 0x10008 4 8)] } = .next t ∧ t.werr = false) ∧
    (∃ t, step { fresh with werr := true, events := [.bus (.write 0x10004 4 1)] } = .next t ∧ t.werr = false) ∧
    ∃ t, step { fresh with werr := true, events := [.hardwareReset] } = .next t ∧ t.werr = false :=
  ⟨⟨_, rfl, rfl⟩, ⟨_, rfl, rfl⟩, ⟨_, rfl, rfl⟩⟩

/-- An idle core, a core at ACCEPTED and a core in the middle of a block, each meeting the invariant. -/
theorem witness_Inv : fresh.Inv ∧ (accepted 0x21 (zeros 8) helloKey).Inv ∧ (midway 0x21 .round (zeros 8) helloKey).Inv := by
  refine ⟨?_, ?_, ?_⟩
  · constructor <;> first | decide +kernel | (intro h; cases h)
  · constructor <;> first | decide +kernel | exact fun _ h => absurd rfl h
  · constructor <;> first
      | decide +kernel
      | exact fun _ _ => ⟨.encBlock, rfl, rfl, by decide +kernel, fun _ => by decide, fun h => (nomatch h),
          fun k hk => absurd hk (Nat.not_lt_zero k)⟩

/-- A host transaction while a command runs in a state that meets the invariant: W1C of DONE and ERR. -/
theorem witness_HostCannotDisturb_invariant :
    (midway 0x21 .round (zeros 8) helloKey).Inv ∧ (midway 0x21 .round (zeros 8) helloKey).busy = true ∧
    (∃ t, step { midway 0x21 .round (zeros 8) helloKey with events := [.bus (.write 0x10008 4 6)] } = .next t) ∧
    ∀ v, (Transaction.write 0x10008 4 6) = .write (fresh.cfg.base + 0x004) 4 v → v.getLsbD 0 = false :=
  ⟨witness_Inv.2.2, rfl, ⟨_, rfl⟩, fun v h => absurd (Transaction.write.inj h).1 (by decide +kernel)⟩

theorem witness_EveryStepKeepsInvariant :
    (∃ t, step fresh = .next t) ∧ (∃ t, step (accepted 0x21 (zeros 8) helloKey) = .next t) ∧
    ∃ t, step (midway 0x21 .round (zeros 8) helloKey) = .next t := ⟨⟨_, rfl⟩, ⟨_, rfl⟩, ⟨_, rfl⟩⟩

theorem witness_EveryRunningCommandEnds :
    (midway 0x21 .round (zeros 8) helloKey).busy = true ∧ (midway 0x21 .round (zeros 8) helloKey).events = [] ∧
    (accepted 0x21 (zeros 8) helloKey).busy = true ∧ (accepted 0x21 (zeros 8) helloKey).events = [] := by decide

theorem witness_StepCounts :
    JustAccepted .encrypt (withLen 0x32 1025) ∧ checkFailure .encrypt (withLen 0x32 1025) = some .lengthRange ∧
    JustAccepted .encrypt (withLen 0x32 1024) ∧ checkFailure .encrypt (withLen 0x32 1024) = none ∧
    (accepted 0x34 [] []).busy = true ∧ (accepted 0x34 [] []).phase = .accepted ∧ (accepted 0x34 [] []).events = [] ∧
    decode (accepted 0x34 [] []).cmdword = .error .unassignedOpcode :=
  ⟨⟨rfl, rfl, rfl, rfl⟩, by decide +kernel, ⟨rfl, rfl, rfl, rfl⟩, by decide +kernel, rfl, rfl, rfl, rfl⟩

/-- The same written input and key bytes in two different states. -/
theorem witness_ResultsDependOnlyOnInputs :
    JustAccepted .encrypt encryptingHello ∧
    JustAccepted .encrypt { encryptingHello with x := 0, rk := Vector.replicate 16 0, obuf := [(9, 9)] } ∧
    (∀ a, a < 5 → (Memory.get? encryptingHello.ibuf a).isSome = true) ∧
    (∀ a, a < 8 → (Memory.get? encryptingHello.key a).isSome = true) ∧ encryptingHello.inLen.toNat = 5 ∧
    min encryptingHello.keyLen.toNat 8 = 8 :=
  ⟨⟨rfl, rfl, rfl, rfl⟩, ⟨rfl, rfl, rfl, rfl⟩, by decide, by decide, by decide, by decide⟩

end Sys2Proof.Tests
end

section
/-! SUPPORT. The laws of MemRead (R15): how many bytes it returns, and that a written byte is returned as it stands. -/

namespace Sys2Proof.Machine

/-- R15, R715: an UNSPEC byte takes a value too, so no buffer's contents shorten a read. -/
@[simp] theorem memRead_length (b : Buf) (a n : Nat) (s : State) : (memRead b a n s).length = n :=
  Memory.read_length (s.buffer b) a n s.draws

theorem memRead_getElem?_of_written (b : Buf) (a n : Nat) (s : State) {k : Nat} {x : Byte} (hk : k < n)
    (hx : Memory.get? (s.buffer b) (a + k) = some x) : (memRead b a n s)[k]? = some x := by
  rw [memRead, Memory.read_getElem?, if_pos hk, hx, Option.getD_some]

/-- Settles O4: the length and the written bytes of a MemRead, each from its law. -/
theorem memReadReturnsWrittenBytes : Obligations.MemReadReturnsWrittenBytes := fun b a n s =>
  ⟨memRead_length b a n s, fun _ _ hk hx => memRead_getElem?_of_written b a n s hk hx⟩

end Sys2Proof.Machine
end

section
/-! SUPPORT. What a command's step does, sorted by what it does to the core and not by command: the inversion from which
the frame of every step, its writes to RK and OBUF, and the invariant are read off. -/

namespace Sys2Proof.Machine

/-! ## Lengths of outputs -/

theorem roundKeyBytes_length (rk : Vector (BitVec 48) 16) : (roundKeyBytes rk).length = 96 := by
  simp [roundKeyBytes, List.length_flatMap]

/-- R480: the padded length is the next multiple of 8. -/
theorem padBytes_length (m : List Byte) : (padBytes m).length = 8 * (m.length / 8 + 1) := by
  simp only [padBytes, padLength, List.length_append, List.length_replicate]
  omega

theorem unpadBytes_length_le {c m : List Byte} (h : unpadBytes c = some m) : m.length ≤ c.length := by
  unfold unpadBytes at h
  split at h
  · cases h
  · simp only [Option.ite_none_left_eq_some, Option.some.injEq] at h
    obtain ⟨-, rfl⟩ := h
    exact List.length_take_le' ..

@[simp] theorem message_length (s : State) : (message s).length = s.inLen.toNat := memRead_length ..

/-! ## The checks of R605 -/

theorem checkFailure_ne_ok {i : Instr} {s : State} {code : ErrCode} (h : checkFailure i s = some code) :
    code ≠ .ok := by
  rintro rfl
  simp only [checkFailure] at h
  split_ifs at h <;> cases h

/-- R605 check 3: a checked message fits in IBUF. -/
theorem inLen_le_of_checked {i : Instr} {s : State} (h : checkFailure i s = none) (hv : variableLength i = true) :
    s.inLen.toNat ≤ s.cfg.bufBytes := by
  unfold checkFailure at h
  split_ifs at h with h1 h2
  all_goals simp [hv] at h2; exact h2

/-- The blocks of a checked command fit in OBUF (R114, R452). -/
theorem nblk_le_of_checked {i : Instr} {s : State} {job : BlockJob} (hj : jobOf i s = some job)
    (h : checkFailure i s = none) : 8 * job.nblk ≤ s.cfg.bufBytes + 8 := by
  have hb := s.cfg.bounds
  cases i <;> simp only [jobOf, Option.some.injEq, reduceCtorEq] at hj <;> subst hj
  case encBlock | decBlock => dsimp only; omega
  case encrypt | decrypt =>
    have := inLen_le_of_checked h rfl
    dsimp only
    omega

theorem blockCount_of_job {i : Instr} {s : State} {job : BlockJob} (hj : jobOf i s = some job) :
    blockCount i s = job.nblk := by simp [blockCount, hj]

/-! ## Effects -/

/-- The state a command acts on: s, with OP latched (R321) in the ACCEPTED step once the checks have passed. -/
def ActsOn (s u : State) : Prop := u = s ∨ (s.phase = .accepted ∧ u = { s with op := opcField s.cmdword })

theorem actsOn_self (s : State) : ActsOn s s := .inl rfl

theorem actsOn_latched {s : State} (h : s.phase = .accepted) : ActsOn s { s with op := opcField s.cmdword } :=
  .inr ⟨h, rfl⟩

/-- Everything a command's step can do to the core, one case an effect. -/
inductive ExecEffect (i : Instr) (s t : State) : Prop where
  | failed (code : ErrCode) (d : Nat) (u : State) (hu : ActsOn s u) (hc : code ≠ .ok)
      (ht : t = finishErr code (u.drew d))
  | delivered (out : List Byte) (d : Nat) (u : State) (hu : ActsOn s u) (hlen : out.length ≤ s.cfg.bufBytes + 8)
      (ht : t = deliver out (u.drew d))
  | ended (job : BlockJob) (hj : jobOf i s = some job) (hp : s.phase = .permutedFinal) (n d : Nat)
      (hn : n ≤ 8 * job.nblk) (ht : t = finishOk n (s.drew d))
  | padded (hi : i = .encrypt) (hp : s.phase = .accepted) (hc : checkFailure i s = none)
      (ht : t = encryptPad { s with op := opcField s.cmdword })
  | derivedFirst (hi : i ∈ [Instr.keyDerive, .encBlock, .decBlock, .decrypt]) (hp : s.phase = .accepted)
      (hc : checkFailure i s = none) (ht : t = keygenAction { s with op := opcField s.cmdword })
  | derivedPadded (hi : i = .encrypt) (hp : s.phase = .padded) (ht : t = keygenAction s)
  | loaded (job : BlockJob) (hj : jobOf i s = some job) (b : Nat)
      (hp : (s.phase = .keygen ∧ b = 0) ∨ (s.phase = .permutedFinal ∧ b = s.blk.toNat + 1)) (hb : b < job.nblk)
      (ht : t = loadBlock job b s)
  | split (hp : s.phase = .raw) (ht : t = rawStep s)
  | round (hp : s.phase = .permutedInitial ∨ s.phase = .round) (dir : Direction) (j : Nat) (ht : t = runRound dir j s)
  | swapped (hp : s.phase = .round) (ht : t = swapStep s)
  | wrote (hp : s.phase = .swappedFinal) (ht : t = swappedStep s)

/-- UNPAD's action (R485). -/
theorem ExecEffect.of_deliverUnpadded {i : Instr} {s u : State} {c : List Byte} (d : Nat) (hu : ActsOn s u)
    (hlen : c.length ≤ s.cfg.bufBytes + 8) : ExecEffect i s (deliverUnpadded c (u.drew d)) := by
  unfold deliverUnpadded
  split
  next m hm => exact .delivered m d u hu ((unpadBytes_length_le hm).trans hlen) rfl
  next => exact .failed .padding d u hu (by decide) rfl

/-- The effects of a first action (R321), the checks having passed. -/
theorem ExecEffect.of_firstAction {i : Instr} {s : State} (hp : s.phase = .accepted) (hc : checkFailure i s = none) :
    ExecEffect i s (firstAction i { s with op := opcField s.cmdword }) := by
  have hu := actsOn_latched hp
  have hb := s.cfg.bounds
  cases i
  case permIp | permFp => exact .delivered _ 8 _ hu (by rw [bytes_length]; omega) rfl
  case permE | permP => exact .delivered _ 4 _ hu (by rw [bytes_length]; omega) rfl
  case subst => exact .delivered _ 6 _ hu (by rw [bytes_length]; omega) rfl
  case fround => exact .delivered _ 10 _ hu (by rw [bytes_length]; omega) rfl
  case keyDerive | encBlock | decBlock | decrypt => exact .derivedFirst (by decide) hp hc rfl
  case encrypt => exact .padded rfl hp hc rfl
  case pad =>
    have hle := inLen_le_of_checked hc rfl
    refine .delivered _ s.inLen.toNat _ hu ?_ rfl
    rw [padBytes_length, message_length]
    dsimp only
    omega
  case unpad =>
    have hle := inLen_le_of_checked hc rfl
    refine of_deliverUnpadded s.inLen.toNat hu ?_
    rw [message_length]
    dsimp only
    omega

/-- The effects of an end action (R452, R475). -/
theorem ExecEffect.of_endAction {i : Instr} {s : State} {job : BlockJob} (hj : jobOf i s = some job)
    (hp : s.phase = .permutedFinal) : ExecEffect i s (endActionOf i s) := by
  cases i <;> simp only [jobOf, Option.some.injEq, reduceCtorEq] at hj <;> subst hj
  case encBlock | decBlock => exact .ended _ rfl hp 8 0 (by dsimp only; omega) rfl
  case encrypt => exact .ended _ rfl hp _ 0 (Nat.le_refl _) rfl
  case decrypt =>
    simp only [endActionOf, decryptEnd]
    split
    next m hm =>
      refine .ended _ rfl hp m.length _ ?_ rfl
      simpa [decryptJob] using unpadBytes_length_le hm
    next => exact .failed .padding _ s (actsOn_self s) (by decide) rfl

/-- The effects of a block step (R453 to R459). -/
theorem ExecEffect.of_blockStep {i : Instr} {s t : State} {job : BlockJob} (hj : jobOf i s = some job)
    (h : blockStep job (endActionOf i) s = .next t) : ExecEffect i s t := by
  cases blockStep_cases job _ s t h with
  | noBlock hp hn ht => exact .failed .padding 0 s (actsOn_self s) (by decide) ht
  | firstBlock hp hn ht => exact .loaded job hj 0 (.inl ⟨hp, rfl⟩) (Nat.pos_of_ne_zero hn) ht
  | raw hp ht => exact .split hp ht
  | firstRound hp ht => exact .round (.inl hp) job.dir 0 ht
  | nextRound hp hr ht => exact .round (.inr hp) job.dir _ ht
  | swap hp hr ht => exact .swapped hp ht
  | final hp ht => exact .wrote hp ht
  | nextBlock hp hb ht => exact .loaded job hj _ (.inr ⟨hp, rfl⟩) hb ht
  | ended hp hb ht => exact ht ▸ of_endAction hj hp

/-- The inversion of `exec` by effect. -/
theorem exec_effect {i : Instr} {s t : State} (h : exec i s = .next t) : ExecEffect i s t := by
  cases exec_cases i s t h with
  | failed hp code hc ht => exact .failed code 0 s (actsOn_self s) (checkFailure_ne_ok hc) ht
  | first hp hc ht => exact ht ▸ .of_firstAction hp hc
  | delivered hi hp ht =>
    have hb := s.cfg.bounds
    exact .delivered _ 0 s (actsOn_self s) (by rw [roundKeyBytes_length]; omega) ht
  | derived hi hp ht => exact .derivedPadded hi hp ht
  | block job hj hp ht => exact .of_blockStep hj ht

end Sys2Proof.Machine
end

section
/-! SUPPORT. What a command's step leaves unchanged: the host's state, RK, and OBUF but for the block it writes. -/

namespace Sys2Proof.Machine

/-! ## The host's state (R113, R207, R322) -/

theorem ActsOn.hostStateKept {s u : State} (h : ActsOn s u) : HostStateKept s u := by
  rcases h with rfl | ⟨-, rfl⟩ <;> exact ⟨rfl, rfl, rfl, rfl, rfl, rfl, rfl, rfl, rfl, rfl⟩

theorem finishErr_hostStateKept (code : ErrCode) (d : Nat) (s : State) : HostStateKept s (finishErr code (s.drew d)) :=
  ⟨rfl, rfl, rfl, rfl, rfl, rfl, rfl, rfl, rfl, rfl⟩

theorem deliver_hostStateKept (out : List Byte) (d : Nat) (s : State) : HostStateKept s (deliver out (s.drew d)) :=
  ⟨rfl, rfl, rfl, rfl, rfl, rfl, rfl, rfl, rfl, rfl⟩

theorem ExecEffect.hostStateKept {i : Instr} {s t : State} (h : ExecEffect i s t) : HostStateKept s t := by
  cases h with
  | failed code d u hu hc ht => exact ht ▸ hu.hostStateKept.trans (finishErr_hostStateKept code d u)
  | delivered out d u hu hlen ht => exact ht ▸ hu.hostStateKept.trans (deliver_hostStateKept out d u)
  | _ => subst t; exact ⟨rfl, rfl, rfl, rfl, rfl, rfl, rfl, rfl, rfl, rfl⟩

theorem exec_hostStateKept {i : Instr} {s t : State} (h : exec i s = .next t) : HostStateKept s t :=
  (exec_effect h).hostStateKept

/-- Settles O35: the frame of every effect, and with IBUF and KEY every byte of them. -/
theorem commandStepsKeepHostState : Obligations.CommandStepsKeepHostState := by
  intro i s t h
  have k := exec_hostStateKept h
  exact ⟨k, fun a => by rw [k.ibuf], fun a => by rw [k.key]⟩

/-! ## RK (R434) -/

theorem ActsOn.rk {s u : State} (h : ActsOn s u) : u.rk = s.rk := by rcases h with rfl | ⟨-, rfl⟩ <;> rfl

/-- The RoundKeySet of the KEYGEN action, in the terms of the claims (R430 to R434). -/
theorem keygenAction_rk_eq (s : State) : (keygenAction s).rk = deriveKeys (normalizeKey (keyRead s s.draws)) := rfl

/-- RK is kept and the next phase is not KEYGEN, unless the step is the KEYGEN action. -/
theorem ExecEffect.rk_kept_or_derived {i : Instr} {s t : State} (h : ExecEffect i s t) :
    (t.rk = s.rk ∧ t.phase ≠ .keygen) ∨
    (((i ∈ [Instr.keyDerive, .encBlock, .decBlock, .decrypt] ∧ s.phase = .accepted) ∨
        (i = .encrypt ∧ s.phase = .padded)) ∧
      t.phase = .keygen ∧ t.rk = deriveKeys (normalizeKey (keyRead s s.draws))) := by
  cases h with
  | derivedFirst hi hp hc ht => subst ht; exact .inr ⟨.inl ⟨hi, hp⟩, rfl, rfl⟩
  | derivedPadded hi hp ht => subst ht; exact .inr ⟨.inr ⟨hi, hp⟩, rfl, keygenAction_rk_eq s⟩
  | failed code d u hu hc ht => subst ht; exact .inl ⟨hu.rk, by simp⟩
  | delivered out d u hu hlen ht => subst ht; exact .inl ⟨hu.rk, by simp [deliver]⟩
  | padded hi hp hc ht => subst ht; exact .inl ⟨rfl, by simp [encryptPad]⟩
  | _ => subst t; exact .inl ⟨rfl, by simp⟩

/-- Settles O15: of all effects only the KEYGEN action touches RK or leads to KEYGEN. -/
theorem onlyKeygenWritesRoundKeys : Obligations.OnlyKeygenWritesRoundKeys := by
  intro i s t h
  rcases (exec_effect h).rk_kept_or_derived with ⟨hrk, hp⟩ | ⟨hi, hp, hrk⟩
  · exact ⟨.inl hrk, fun hp' => absurd hp' hp⟩
  · exact ⟨.inr ⟨hp, hi⟩, fun _ => hrk⟩

/-! ## OBUF (R114, R458, R472) -/

/-- R472: the padded message stands below 8 * NBLK. -/
theorem encryptPad_get?_obuf_other (s : State) (a : Nat) (h : 8 * (s.inLen.toNat / 8 + 1) ≤ a) :
    Memory.get? (encryptPad s).obuf a = Memory.get? s.obuf a :=
  Memory.get?_write_other _ _ _ _ (.inr (by rw [padBytes_length, message_length]; omega))

/-- R458: only the 8 bytes of block BLK change. -/
theorem swappedStep_get?_obuf_other (s : State) (a : Nat) (h : a < 8 * s.blk.toNat ∨ 8 * s.blk.toNat + 8 ≤ a) :
    Memory.get? (swappedStep s).obuf a = Memory.get? s.obuf a :=
  Memory.get?_write_other _ _ _ _ (by rwa [bytes_length])

/-- Settles O36: a step that leaves its command running either keeps OBUF whole, pads, or writes one block. -/
theorem runningCommandsWriteOnlyTheirBlock : Obligations.RunningCommandsWriteOnlyTheirBlock := by
  intro i s t _ h hb a ha
  cases exec_effect h with
  | failed code d u hu hc ht => subst ht; exact absurd hb (by simp)
  | delivered out d u hu hlen ht => subst ht; exact absurd hb (by simp [deliver])
  | ended job hj hp n d hn ht => subst ht; exact absurd hb (by simp)
  | padded hi hp hc ht =>
    subst ht
    exact .inl ⟨hi, hp, Nat.lt_of_not_le fun hle => ha (encryptPad_get?_obuf_other _ a hle)⟩
  | wrote hp ht =>
    subst ht
    have := mt (swappedStep_get?_obuf_other s a) ha
    exact .inr ⟨hp, by omega, by omega⟩
  | _ => subst t; exact absurd rfl ha

end Sys2Proof.Machine
end

section
/-! SUPPORT. What a host write does, sorted by its effect (R104 to R113, R204, R710), and the rules about single flags that
hold over every event of the machine. -/

namespace Sys2Proof.Machine

/-- Everything a host write at an offset can do, n being BUF_BYTES, one case an effect. -/
inductive WriteEffect (n off : Nat) (v : Word) (s t : State) : Prop where
  | ignored (ht : t = s)
  | dropped (hb : s.busy = true) (ht : t = { s with werr := true })
  | reset (ho : off = 0x004) (hv : v.getLsbD 0 = true) (ht : t = softReset s)
  | ctrl (ho : off = 0x004) (hv : v.getLsbD 0 = false) (ht : t = { s with irqEn := v.getLsbD 1 })
  | status (ho : off = 0x008) (ht : t = writeStatus v s)
  | cmd (ho : off = 0x00C) (hb : s.busy = false) (ht : t = accept v s)
  | keyLen (ho : off = 0x010) (hb : s.busy = false) (ht : t = { s with keyLen := v })
  | inLen (ho : off = 0x014) (hb : s.busy = false) (ht : t = { s with inLen := v })
  | key (b : Nat) (ho : off = 0x020 + b) (hk : b = 0 ∨ b = 4) (hb : s.busy = false)
      (ht : t = { s with key := s.key.write b (unpackWord v) })
  | ibuf (b : Nat) (ho : off = 0x1000 + b) (hk : b < n) (hb : s.busy = false)
      (ht : t = { s with ibuf := s.ibuf.write b (unpackWord v) })

/-- While BUSY = 0 no write is dropped (R710). -/
theorem hostWriteReg_idle (r : Reg) (v : Word) {s : State} (hb : s.busy = false) :
    hostWriteReg r v s = writeWord r v s := by simp [hostWriteReg, hb]

/-- Registers outside R710 take writes whether or not BUSY = 1. -/
theorem hostWriteReg_unprotected {r : Reg} (v : Word) (s : State) (hr : r.isProtected = false) :
    hostWriteReg r v s = writeWord r v s := by simp [hostWriteReg, hr]

/-- R710. -/
theorem hostWriteReg_dropped {r : Reg} (v : Word) {s : State} (hb : s.busy = true) (hr : r.isProtected = true) :
    hostWriteReg r v s = { s with werr := true } := by simp [hostWriteReg, hb, hr]

/-- The inversion of a host write. -/
theorem hostWriteReg_effect (n off : Nat) (v : Word) (s : State) :
    WriteEffect n off v s (hostWriteReg (regAt n off) v s) := by
  by_cases hd : s.busy = true ∧ (regAt n off).isProtected = true
  · exact .dropped hd.1 (hostWriteReg_dropped v hd.1 hd.2)
  · have hw : hostWriteReg (regAt n off) v s = writeWord (regAt n off) v s := by
      simp only [hostWriteReg, Bool.and_eq_true, if_neg hd]
    have hidle : (regAt n off).isProtected = true → s.busy = false := fun hr => by simpa [hr] using hd
    rw [hw]
    rcases regAt_cases n off with ⟨ho, e⟩ | ⟨ho, e⟩ | ⟨ho, e⟩ | ⟨ho, e⟩ | ⟨ho, e⟩ | ⟨ho, e⟩ | ⟨ho, e⟩ | ⟨ho, e⟩ |
      ⟨ho, e⟩ | ⟨ho, e⟩ | ⟨ho, e⟩ | ⟨ho, e⟩ | e <;> rw [e] at hidle ⊢
    · exact .ignored rfl
    · cases hv : v.getLsbD 0
      · exact .ctrl ho hv (if_neg (ne_true_of_eq_false hv))
      · exact .reset ho hv (if_pos hv)
    · exact .status ho rfl
    · exact .cmd ho (hidle rfl) rfl
    · exact .keyLen ho (hidle rfl) rfl
    · exact .inLen ho (hidle rfl) rfl
    · exact .ignored rfl
    · exact .ignored rfl
    · exact .key 0 ho (.inl rfl) (hidle rfl) rfl
    · exact .key 4 ho (.inr rfl) (hidle rfl) rfl
    · exact .ibuf (off - 0x1000) (by omega) (by omega) (hidle rfl) rfl
    · exact .ignored rfl
    · exact .ignored rfl

/-! ## The parameters (R118) -/

theorem WriteEffect.cfg {n off : Nat} {v : Word} {s t : State} (h : WriteEffect n off v s t) : t.cfg = s.cfg := by
  cases h <;> subst t <;> rfl

/-- No turn of the sequencer changes the host's state (R113, R207). -/
theorem sequencerStep_hostStateKept {s t : State} (h : sequencerStep s = .next t) : HostStateKept s t := by
  rcases sequencerStep_cases s t h with ⟨-, rfl⟩ | ⟨-, i, -, hx⟩ | ⟨-, -, -, rfl⟩
  · exact (actsOn_self t).hostStateKept
  · exact exec_hostStateKept hx
  · exact finishErr_hostStateKept .illegalCommand 0 s

theorem busTransaction_cfg {tr : Transaction} {s t : State} (h : busTransaction tr s = .next t) : t.cfg = s.cfg := by
  rcases busTransaction_cases tr s t h with ⟨off, -, -, -, rfl⟩ | ⟨off, v, -, -, -, rfl⟩ | ⟨a, w, v, -, -, rfl⟩
  · rfl
  · exact (hostWriteReg_effect s.cfg.bufBytes off v s).cfg
  · rfl

/-- Settles O2: the sequencer keeps the host's state, and no host access or reset touches the parameters. -/
theorem parametersNeverChange : Obligations.ParametersNeverChange := by
  intro s t h
  rcases step_cases s t h with ⟨s', hs', hx⟩ | ⟨tr, rest, -, hx⟩ | ⟨rest, -, rfl⟩
  · have hk := (sequencerStep_hostStateKept hx).cfg
    rcases hs' with ⟨-, rfl⟩ | ⟨rest, -, rfl⟩ <;> exact hk
  · exact (busTransaction_cfg hx :)
  · rfl

/-! ## BUSY (R107, R320, R635) -/

/-- Only acceptance raises BUSY among the writes. -/
theorem WriteEffect.accept_of_busy {n off : Nat} {v : Word} {s t : State} (h : WriteEffect n off v s t)
    (hs : s.busy = false) (ht : t.busy = true) : off = 0x00C ∧ t = accept v s := by
  cases h with
  | cmd ho hb h => exact ⟨ho, h⟩
  | _ => subst t; simp [hs] at ht

/-- An idle core's turn leaves it idle (R635). -/
theorem sequencerStep_busy_of_idle {s t : State} (h : sequencerStep s = .next t) (hs : s.busy = false) :
    t.busy = false := by
  rw [sequencerStep_idle s hs] at h
  cases h
  exact hs

/-- Settles O51: of all events only an accepted write to CMD raises BUSY. -/
theorem onlyCmdWriteStartsCommand : Obligations.OnlyCmdWriteStartsCommand := by
  intro s t h hs ht
  rcases step_cases s t h with ⟨s', hs', hx⟩ | ⟨tr, rest, he, hx⟩ | ⟨rest, -, rfl⟩
  · have hb : s'.busy = false := by rcases hs' with ⟨-, rfl⟩ | ⟨rest, -, rfl⟩ <;> exact hs
    simp [sequencerStep_busy_of_idle hx hb] at ht
  · rcases busTransaction_cases tr _ t hx with ⟨off, -, -, -, rfl⟩ | ⟨off, v, -, -, htr, rfl⟩ | ⟨a, w, v, -, -, rfl⟩
    · simp [hs] at ht
    · obtain ⟨ho, ha⟩ := (hostWriteReg_effect s.cfg.bufBytes off v { s with events := rest }).accept_of_busy hs ht
      rw [ha]
      exact ⟨v, rest, by rw [he, htr, ho], rfl, rfl⟩
    · simp [hs] at ht
  · simp at ht

/-! ## WERR (R105, R714) -/

/-- Only the W1C write and a soft reset clear WERR among the writes. -/
theorem WriteEffect.offset_of_werr_cleared {n off : Nat} {v : Word} {s t : State} (h : WriteEffect n off v s t)
    (hs : s.werr = true) (ht : t.werr = false) :
    (off = 0x008 ∧ v.getLsbD 3 = true) ∨ (off = 0x004 ∧ v.getLsbD 0 = true) := by
  cases h with
  | reset ho hv h => exact .inr ⟨ho, hv⟩
  | status ho h => subst h; exact .inl ⟨ho, by simpa [hs] using ht⟩
  | _ => subst t; simp [hs] at ht

/-- Settles O52: the sequencer keeps WERR, and of the host's writes only two clear it. -/
theorem onlyHostOrResetClearsWerr : Obligations.OnlyHostOrResetClearsWerr := by
  intro s t h hs ht
  rcases step_cases s t h with ⟨s', hs', hx⟩ | ⟨tr, rest, he, hx⟩ | ⟨rest, he, -⟩
  · have hw : s'.werr = true := by rcases hs' with ⟨-, rfl⟩ | ⟨rest, -, rfl⟩ <;> exact hs
    simp [(sequencerStep_hostStateKept hx).werr, hw] at ht
  · refine ⟨rest, .inr ?_⟩
    rcases busTransaction_cases tr _ t hx with ⟨off, -, -, -, rfl⟩ | ⟨off, v, -, -, htr, rfl⟩ | ⟨a, w, v, -, -, rfl⟩
    · simp [hs] at ht
    · refine ((hostWriteReg_effect s.cfg.bufBytes off v { s with events := rest }).offset_of_werr_cleared hs ht).imp
        ?_ ?_ <;> rintro ⟨rfl, hv⟩ <;> exact ⟨v, by rw [he, htr], hv⟩
    · simp [hs] at ht
  · exact ⟨rest, .inl he⟩

end Sys2Proof.Machine
end

section
/-! SUPPORT. The invariant of the machine, operation by operation: which operations keep it as they stand, what a finish
leaves, and when a command that goes on still stands at one of its positions. -/

namespace Sys2Proof.Machine

/-! ## Written bytes, and the size of a buffer -/

/-- A write makes no written byte UNSPEC. -/
theorem Written.write {m : Memory} {a n : Nat} (h : Written m a n) (b : Nat) (bs : List Byte) :
    Written (m.write b bs) a n := by
  intro k hk
  rw [Memory.get?_write]
  split
  · rw [List.getElem?_eq_getElem (by omega)]; rfl
  · exact h k hk

theorem written_write (m : Memory) (a : Nat) (bs : List Byte) : Written (m.write a bs) a bs.length := by
  intro k hk
  rw [Memory.get?_write_same m a bs k hk]
  rfl

/-- Written bytes with written bytes after them. -/
theorem Written.append {m : Memory} {a n k : Nat} (h : Written m a n) (h' : Written m (a + n) k) :
    Written m a (n + k) := by
  intro j hj
  by_cases hn : j < n
  · exact h j hn
  · have := h' (j - n) (by omega)
    rwa [show a + n + (j - n) = a + j by omega] at this

theorem written_zero (m : Memory) (a : Nat) : Written m a 0 := fun k hk => absurd hk (Nat.not_lt_zero k)

/-- A buffer within a size is within every larger one. -/
theorem boundedBy_mono {n k : Nat} {m : Memory} (h : Memory.boundedBy n m = true) (hle : n ≤ k) :
    Memory.boundedBy k m = true :=
  (Memory.boundedBy_iff k m).2 fun c hc => Nat.lt_of_lt_of_le ((Memory.boundedBy_iff n m).1 h c hc) hle

/-! ## Operations that keep the invariant -/

/-- The invariant says nothing of the model's records of the host, of the draws, of IRQ_EN and of WERR. -/
theorem State.Inv.withRecords {s : State} (h : s.Inv) (irqEn werr : Bool) (draws : Nat) (events : List Event)
    (response : Response) :
    State.Inv { s with irqEn := irqEn, werr := werr, draws := draws, events := events, response := response } :=
  { h with running := fun hb hp => (h.running hb hp).imp fun _ r => { r with } }

theorem State.Inv.drew {s : State} (h : s.Inv) (n : Nat) : (s.drew n).Inv :=
  h.withRecords s.irqEn s.werr (s.draws + n) s.events s.response

theorem State.Inv.withEvents {s : State} (h : s.Inv) (events : List Event) : State.Inv { s with events := events } :=
  h.withRecords s.irqEn s.werr s.draws events s.response

/-- OP is CMDWORD[7:0] while a command runs, so latching it again changes nothing (R321, log 10). -/
theorem ActsOn.eq_of_inv {s u : State} (h : ActsOn s u) (hi : s.Inv) (hb : s.busy = true) : u = s := by
  rcases h with rfl | ⟨-, rfl⟩
  · rfl
  · rw [← hi.latched hb]

/-- A write of OBUF within its size while a command runs (R114). -/
theorem State.Inv.memWriteObuf {s : State} (h : s.Inv) (hb : s.busy = true) (a : Nat) (bs : List Byte)
    (hle : a + bs.length ≤ s.cfg.bufBytes + 8) : (memWriteObuf a bs s).Inv :=
  { h with
    obufWf := Memory.wf_write _ _ _ h.obufWf
    obufSize := Memory.boundedBy_write _ _ _ _ h.obufSize hle
    failed := fun hc => absurd (h.busyFlags hb).2.2.1 hc
    idleOut := fun hn => absurd (hb.symm.trans hn) (by decide)
    running := fun hb hp => (h.running hb hp).imp fun _ r => { r with readBack := r.readBack.write a bs } }

/-- The core is at rest: BUSY = 0 and the sequencer at its idle position (R100, R105). -/
structure AtRest (s : State) : Prop where
  busy  : s.busy = false
  phase : s.phase = .idle
  round : s.round = 0
  blk   : s.blk = 0

/-- What the invariant asks of a core at rest: form and size of the buffers, OUT_LEN, and the flags. -/
theorem AtRest.inv {s : State} (h : AtRest s)
    (hkey : Memory.wf s.key = true ∧ Memory.boundedBy 8 s.key = true)
    (hibuf : Memory.wf s.ibuf = true ∧ Memory.boundedBy s.cfg.bufBytes s.ibuf = true)
    (hobuf : Memory.wf s.obuf = true ∧ Memory.boundedBy s.outLen.toNat s.obuf = true)
    (hlen : s.outLen.toNat ≤ s.cfg.bufBytes + 8) (notBoth : ¬ (s.done = true ∧ s.err = true))
    (doneCode : s.done = true → s.errcode = .ok) (errCode : s.err = true → s.errcode ≠ .ok)
    (failed : s.errcode ≠ .ok → s.outLen = 0 ∧ s.obuf = []) : s.Inv := by
  have notBusy : ¬ s.busy = true := ne_true_of_eq_false h.busy
  exact
    { keyWf := hkey.1
      keySize := hkey.2
      ibufWf := hibuf.1
      ibufSize := hibuf.2
      obufWf := hobuf.1
      obufSize := boundedBy_mono hobuf.2 hlen
      outLenSize := hlen
      notBoth := notBoth
      doneCode := doneCode
      errCode := errCode
      failed := failed
      idleAt := fun _ => ⟨h.phase, h.round, h.blk⟩
      idleOut := fun _ => hobuf.2
      busyAt := fun hb => absurd hb notBusy
      busyFlags := fun hb => absurd hb notBusy
      roundAt := fun _ => h.round
      acceptedAt := fun _ => h.blk
      latched := fun hb => absurd hb notBusy
      running := fun hb => absurd hb notBusy }

theorem atRest_finishOk (n : Nat) (s : State) : AtRest (finishOk n s) := ⟨rfl, rfl, rfl, rfl⟩

theorem atRest_finishErr (code : ErrCode) (s : State) : AtRest (finishErr code s) := ⟨rfl, rfl, rfl, rfl⟩

theorem atRest_afterReset (cfg : Config) (d : Nat) (events : List Event) : AtRest (State.afterReset cfg d events) :=
  ⟨rfl, rfl, rfl, rfl⟩

/-- What finish_ok leaves meets the invariant (R322). -/
theorem State.Inv.finishOk {s : State} (h : s.Inv) {n : Nat} (hn : n ≤ s.cfg.bufBytes + 8) : (finishOk n s).Inv := by
  have hlen : (BitVec.ofNat 32 n).toNat = n := by
    have hb := s.cfg.bounds
    rw [BitVec.toNat_ofNat]
    exact Nat.mod_eq_of_lt (by omega)
  have hout : Memory.boundedBy (BitVec.ofNat 32 n).toNat (Memory.below s.obuf n) = true := by
    rw [hlen]
    exact Memory.boundedBy_below n s.obuf
  exact (atRest_finishOk n s).inv ⟨h.keyWf, h.keySize⟩ ⟨h.ibufWf, h.ibufSize⟩ ⟨Memory.wf_below _ _ h.obufWf, hout⟩
    (hlen.trans_le hn) (fun hf => nomatch hf.2) (fun _ => rfl) nofun (fun hf => absurd rfl hf)

/-- What finish_err of an error code leaves meets the invariant (R610). -/
theorem State.Inv.finishErr {s : State} (h : s.Inv) {code : ErrCode} (hc : code ≠ .ok) : (finishErr code s).Inv :=
  (atRest_finishErr code s).inv ⟨h.keyWf, h.keySize⟩ ⟨h.ibufWf, h.ibufSize⟩ ⟨rfl, rfl⟩ (Nat.zero_le _)
    (fun hf => nomatch hf.1) nofun (fun _ => hc) (fun _ => ⟨rfl, rfl⟩)

/-- A result within the size of OBUF (R310, R322). -/
theorem State.Inv.deliver {s : State} (h : s.Inv) (hb : s.busy = true) {out : List Byte}
    (hle : out.length ≤ s.cfg.bufBytes + 8) : (deliver out s).Inv :=
  (h.memWriteObuf hb 0 out (by rwa [Nat.zero_add])).finishOk hle

/-! ## Resets and host writes -/

/-- A hardware reset meets the invariant, whatever state it resets (R700). -/
theorem afterReset_inv (cfg : Config) (d : Nat) (events : List Event) : (State.afterReset cfg d events).Inv :=
  (atRest_afterReset cfg d events).inv ⟨rfl, rfl⟩ ⟨rfl, rfl⟩ ⟨rfl, rfl⟩ (Nat.zero_le _) (fun hf => nomatch hf.1) nofun
    nofun (fun hf => absurd rfl hf)

/-- Settles O53: State.reset is one of the states a hardware reset leaves. -/
theorem resetMeetsInvariant : Obligations.ResetMeetsInvariant := afterReset_inv Config.installed 0 []

theorem State.Inv.hardwareReset (s : State) : (hardwareReset s).Inv := afterReset_inv s.cfg s.draws s.events

/-- A soft reset keeps KEY and IBUF, which keep their form and size (R702). -/
theorem State.Inv.softReset {s : State} (h : s.Inv) : (softReset s).Inv :=
  { State.Inv.hardwareReset s with
    keyWf := h.keyWf
    keySize := h.keySize
    ibufWf := h.ibufWf
    ibufSize := h.ibufSize
    running := nofun }

/-- Acceptance (R320): the output of the command before it stays in OBUF, now hidden. -/
theorem State.Inv.accept {s : State} (h : s.Inv) (v : Word) : (accept v s).Inv :=
  { h with
    outLenSize := Nat.zero_le _
    notBoth := fun hf => nomatch hf.1
    doneCode := fun _ => rfl
    errCode := nofun
    failed := fun hf => absurd rfl hf
    idleAt := nofun
    idleOut := nofun
    busyAt := fun _ => nofun
    busyFlags := fun _ => ⟨rfl, rfl, rfl, rfl⟩
    roundAt := fun _ => rfl
    acceptedAt := fun _ => rfl
    latched := fun _ => rfl
    running := fun _ hp => absurd rfl hp }

/-- W1C can only clear DONE and ERR (R105). -/
theorem State.Inv.writeStatus {s : State} (h : s.Inv) (v : Word) : (writeStatus v s).Inv :=
  { h with
    notBoth := fun hf => h.notBoth ⟨Bool.and_elim_left hf.1, Bool.and_elim_left hf.2⟩
    doneCode := fun hf => h.doneCode (Bool.and_elim_left hf)
    errCode := fun hf => h.errCode (Bool.and_elim_left hf)
    busyFlags := fun hb => by
      obtain ⟨hd, he, hc, ho⟩ := h.busyFlags hb
      exact ⟨by simp [hd], by simp [he], hc, ho⟩
    running := fun hb hp => (h.running hb hp).imp fun _ r => { r with } }

@[simp] theorem unpackWord_length (v : Word) : (unpackWord v).length = 4 := rfl

/-- Every host write keeps the invariant (R104 to R113, R710); a buffer word fits, BUF_BYTES being a multiple of 8. -/
theorem State.Inv.hostWrite {s t : State} {off : Nat} {v : Word} (h : s.Inv) (ho : off % 4 = 0)
    (hw : WriteEffect s.cfg.bufBytes off v s t) : t.Inv := by
  have idle : s.busy = false → ¬ s.busy = true := ne_true_of_eq_false
  cases hw with
  | ignored ht => exact ht ▸ h
  | dropped hb ht => exact ht ▸ h.withRecords s.irqEn true s.draws s.events s.response
  | reset _ hv ht => exact ht ▸ h.softReset
  | ctrl _ hv ht => exact ht ▸ h.withRecords (v.getLsbD 1) s.werr s.draws s.events s.response
  | status _ ht => exact ht ▸ h.writeStatus v
  | cmd _ hb ht => exact ht ▸ h.accept v
  | keyLen _ hb ht => exact ht ▸ { h with running := fun hb' => absurd hb' (idle hb) }
  | inLen _ hb ht => exact ht ▸ { h with running := fun hb' => absurd hb' (idle hb) }
  | key b _ hk hb ht =>
    exact ht ▸
      { h with
        keyWf := Memory.wf_write _ _ _ h.keyWf
        keySize := Memory.boundedBy_write _ _ _ _ h.keySize (by rw [unpackWord_length]; omega)
        running := fun hb' => absurd hb' (idle hb) }
  | ibuf b hb' hk hb ht =>
    have hc := s.cfg.bounds
    exact ht ▸
      { h with
        ibufWf := Memory.wf_write _ _ _ h.ibufWf
        ibufSize := Memory.boundedBy_write _ _ _ _ h.ibufSize (by rw [unpackWord_length]; dsimp only; omega)
        running := fun hb' => absurd hb' (idle hb) }

theorem State.Inv.busTransaction {s t : State} {tr : Transaction} (h : s.Inv) (hx : busTransaction tr s = .next t) :
    t.Inv := by
  rcases busTransaction_cases tr s t hx with ⟨off, -, -, -, rfl⟩ | ⟨off, v, -, ho, -, rfl⟩ | ⟨a, w, v, -, -, rfl⟩
  · exact h.withRecords s.irqEn s.werr _ s.events _
  · have hw := h.hostWrite ho (hostWriteReg_effect s.cfg.bufBytes off v s)
    exact hw.withRecords _ _ _ _ _
  · exact h.withRecords s.irqEn s.werr s.draws s.events _

end Sys2Proof.Machine
end

section
/-! SUPPORT. A command that goes on stands at one of its positions again (R117), so every step keeps the invariant and no
turn of the sequencer stops. -/

namespace Sys2Proof.Machine

/-! ## What the positions depend on -/

theorem checkFailure_congr (i : Instr) {s t : State} (hc : t.cfg = s.cfg) (hl : t.inLen = s.inLen) :
    checkFailure i t = checkFailure i s := by simp only [checkFailure, hc, hl]

theorem blockCount_congr (i : Instr) {s t : State} (hl : t.inLen = s.inLen) : blockCount i t = blockCount i s := by
  cases i <;> simp only [blockCount, jobOf, hl]

/-- The positions after ACCEPTED: those of the block datapath and the KEYGEN before it, of a command of R452; ENCRYPT's
PADDED (R472); and KEY_DERIVE's KEYGEN (R436). -/
theorem passes_cases {i : Instr} {p : Phase} (s : State) (h : passes i p = true) :
    ((p = .keygen ∨ p.inBlock = true) ∧ ∃ job, jobOf i s = some job) ∨ (i = .encrypt ∧ p = .padded) ∨
      (i = .keyDerive ∧ p = .keygen) := by
  cases i
  case keyDerive => exact .inr (.inr ⟨rfl, by simpa [passes] using h⟩)
  case encBlock | decBlock | decrypt => exact .inl ⟨by simpa [passes] using h, _, rfl⟩
  case encrypt =>
    have hp : p = .padded ∨ p = .keygen ∨ p.inBlock = true := by simpa [passes, or_assoc] using h
    exact hp.elim (fun hp => .inr (.inl ⟨rfl, hp⟩)) fun hp => .inl ⟨hp, _, rfl⟩
  all_goals cases h

/-- The commands at a phase of the block datapath are those of R452. -/
theorem passes_iff_job (i : Instr) {p : Phase} (s : State) (hp : p.inBlock = true) :
    passes i p = true ↔ ∃ job, jobOf i s = some job := by
  constructor
  · intro h
    rcases passes_cases s h with ⟨-, hj⟩ | ⟨-, rfl⟩ | ⟨-, rfl⟩
    · exact hj
    · cases hp
    · cases hp
  · rintro ⟨job, hj⟩
    cases i
    case encBlock | decBlock | encrypt | decrypt => simp [passes, hp]
    all_goals cases hj

theorem passes_of_inBlock {i : Instr} {p q : Phase} (h : passes i p = true) (hp : p.inBlock = true)
    (hq : q.inBlock = true) : passes i q = true :=
  (passes_iff_job i .reset hq).2 ((passes_iff_job i .reset hp).1 h)

theorem passes_ne_idle {i : Instr} {p : Phase} (h : passes i p = true) : p ≠ .idle := by
  rintro rfl
  cases i <;> cases h

theorem passes_ne_accepted {i : Instr} {p : Phase} (h : passes i p = true) : p ≠ .accepted := by
  rintro rfl
  cases i <;> cases h

/-- OBUF is read back by ENCRYPT and DECRYPT only (R472, R475). -/
theorem writtenBack_eq_zero {i : Instr} (s : State) (he : i ≠ .encrypt) (hd : i ≠ .decrypt) : writtenBack i s = 0 := by
  cases i
  case encrypt => exact absurd rfl he
  case decrypt => exact absurd rfl hd
  all_goals rfl

theorem writtenBack_decrypt {s : State} (hp : s.phase ≠ .permutedFinal) : writtenBack .decrypt s = 8 * s.blk.toNat :=
  if_neg hp

theorem writtenBack_decrypt_final {s : State} (hp : s.phase = .permutedFinal) :
    writtenBack .decrypt s = 8 * s.blk.toNat + 8 := if_pos hp

/-! ## From one position to the next -/

/-- What every step that leaves its command running keeps, but for BLK and OBUF. -/
structure GoesOn (s t : State) : Prop where
  host    : HostStateKept s t
  op      : t.op = s.op
  busy    : t.busy = s.busy
  done    : t.done = s.done
  err     : t.err = s.err
  errcode : t.errcode = s.errcode
  outLen  : t.outLen = s.outLen

/-- A step inside the datapath that leaves BLK and OBUF alone (R454 to R457). -/
theorem Running.move {i : Instr} {s t : State} (r : Running i s) (g : GoesOn s t) (hblk : t.blk = s.blk)
    (hobuf : t.obuf = s.obuf) (hs : s.phase.inBlock = true) (hs' : s.phase ≠ .permutedFinal)
    (ht : t.phase.inBlock = true) (ht' : t.phase ≠ .permutedFinal) : Running i t where
  op := g.op ▸ r.op
  position := passes_of_inBlock r.position hs ht
  checked := checkFailure_congr i g.host.cfg g.host.inLen ▸ r.checked
  blk := fun _ => by rw [hblk, blockCount_congr i g.host.inLen]; exact r.blk hs
  noBlk := fun hn => absurd (ht.symm.trans hn) (by decide)
  readBack := by
    have hw : writtenBack i t = writtenBack i s := by
      cases i
      case encrypt => simp only [writtenBack, blockCount_congr .encrypt g.host.inLen]
      case decrypt => rw [writtenBack_decrypt hs', writtenBack_decrypt ht', hblk]
      all_goals rfl
    rw [hw, hobuf]
    exact r.readBack

/-- A block enters the datapath (R453, R459). -/
theorem Running.load {i : Instr} {s : State} {job : BlockJob} {b : Nat} (r : Running i s) (hj : jobOf i s = some job)
    (hp : (s.phase = .keygen ∧ b = 0) ∨ (s.phase = .permutedFinal ∧ b = s.blk.toNat + 1)) (hb : b < job.nblk) :
    Running i (loadBlock job b s) := by
  have hblk : (loadBlock job b s).blk.toNat = b := by
    have := s.cfg.bounds
    have := nblk_le_of_checked hj r.checked
    rw [loadBlock_blk, BitVec.toNat_ofNat]
    exact Nat.mod_eq_of_lt (by omega)
  have hw : writtenBack i (loadBlock job b s) = writtenBack i s := by
    cases i
    case decrypt =>
      rw [writtenBack_decrypt (by simp), hblk]
      rcases hp with ⟨hp, rfl⟩ | ⟨hp, rfl⟩
      · rw [writtenBack_decrypt (by simp [hp]), r.noBlk (by rw [hp]; rfl)]
        rfl
      · rw [writtenBack_decrypt_final hp]
        omega
    all_goals rfl
  exact
    { op := r.op
      position := (passes_iff_job i s rfl).2 ⟨job, hj⟩
      checked := r.checked
      blk := fun _ => by rw [hblk, blockCount_congr i (loadBlock_inLen job b s), blockCount_of_job hj]; exact hb
      noBlk := nofun
      readBack := by rw [hw]; exact r.readBack }

/-- The block in X is written to OBUF (R458). -/
theorem Running.write {i : Instr} {s : State} (r : Running i s) (hp : s.phase = .swappedFinal) :
    Running i (swappedStep s) where
  op := r.op
  position := passes_of_inBlock r.position (by rw [hp]; rfl) rfl
  checked := r.checked
  blk := fun _ => r.blk (by rw [hp]; rfl)
  noBlk := nofun
  readBack := by
    have hold := r.readBack.write (8 * s.blk.toNat) (bytes (finalPermutation s.cfg s.x))
    cases i
    case encrypt => exact hold
    case decrypt =>
      rw [writtenBack_decrypt (by simp [hp])] at hold
      rw [writtenBack_decrypt_final rfl]
      refine hold.append ?_
      rw [Nat.zero_add]
      exact written_write _ _ (bytes (finalPermutation s.cfg s.x))
    all_goals exact written_zero _ _

/-- The KEYGEN action at ACCEPTED (R434), OP spelling the command and the checks having passed. -/
theorem running_keygen_first {i : Instr} {s : State} (hi : i ∈ [Instr.keyDerive, .encBlock, .decBlock, .decrypt])
    (hop : decodeOpcode s.op = some i) (hc : checkFailure i s = none) (hb : s.blk = 0) : Running i (keygenAction s) where
  op := hop
  position := by simp only [List.mem_cons, List.not_mem_nil, or_false] at hi; rcases hi with rfl | rfl | rfl | rfl <;> rfl
  checked := hc
  blk := nofun
  noBlk := fun _ => hb
  readBack := by
    have hw : writtenBack i (keygenAction s) = 0 := by
      by_cases hd : i = .decrypt
      · subst hd
        rw [writtenBack_decrypt (by simp), keygenAction_blk, hb]
        rfl
      · exact writtenBack_eq_zero _ (by rintro rfl; simp at hi) hd
    rw [hw]
    exact written_zero _ _

/-- The KEYGEN action of ENCRYPT (R474). -/
theorem Running.keygen_padded {s : State} (r : Running .encrypt s) (hp : s.phase = .padded) :
    Running .encrypt (keygenAction s) :=
  { r with
    position := rfl
    blk := nofun
    noBlk := fun _ => r.noBlk (by rw [hp]; rfl) }

/-- ENCRYPT has padded (R472): every byte it reads back is written. -/
theorem running_padded {s : State} (hop : decodeOpcode s.op = some .encrypt) (hc : checkFailure .encrypt s = none)
    (hb : s.blk = 0) : Running .encrypt (encryptPad s) where
  op := hop
  position := rfl
  checked := hc
  blk := nofun
  noBlk := fun _ => hb
  readBack := by
    have h := written_write s.obuf 0 (padBytes (message s))
    rwa [padBytes_length, message_length] at h

/-! ## Steps -/

/-- A step that leaves its command at one of its positions keeps the invariant. -/
theorem State.Inv.goesOn {i : Instr} {s t : State} (h : s.Inv) (hb : s.busy = true) (g : GoesOn s t)
    (hwf : Memory.wf t.obuf = true) (hsize : Memory.boundedBy (s.cfg.bufBytes + 8) t.obuf = true)
    (hround : t.phase ≠ .round → t.round = 0) (r : Running i t) : t.Inv := by
  have hbt : t.busy = true := g.busy.trans hb
  have flags := h.busyFlags hb
  exact
    { keyWf := g.host.key ▸ h.keyWf
      keySize := g.host.key ▸ h.keySize
      ibufWf := g.host.ibuf ▸ h.ibufWf
      ibufSize := by rw [g.host.cfg, g.host.ibuf]; exact h.ibufSize
      obufWf := hwf
      obufSize := g.host.cfg ▸ hsize
      outLenSize := by rw [g.outLen, g.host.cfg]; exact h.outLenSize
      notBoth := by rw [g.done, g.err]; exact h.notBoth
      doneCode := by rw [g.done, g.errcode]; exact h.doneCode
      errCode := by rw [g.err, g.errcode]; exact h.errCode
      failed := fun hf => absurd (g.errcode.trans flags.2.2.1) hf
      idleAt := fun hn => absurd (hbt.symm.trans hn) (by decide)
      idleOut := fun hn => absurd (hbt.symm.trans hn) (by decide)
      busyAt := fun _ => passes_ne_idle r.position
      busyFlags := fun _ => by rw [g.done, g.err, g.errcode, g.outLen]; exact flags
      roundAt := hround
      acceptedAt := fun hp => absurd hp (passes_ne_accepted r.position)
      latched := fun _ => by rw [g.op, g.host.cmdword]; exact h.latched hb
      running := fun _ _ => ⟨i, r⟩ }

/-- The same for a step that also leaves OBUF alone. -/
theorem State.Inv.goesOn_obuf {i : Instr} {s t : State} (h : s.Inv) (hb : s.busy = true) (g : GoesOn s t)
    (hobuf : t.obuf = s.obuf) (hround : t.phase ≠ .round → t.round = 0) (r : Running i t) : t.Inv :=
  h.goesOn hb g (hobuf ▸ h.obufWf) (hobuf ▸ h.obufSize) hround r

/-- While a command runs OP spells it, at ACCEPTED too (R100, log 10). -/
theorem State.Inv.decodeOpcode_op {i : Instr} {s : State} (h : s.Inv) (hb : s.busy = true)
    (hi : currentCommand s = some i) : decodeOpcode s.op = some i := by
  by_cases hp : s.phase = .accepted
  · have hd : decode s.cmdword = .ok i := by
      cases hd : decode s.cmdword <;> simp [currentCommand, hp, hd] at hi
      rw [hi]
    rw [h.latched hb]
    exact decodeOpcode_of_decode _ _ hd
  · rwa [currentCommand_of_op s hp] at hi

/-- The command of the next step is the one that runs (R117). -/
theorem State.Inv.running_current {i : Instr} {s : State} (h : s.Inv) (hb : s.busy = true)
    (hi : currentCommand s = some i) (hp : s.phase ≠ .accepted) : Running i s := by
  obtain ⟨j, r⟩ := h.running hb hp
  have hij : i = j := Option.some.inj ((h.decodeOpcode_op hb hi).symm.trans r.op)
  exact hij ▸ r

theorem goesOn_rawStep (s : State) : GoesOn s (rawStep s) :=
  ⟨⟨rfl, rfl, rfl, rfl, rfl, rfl, rfl, rfl, rfl, rfl⟩, rfl, rfl, rfl, rfl, rfl, rfl⟩

theorem goesOn_runRound (dir : Direction) (j : Nat) (s : State) : GoesOn s (runRound dir j s) :=
  ⟨⟨rfl, rfl, rfl, rfl, rfl, rfl, rfl, rfl, rfl, rfl⟩, rfl, rfl, rfl, rfl, rfl, rfl⟩

theorem goesOn_swapStep (s : State) : GoesOn s (swapStep s) :=
  ⟨⟨rfl, rfl, rfl, rfl, rfl, rfl, rfl, rfl, rfl, rfl⟩, rfl, rfl, rfl, rfl, rfl, rfl⟩

theorem goesOn_swappedStep (s : State) : GoesOn s (swappedStep s) :=
  ⟨⟨rfl, rfl, rfl, rfl, rfl, rfl, rfl, rfl, rfl, rfl⟩, rfl, rfl, rfl, rfl, rfl, rfl⟩

theorem goesOn_loadBlock (job : BlockJob) (b : Nat) (s : State) : GoesOn s (loadBlock job b s) :=
  ⟨⟨rfl, rfl, rfl, rfl, rfl, rfl, rfl, rfl, rfl, rfl⟩, rfl, rfl, rfl, rfl, rfl, rfl⟩

theorem goesOn_keygenAction (s : State) : GoesOn s (keygenAction s) :=
  ⟨⟨rfl, rfl, rfl, rfl, rfl, rfl, rfl, rfl, rfl, rfl⟩, rfl, rfl, rfl, rfl, rfl, rfl⟩

theorem goesOn_encryptPad (s : State) : GoesOn s (encryptPad s) :=
  ⟨⟨rfl, rfl, rfl, rfl, rfl, rfl, rfl, rfl, rfl, rfl⟩, rfl, rfl, rfl, rfl, rfl, rfl⟩

/-- A command's step keeps the invariant, effect by effect. -/
theorem State.Inv.exec {i : Instr} {s t : State} (h : s.Inv) (hb : s.busy = true) (hi : currentCommand s = some i)
    (hx : exec i s = .next t) : t.Inv := by
  have hop := h.decodeOpcode_op hb hi
  have hlatch : { s with op := opcField s.cmdword } = s := by rw [← h.latched hb]
  have running : ∀ {p : Phase}, s.phase = p → p ≠ .accepted → Running i s :=
    fun hp hne => h.running_current hb hi (hp ▸ hne)
  have atRound : ∀ {p : Phase}, s.phase = p → p ≠ .round → s.round = 0 := fun hp hne => h.roundAt (hp ▸ hne)
  cases exec_effect hx with
  | failed code d u hu hc ht =>
    rw [ht, hu.eq_of_inv h hb]
    exact (h.drew d).finishErr hc
  | delivered out d u hu hlen ht =>
    rw [ht, hu.eq_of_inv h hb]
    exact (h.drew d).deliver hb hlen
  | ended job hj hp n d hn ht =>
    rw [ht]
    exact (h.drew d).finishOk (hn.trans (nblk_le_of_checked hj (running hp nofun).checked))
  | padded hi' hp hc ht =>
    rw [hlatch] at ht
    subst hi' ht
    have hsize : 0 + (padBytes (message s)).length ≤ s.cfg.bufBytes + 8 := by
      have := nblk_le_of_checked (job := encryptJob s) rfl hc
      rwa [padBytes_length, message_length, Nat.zero_add]
    exact h.goesOn hb (goesOn_encryptPad s) (Memory.wf_write _ _ _ h.obufWf)
      (Memory.boundedBy_write _ _ _ _ h.obufSize hsize) (fun _ => atRound hp nofun)
      (running_padded hop hc (h.acceptedAt hp))
  | derivedFirst hi' hp hc ht =>
    rw [hlatch] at ht
    subst ht
    exact h.goesOn_obuf hb (goesOn_keygenAction s) rfl (fun _ => atRound hp nofun)
      (running_keygen_first hi' hop hc (h.acceptedAt hp))
  | derivedPadded hi' hp ht =>
    subst hi' ht
    exact h.goesOn_obuf hb (goesOn_keygenAction s) rfl (fun _ => atRound hp nofun)
      ((running hp nofun).keygen_padded hp)
  | loaded job hj b hp hlt ht =>
    subst ht
    have r : Running i s := hp.elim (fun hp => running hp.1 nofun) fun hp => running hp.1 nofun
    exact h.goesOn_obuf hb (goesOn_loadBlock job b s) rfl (fun _ => rfl) (r.load hj hp hlt)
  | split hp ht =>
    subst ht
    exact h.goesOn_obuf hb (goesOn_rawStep s) rfl (fun _ => atRound hp nofun)
      ((running hp nofun).move (goesOn_rawStep s) rfl rfl (by rw [hp]; rfl) (by simp [hp]) rfl nofun)
  | round hp dir j ht =>
    subst ht
    have r : Running i s := hp.elim (fun hp => running hp nofun) fun hp => running hp nofun
    have hin : s.phase.inBlock = true ∧ s.phase ≠ .permutedFinal := by rcases hp with hp | hp <;> simp [hp, Phase.inBlock]
    exact h.goesOn_obuf hb (goesOn_runRound dir j s) rfl (fun hne => absurd rfl hne)
      (r.move (goesOn_runRound dir j s) rfl rfl hin.1 hin.2 rfl nofun)
  | swapped hp ht =>
    subst ht
    exact h.goesOn_obuf hb (goesOn_swapStep s) rfl (fun _ => rfl)
      ((running hp nofun).move (goesOn_swapStep s) rfl rfl (by rw [hp]; rfl) (by simp [hp]) rfl nofun)
  | wrote hp ht =>
    subst ht
    have r := running hp nofun
    have hin : s.phase.inBlock = true := by rw [hp]; rfl
    obtain ⟨job, hj⟩ := (passes_iff_job i s hin).1 r.position
    have hsize : 8 * s.blk.toNat + (bytes (finalPermutation s.cfg s.x)).length ≤ s.cfg.bufBytes + 8 := by
      have hblk := r.blk hin
      have hle := nblk_le_of_checked hj r.checked
      rw [blockCount_of_job hj] at hblk
      rw [bytes_length]
      omega
    exact h.goesOn hb (goesOn_swappedStep s) (Memory.wf_write _ _ _ h.obufWf)
      (Memory.boundedBy_write _ _ _ _ h.obufSize hsize) (fun _ => atRound hp nofun) (r.write hp)

theorem State.Inv.sequencerStep {s t : State} (h : s.Inv) (hx : sequencerStep s = .next t) : t.Inv := by
  rcases sequencerStep_cases s t hx with ⟨-, rfl⟩ | ⟨hb, i, hi, hx⟩ | ⟨-, -, -, rfl⟩
  · exact h
  · exact h.exec hb hi hx
  · exact h.finishErr (by decide)

/-- Settles O54: a turn of the sequencer, a host transaction and a hardware reset each keep the invariant. -/
theorem everyStepKeepsInvariant : Obligations.EveryStepKeepsInvariant := by
  intro s t h hx
  rcases step_cases s t hx with ⟨s', hs', hx⟩ | ⟨tr, rest, -, hx⟩ | ⟨rest, -, rfl⟩
  · have h' : s'.Inv := by
      rcases hs' with ⟨-, rfl⟩ | ⟨rest, -, rfl⟩
      · exact h
      · exact h.withEvents rest
    exact h'.sequencerStep hx
  · exact (h.withEvents rest).busTransaction hx
  · exact .hardwareReset _

/-! ## Progress (R117, U10) -/

theorem blockStep_progress (job : BlockJob) (endAction : State → State) {s : State}
    (h : s.phase = .keygen ∨ s.phase.inBlock = true) : ∃ t, blockStep job endAction s = .next t := by
  cases hp : s.phase <;> simp [hp, Phase.inBlock] at h <;> simp [blockStep, hp]

/-- At a position of its own a command has a next step. -/
theorem exec_progress {i : Instr} {s : State} (h : s.phase = .accepted ∨ passes i s.phase = true) :
    ∃ t, exec i s = .next t := by
  rcases h with hp | hpos
  · rw [exec_accepted i s hp]
    cases checkFailure i s <;> exact ⟨_, rfl⟩
  · rcases passes_cases s hpos with ⟨hb, job, hj⟩ | ⟨rfl, hp⟩ | ⟨rfl, hp⟩
    · rw [exec_block i s job hj hb]
      exact blockStep_progress job _ hb
    · exact ⟨_, exec_encrypt_padded s hp⟩
    · exact ⟨_, exec_keyDerive_keygen s hp⟩

/-- Settles O55: an idle core waits, an accepted word is legal or not, and a running command stands at its position. -/
theorem sequencerNeverStops : Obligations.SequencerNeverStops := by
  intro s h
  rw [stepSequencer_eq]
  cases hb : s.busy with
  | false => exact ⟨s, sequencerStep_idle s hb⟩
  | true =>
    by_cases hp : s.phase = .accepted
    · cases hd : decode s.cmdword with
      | error e => exact ⟨_, sequencerStep_illegal s e hb hp hd⟩
      | ok i =>
        rw [sequencerStep_busy s i hb (by simp [currentCommand, hp, hd])]
        exact exec_progress (.inl hp)
    · obtain ⟨i, r⟩ := h.running hb hp
      rw [sequencerStep_busy s i hb (by rw [currentCommand_of_op s hp, r.op])]
      exact exec_progress (.inr r.position)

end Sys2Proof.Machine
end

section
/-! SUPPORT. What the host reads and writes word by word: the fields of the register words (R103 to R111), and the byte
lanes of the buffer words (R203). -/

namespace Sys2Proof.Machine

/-! ## Accesses by offset -/

theorem readDraws_eq_zero {r : Reg} (s : State) (h : hostBytes r s = []) : readDraws r s = 0 := by
  rw [readDraws, h]; rfl

/-- A read of a word that no buffer backs draws nothing. -/
theorem stepRead_register {off : Nat} {s : State} (h : WordOffset off)
    (hr : hostBytes (regAt s.cfg.bufBytes off) s = []) :
    stepRead off s = .next { s with response := .data (readWord (regAt s.cfg.bufBytes off) s) } := by
  rw [stepRead_eq off s h, readDraws_eq_zero s hr, Nat.add_zero]

/-- While BUSY = 0 a host write is performed (R710). -/
theorem stepWrite_idle {off : Nat} (v : Word) {s : State} (h : WordOffset off) (hb : s.busy = false) :
    stepWrite off v s = .next { writeWord (regAt s.cfg.bufBytes off) v s with response := .written } := by
  rw [stepWrite_eq off v s h, hostWriteReg_idle _ v hb]

/-- Settles O37: the write is performed, and `accept` clears DONE and ERR. -/
theorem cmdWriteIsAccepted : Obligations.CmdWriteIsAccepted := fun s v hb =>
  ⟨stepWrite_idle v ⟨by decide, by decide⟩ hb, by simp [irq]⟩

/-! ## ID, PARAM, STATUS and CTRL -/

theorem idWord_eq : idWord = 0x46430107 := by decide

/-- R111: BUF_BYTES fits in PARAM[15:0]. -/
theorem paramWord_fields (c : Config) :
    ((paramWord c).extractLsb' 0 16).toNat = c.bufBytes ∧ (paramWord c).extractLsb' 16 16 = 0 := by
  have hb := c.bounds
  constructor
  · rw [paramWord, BitVec.extractLsb'_append_eq_right, BitVec.toNat_ofNat]
    exact Nat.mod_eq_of_lt (by omega)
  · exact BitVec.extractLsb'_append_eq_left

/-- Settles O40: two register words that no state but the parameters enters. -/
theorem idAndParamRead : Obligations.IdAndParamRead := fun s =>
  ⟨⟨_, stepRead_register ⟨by decide, by decide⟩ rfl, congrArg Response.data idWord_eq⟩,
    ⟨_, _, stepRead_register ⟨by decide, by decide⟩ rfl, rfl, paramWord_fields s.cfg⟩⟩

/-- The four flags of STATUS (R105). -/
theorem statusWord_flags (s : State) :
    (statusWord s).getLsbD 0 = s.busy ∧ (statusWord s).getLsbD 1 = s.done ∧ (statusWord s).getLsbD 2 = s.err ∧
      (statusWord s).getLsbD 3 = s.werr := by
  simp only [statusWord, BitVec.getLsbD_append, BitVec.getLsbD_ofBool, Nat.reduceLT, Nat.reduceSub, if_true, if_false,
    decide_true, Bool.true_and, and_self]

/-- The wider fields of STATUS (R105). -/
theorem statusWord_fields (s : State) :
    (statusWord s).extractLsb' 4 4 = s.errcode.code ∧ (statusWord s).extractLsb' 8 4 = s.phase.code ∧
      (statusWord s).extractLsb' 12 4 = s.round ∧ (statusWord s).extractLsb' 16 16 = s.blk := by
  refine ⟨?_, ?_, ?_, ?_⟩ <;>
    simp (disch := decide) only [statusWord, BitVec.extractLsb'_append_eq_of_le, BitVec.extractLsb'_append_eq_of_add_le,
      BitVec.extractLsb'_eq_self, Nat.reduceSub, Nat.sub_self]

/-- Settles O42: the fields of the word read, and the W1C write. -/
theorem statusFieldsAndWriteOneToClear : Obligations.StatusFieldsAndWriteOneToClear := by
  intro s v
  obtain ⟨hbusy, hdone, herr, hwerr⟩ := statusWord_flags s
  obtain ⟨hcode, hphase, hround, hblk⟩ := statusWord_fields s
  refine ⟨⟨_, statusWord s, stepRead_register ⟨by decide, by decide⟩ rfl, rfl, hbusy, hdone, herr, hwerr, ?_, ?_,
    hround, hblk⟩, ⟨_, stepWrite_eq 0x008 v s ⟨by decide, by decide⟩, ?_⟩⟩
  · rw [hcode]; cases s.errcode <;> rfl
  · rw [hphase]; cases s.phase <;> rfl
  · rw [regAt_status, hostWriteReg_unprotected v s rfl]
    exact ⟨rfl, rfl, rfl, rfl⟩

/-- R104: IRQ_EN in bit 1, and every other bit 0. -/
theorem ctrlWord_getLsbD (s : State) (i : Nat) : (ctrlWord s).getLsbD i = (decide (i = 1) && s.irqEn) := by
  match i with
  | 0 => rw [ctrlWord, BitVec.getLsbD_append, if_pos (by omega)]; simp
  | 1 => rw [ctrlWord, BitVec.getLsbD_append, if_neg (by omega), BitVec.getLsbD_append, if_pos (by omega)]; simp
  | i + 2 => rw [ctrlWord, BitVec.getLsbD_append, if_neg (by omega), BitVec.getLsbD_append, if_neg (by omega)]; simp

/-- Settles O43: each register read, and for KEY_LEN and IN_LEN the read after the write. -/
theorem controlAndLengthRegistersReadBack : Obligations.ControlAndLengthRegistersReadBack := by
  intro s v
  refine ⟨⟨_, _, stepRead_register ⟨by decide, by decide⟩ rfl, rfl, ctrlWord_getLsbD s⟩,
    stepRead_register ⟨by decide, by decide⟩ rfl, stepRead_register ⟨by decide, by decide⟩ rfl, fun hb => ⟨?_, ?_⟩⟩
  · exact ⟨_, stepWrite_idle v ⟨by decide, by decide⟩ hb, rfl, stepRead_register ⟨by decide, by decide⟩ rfl⟩
  · exact ⟨_, stepWrite_idle v ⟨by decide, by decide⟩ hb, rfl, stepRead_register ⟨by decide, by decide⟩ rfl⟩

/-! ## Byte lanes (R203) -/

theorem packWord_lane (bs : List Byte) {k : Nat} (hk : k < 4) : (packWord bs).extractLsb' (8 * k) 8 = bs.getD k 0 := by
  match k with
  | 0 | 1 | 2 | 3 =>
    simp (disch := decide) only [packWord, BitVec.extractLsb'_append_eq_of_le, BitVec.extractLsb'_append_eq_of_add_le,
      BitVec.extractLsb'_eq_self, Nat.reduceSub, Nat.reduceMul, Nat.sub_self]

theorem unpackWord_getElem? (v : Word) {k : Nat} (hk : k < 4) : (unpackWord v)[k]? = some (v.extractLsb' (8 * k) 8) := by
  match k with
  | 0 | 1 | 2 | 3 => rfl

theorem packWord_unpackWord (v : Word) : packWord (unpackWord v) = v := by
  show v.extractLsb' 24 8 ++ v.extractLsb' 16 8 ++ v.extractLsb' 8 8 ++ v.extractLsb' 0 8 = v
  rw [BitVec.extractLsb'_append_extractLsb'_eq_extractLsb' (show 24 = 16 + 8 from rfl),
    BitVec.extractLsb'_append_extractLsb'_eq_extractLsb' (show 16 = 8 + 8 from rfl),
    BitVec.extractLsb'_append_extractLsb'_eq_extractLsb' (show 8 = 0 + 8 from rfl)]
  exact BitVec.extractLsb'_eq_self

/-- A word written to a buffer: its bytes, the bytes around it, and the word read back (R203). -/
theorem write_unpackWord (m : Memory) (a : Nat) (v : Word) :
    (∀ k, k < 4 → Memory.get? (m.write a (unpackWord v)) (a + k) = some (v.extractLsb' (8 * k) 8)) ∧
    (∀ i, (i < a ∨ a + 4 ≤ i) → Memory.get? (m.write a (unpackWord v)) i = Memory.get? m i) ∧
    ∀ d, packWord ((m.write a (unpackWord v)).read a 4 d) = v := by
  refine ⟨fun k hk => ?_, fun i hi => Memory.get?_write_other m a _ i hi, fun d => ?_⟩
  · rw [Memory.get?_write, if_pos ⟨Nat.le_add_right .., Nat.add_lt_add_left hk a⟩, Nat.add_sub_cancel_left]
    exact unpackWord_getElem? v hk
  · exact (congrArg packWord (Memory.read_write_same m a d (unpackWord v))).trans (packWord_unpackWord v)

/-- A word read from a buffer carries each written byte in its lane (R203). -/
theorem packWord_memRead_lane (b : Buf) (a : Nat) (s : State) {k : Nat} {x : Byte} (hk : k < 4)
    (hx : Memory.get? (s.buffer b) (a + k) = some x) : (packWord (memRead b a 4 s)).extractLsb' (8 * k) 8 = x := by
  rw [packWord_lane _ hk, List.getD_eq_getElem?_getD, memRead_getElem?_of_written b a 4 s hk hx, Option.getD_some]

/-- KEY0 and KEY1 (R202). -/
theorem regAt_key_word (n : Nat) {j : Nat} (h : j < 2) : regAt n (0x020 + 4 * j) = .key (4 * j) := by
  match j with
  | 0 | 1 => rfl

/-- Settles O44: the lanes of a write and of the read after it for IBUF and KEY, and of a read of OBUF. -/
theorem bufferWordsUseLittleEndianLanes : Obligations.BufferWordsUseLittleEndianLanes := by
  intro s v j hb
  have hbuf := s.cfg.bounds
  refine ⟨fun hj => ?_, fun hj => ?_, fun hj => ?_⟩
  · have ho : WordOffset (0x1000 + 4 * j) := ⟨by omega, by omega⟩
    have hr := regAt_ibuf_word s.cfg.bufBytes j hj
    obtain ⟨hbytes, hframe, hback⟩ := write_unpackWord s.ibuf (4 * j) v
    refine ⟨_, stepWrite_idle v ho hb, ?_⟩
    rw [hr]
    refine ⟨rfl, hbytes, hframe, _, stepRead_eq _ _ ho, ?_⟩
    simp only [writeWord, hr, readWord, hostBytes, memRead, State.buffer, hback]
  · have ho : WordOffset (0x020 + 4 * j) := ⟨by omega, by omega⟩
    have hr := regAt_key_word s.cfg.bufBytes hj
    obtain ⟨hbytes, hframe, hback⟩ := write_unpackWord s.key (4 * j) v
    refine ⟨_, stepWrite_idle v ho hb, ?_⟩
    rw [hr]
    refine ⟨rfl, hbytes, hframe, _, stepRead_eq _ _ ho, ?_⟩
    simp only [writeWord, hr, readWord, hostBytes, memRead, State.buffer, hback]
  · refine ⟨_, packWord (memRead .obuf (4 * j) 4 s), stepRead_eq (0x2000 + 4 * j) s ⟨by omega, by omega⟩, ?_,
      fun k x hk hx => packWord_memRead_lane .obuf (4 * j) s hk hx⟩
    simp [regAt_obuf_word s.cfg j hj, readWord, hostBytes, hb]

/-! ## The hidden output (R114, R711) -/

/-- While BUSY = 1 a word of the OBUF window is made of free values only. -/
theorem readWord_obuf_busy (b : Nat) {s : State} (hb : s.busy = true) :
    readWord (.obuf b) s = packWord (Memory.read [] b 4 s.draws) := by simp [readWord, hostBytes, hb]

/-- Settles O45: what the read returns names no byte of OBUF. -/
theorem outputIsHiddenWhileBusy : Obligations.OutputIsHiddenWhileBusy := by
  intro s m off hb ho hlo hhi
  refine ⟨_, _, stepRead_eq off s ho, stepRead_eq off { s with obuf := m } ho, ?_⟩
  simp only [regAt_obuf s.cfg off hlo hhi]
  rw [readWord_obuf_busy _ hb, readWord_obuf_busy (s := { s with obuf := m }) _ hb]

end Sys2Proof.Machine
end

section
/-! SUPPORT. Frames of the host's transactions: what a read and an access that is not a word access leave unchanged
(R201, R204, R207), and what no transaction but a soft reset takes from a running command (R710). -/

namespace Sys2Proof.Machine

/-! ## Accesses that are not word accesses (R201, R603) -/

theorem inWindow_eq_true {tr : Transaction} {base off : Nat} (ha : tr.addr = base + off) (ho : off < 0x4000) :
    tr.inWindow base = true := by
  simp [Transaction.inWindow, ha, ho]

theorem wordAccess_eq_false {tr : Transaction} {base off : Nat} (ha : tr.addr = base + off)
    (h : tr.width ≠ 4 ∨ off % 4 ≠ 0) : tr.wordAccess base = false := by
  rw [Transaction.wordAccess, ha, Nat.add_sub_cancel_left, Bool.and_eq_false_iff]
  exact h.imp beq_false_of_ne beq_false_of_ne

theorem busTransaction_write_busError {s : State} {a w : Nat} {v : Word}
    (hin : (Transaction.write a w v).inWindow s.cfg.base = true)
    (hword : (Transaction.write a w v).wordAccess s.cfg.base = false) :
    busTransaction (.write a w v) s = .next { s with response := .busError } := by
  simp [busTransaction, hin, hword]

theorem busTransaction_read_fault {s : State} {a w : Nat}
    (hin : (Transaction.read a w).inWindow s.cfg.base = true)
    (hword : (Transaction.read a w).wordAccess s.cfg.base = false) :
    busTransaction (.read a w) s = .fault .busErrorOnRead := by
  simp [busTransaction, hin, hword]

/-- Settles O46: such an access lies in the window and is no word access, whether it reads or writes. -/
theorem misalignedOrNarrowAccessGetsBusError : Obligations.MisalignedOrNarrowAccessGetsBusError :=
  fun _ _ _ _ ho h =>
    ⟨busTransaction_write_busError (inWindow_eq_true rfl ho) (wordAccess_eq_false rfl h),
      busTransaction_read_fault (inWindow_eq_true rfl ho) (wordAccess_eq_false rfl h)⟩

/-! ## Reads (R207) and reserved offsets (R204) -/

/-- Settles O39: of the transactions that answer a next state only a word read is a read. -/
theorem readsHaveNoSideEffects : Obligations.ReadsHaveNoSideEffects := by
  intro s t off h
  rcases busTransaction_cases _ s t h with ⟨off, -, -, -, rfl⟩ | ⟨off, v, -, -, htr, -⟩ | ⟨a, w, v, htr, -, -⟩
  · rfl
  · cases htr
  · cases htr

/-- Settles O41: the address map gives the offset to no register, and such a write is not one R710 drops. -/
theorem reservedOffsetsReadZeroIgnoreWrites : Obligations.ReservedOffsetsReadZeroIgnoreWrites := by
  intro s off v ho hres
  have hr := regAt_reserved s.cfg off hres
  constructor
  · rw [stepRead_register ho (by rw [hr]; rfl), hr]
    rfl
  · rw [stepWrite_eq off v s ho, hr, hostWriteReg_unprotected v s rfl]
    rfl

/-! ## The running command (R710) -/

/-- While BUSY = 1 a write that is no soft reset changes only IRQ_EN, WERR, DONE and ERR, and can only clear the last
two. -/
theorem WriteEffect.frame_of_busy {n off : Nat} {v : Word} {s t : State} (h : WriteEffect n off v s t)
    (hb : s.busy = true) (hsrst : off = 0x004 → v.getLsbD 0 = false) :
    t = { s with irqEn := t.irqEn, werr := t.werr, done := t.done, err := t.err } ∧
      (s.done = false → t.done = false) ∧ (s.err = false → t.err = false) := by
  cases h with
  | ignored ht => subst t; exact ⟨rfl, id, id⟩
  | dropped _ ht => subst t; exact ⟨rfl, id, id⟩
  | reset ho hv => exact absurd hv (ne_true_of_eq_false (hsrst ho))
  | ctrl _ _ ht => subst t; exact ⟨rfl, id, id⟩
  | status _ ht => subst t; exact ⟨rfl, fun hd => by simp [hd], fun he => by simp [he]⟩
  | cmd _ hidle | keyLen _ hidle | inLen _ hidle | key _ _ _ hidle | ibuf _ _ _ hidle =>
    exact absurd hb (ne_true_of_eq_false hidle)

/-- While BUSY = 1 a transaction that is no soft reset changes only those flags and the model's records. -/
theorem busTransaction_frame_of_busy {tr : Transaction} {s t : State} (h : busTransaction tr s = .next t)
    (hb : s.busy = true) (hsrst : ∀ v, tr = .write (s.cfg.base + 0x004) 4 v → v.getLsbD 0 = false) :
    t = { s with
        irqEn := t.irqEn, werr := t.werr, done := t.done, err := t.err, draws := t.draws, response := t.response } ∧
      (s.done = false → t.done = false) ∧ (s.err = false → t.err = false) := by
  rcases busTransaction_cases tr s t h with ⟨off, -, -, -, rfl⟩ | ⟨off, v, -, -, htr, rfl⟩ | ⟨a, w, v, -, -, rfl⟩
  · exact ⟨rfl, id, id⟩
  · obtain ⟨hframe, hdone, herr⟩ := (hostWriteReg_effect s.cfg.bufBytes off v s).frame_of_busy hb
      fun ho => hsrst v (by rw [htr, ho])
    exact ⟨by rw [hframe], hdone, herr⟩
  · exact ⟨rfl, id, id⟩

/-- Settles O47: none of the fields a transaction changes belongs to the command, and in a state that meets the invariant
DONE and ERR are clear already. -/
theorem hostCannotDisturbRunningCommand : Obligations.HostCannotDisturbRunningCommand := by
  intro s t tr hb h hsrst
  obtain ⟨hframe, hdone, herr⟩ := busTransaction_frame_of_busy h hb hsrst
  iterate 18 refine ⟨by rw [hframe], ?_⟩
  intro hi
  obtain ⟨hd, he, -, -⟩ := hi.busyFlags hb
  exact ⟨(hdone hd).trans hd.symm, (herr he).trans he.symm⟩

end Sys2Proof.Machine
end

section
/-! SUPPORT. The command word (R300 to R303): what `decode` answers, in terms of its two fields and of `opcode`, and
which step of the sequencer a word leads to. -/

namespace Sys2Proof.Machine

/-! ## The opcode map (R301, R302) -/

/-- The rows of the map name the OPC of their command. -/
theorem opcodeMap_fst : ∀ row ∈ opcodeMap, row.1 = opcode row.2 := by decide

theorem decodeOpcode_opcode (i : Instr) : decodeOpcode (opcode i) = some i := by cases i <;> rfl

theorem decodeOpcode_eq_some_iff (opc : BitVec 8) (i : Instr) : decodeOpcode opc = some i ↔ opc = opcode i := by
  constructor
  · intro h
    obtain ⟨row, hrow, rfl⟩ := Option.map_eq_some_iff.1 h
    have hopc : row.1 = opc := by simpa using List.find?_some hrow
    rw [← hopc, opcodeMap_fst row (List.mem_of_find?_eq_some hrow)]
  · rintro rfl
    exact decodeOpcode_opcode i

/-- R302: the reserved OPC values are the four gaps of the map. -/
theorem decodeOpcode_eq_none_iff (opc : BitVec 8) : decodeOpcode opc = none ↔
    opc.toNat ≤ 0x0F ∨ (0x16 ≤ opc.toNat ∧ opc.toNat ≤ 0x1F) ∨ (0x23 ≤ opc.toNat ∧ opc.toNat ≤ 0x2F) ∨
      0x34 ≤ opc.toNat := by
  have hmap : decodeOpcode opc = none ↔ ∀ row ∈ opcodeMap, row.1.toNat ≠ opc.toNat := by
    simp [decodeOpcode, List.find?_eq_none, BitVec.toNat_inj]
  rw [hmap]
  simp only [opcodeMap, List.forall_mem_cons, List.not_mem_nil, false_implies, implies_true, and_true,
    BitVec.reduceToNat]
  omega

/-! ## The word (R300, R303) -/

theorem rsvField_append_opcField (w : Word) : rsvField w ++ opcField w = w := by
  show w.extractLsb' 8 24 ++ w.extractLsb' 0 8 = w
  rw [BitVec.extractLsb'_append_extractLsb'_eq_extractLsb' (show 8 = 0 + 8 from rfl)]
  exact BitVec.extractLsb'_eq_self

theorem opcField_toNat (w : Word) : (opcField w).toNat = w.toNat % 256 := by simp [opcField]

theorem decode_of_rsvField {w : Word} (h : rsvField w ≠ 0#24) : decode w = .error .reservedBitsSet := if_neg h

/-- With RSV = 0 the word is legal exactly when its OPC is listed. -/
theorem decode_of_opcField {w : Word} (h : rsvField w = 0#24) :
    decode w = (decodeOpcode (opcField w)).elim (.error .unassignedOpcode) .ok := by
  rw [decode, if_pos h]
  cases decodeOpcode (opcField w) <;> rfl

theorem decode_encode (i : Instr) : decode (encode i) = .ok i := by cases i <;> rfl

/-- R300: the legal words, field by field. -/
theorem decode_eq_ok_iff (w : Word) (i : Instr) : decode w = .ok i ↔ rsvField w = 0#24 ∧ opcField w = opcode i := by
  by_cases hr : rsvField w = 0#24
  · rw [decode_of_opcField hr, ← decodeOpcode_eq_some_iff]
    cases decodeOpcode (opcField w) <;> simp [hr]
  · simp [decode_of_rsvField hr, hr]

/-- R302: the illegal words, field by field. -/
theorem decode_eq_error_iff (w : Word) :
    (∃ e, decode w = .error e) ↔ rsvField w ≠ 0#24 ∨ decodeOpcode (opcField w) = none := by
  by_cases hr : rsvField w = 0#24
  · rw [decode_of_opcField hr]
    cases decodeOpcode (opcField w) <;> simp [hr]
  · simp [decode_of_rsvField hr, hr]

/-- Settles O6: a legal word is made of RSV = 0 and the command's OPC, which is how `encode` makes it. -/
theorem decodeEncodeAgree : Obligations.DecodeEncodeAgree := by
  intro w i
  constructor
  · intro h
    obtain ⟨hrsv, hopc⟩ := (decode_eq_ok_iff w i).1 h
    rw [← rsvField_append_opcField w, hrsv, hopc]
    rfl
  · rintro rfl
    exact decode_encode i

/-- Settles O5: each word of the map is the one its command encodes to. -/
theorem opcodeMapWordsDecode : Obligations.OpcodeMapWordsDecode :=
  ⟨decode_encode .permIp, decode_encode .permFp, decode_encode .permE, decode_encode .permP, decode_encode .subst,
    decode_encode .fround, decode_encode .keyDerive, decode_encode .encBlock, decode_encode .decBlock,
    decode_encode .pad, decode_encode .unpad, decode_encode .encrypt, decode_encode .decrypt⟩

/-! ## The step a word leads to (R300, R321, R605 check 1) -/

theorem currentCommand_of_decode {i : Instr} {s : State} (hp : s.phase = .accepted) (h : decode s.cmdword = .ok i) :
    currentCommand s = some i := by simp [currentCommand, hp, h]

/-- Settles O8: the position says whether the command is read from CMDWORD or from OP. -/
theorem stepRunsDecodedCommand : Obligations.StepRunsDecodedCommand := by
  intro s i hb h
  have hcur : currentCommand s = some i := by
    rcases h with ⟨hp, hd⟩ | ⟨hp, ho⟩
    · exact currentCommand_of_decode hp hd
    · rw [currentCommand_of_op s hp, ho]
  have hstep := sequencerStep_busy s i hb hcur
  exact ⟨(stepSequencer_eq s).trans hstep, fun he => (step_noEvents s he).trans hstep⟩

/-- R610. -/
theorem finishErr_finishedErr (code : ErrCode) (s : State) : FinishedErr code (finishErr code s) :=
  ⟨rfl, rfl, rfl, rfl, rfl, rfl, rfl, rfl, fun _ => rfl⟩

/-- Settles O7: the reserved OPC values are the gaps of the map, and the step of an illegal word is finish_err. -/
theorem illegalWordsEndWithIllegalCommand : Obligations.IllegalWordsEndWithIllegalCommand := by
  constructor
  · intro w
    rw [decode_eq_error_iff, decodeOpcode_eq_none_iff, opcField_toNat]
    rfl
  · intro s e hb hp he
    exact ⟨_, sequencerStep_illegal s e hb hp he, finishErr_finishedErr _ s,
      finishErr_hostStateKept .illegalCommand 0 s, rfl, rfl⟩

end Sys2Proof.Machine
end

section
/-! SUPPORT. When the checks of R605 pass, and how a step leaves BUSY: by one finish, or not at all (R322, R606, R610). -/

namespace Sys2Proof.Machine

/-! ## The checks of R605 and the KEYGEN action -/

/-- R605: what the three checks of a legal word ask. -/
theorem checkFailure_eq_none_iff (i : Instr) (s : State) : checkFailure i s = none ↔
    (∀ n ∈ requiredLength i, s.inLen.toNat = n) ∧ (variableLength i = true → s.inLen.toNat ≤ s.cfg.bufBytes) ∧
      (i = .decrypt → s.inLen.toNat % 8 = 0) := by
  have hreq : ((requiredLength i).any fun n => s.inLen.toNat != n) = true ↔
      ¬ ∀ n ∈ requiredLength i, s.inLen.toNat = n := by cases requiredLength i <;> simp
  have hbound : (variableLength i && decide (s.cfg.bufBytes < s.inLen.toNat)) = true ↔
      ¬ (variableLength i = true → s.inLen.toNat ≤ s.cfg.bufBytes) := by simp
  have hmult : (i = .decrypt ∧ s.inLen.toNat % 8 ≠ 0) ↔ ¬ (i = .decrypt → s.inLen.toNat % 8 = 0) := by simp
  simp only [checkFailure, hreq, hbound, hmult, ite_not]
  split_ifs with hlen hmax hblock
  · exact iff_of_true rfl ⟨hlen, hmax, hblock⟩
  · exact iff_of_false nofun fun h => hblock h.2.2
  · exact iff_of_false nofun fun h => hmax h.2.1
  · exact iff_of_false nofun fun h => hlen h.1

/-- Settles O16: the checks pass, and the first action of the four commands is the KEYGEN action. -/
theorem keyedCommandsDeriveAtAccepted : Obligations.KeyedCommandsDeriveAtAccepted := by
  intro i s hp h
  have hc : checkFailure i s = none := by
    rw [checkFailure_eq_none_iff]
    rcases h with rfl | ⟨rfl | rfl, h⟩ | ⟨rfl, hle, h⟩
    · exact ⟨nofun, nofun, nofun⟩
    · simpa [requiredLength, variableLength] using h
    · simpa [requiredLength, variableLength] using h
    · simpa [requiredLength, variableLength] using ⟨hle, h⟩
  rw [exec_accepted i s hp, hc]
  rcases h with rfl | ⟨rfl | rfl, -⟩ | ⟨rfl, -⟩ <;> rfl

/-! ## Ends of commands -/

/-- R322, for a length that OUT_LEN can hold. -/
theorem finishOk_finishedOk {n : Nat} (hn : n < 2 ^ 32) (s : State) : FinishedOk n (finishOk n s) :=
  ⟨rfl, rfl, rfl, rfl, rfl, rfl, rfl, by rw [finishOk_outLen, BitVec.toNat_ofNat, Nat.mod_eq_of_lt hn]⟩

/-- R114: what finish_ok(n) leaves from OBUF[n] on. -/
theorem finishOk_get?_obuf_beyond {n a : Nat} (h : n ≤ a) (s : State) : Memory.get? (finishOk n s).obuf a = none := by
  rw [finishOk_obuf, Memory.get?_below, if_neg (by omega)]

/-- A step from PERMUTED_FINAL that ends the command is that of the last block (R459). -/
theorem nblk_le_of_ends {i : Instr} {s t : State} {job : BlockJob} (hj : jobOf i s = some job)
    (hp : s.phase = .permutedFinal) (hb : s.busy = true) (h : exec i s = .next t) (ht : t.busy = false) :
    job.nblk ≤ s.blk.toNat + 1 := by
  rw [exec_block i s job hj (.inr (by rw [hp]; rfl))] at h
  by_contra hlt
  have hload : loadBlock job (s.blk.toNat + 1) s = t := by
    simpa [blockStep, hp, permutedStep, Nat.lt_of_not_le hlt] using h
  rw [← hload, loadBlock_busy, hb] at ht
  cases ht

/-- Settles O34: by effect, a failure, a delivered result and an end action finish; every other effect keeps the flags. -/
theorem commandsEndOnlyByFinish : Obligations.CommandsEndOnlyByFinish := by
  intro i s t hb h
  cases exec_effect h with
  | failed code d u hu hc ht => exact .inr (.inr ⟨code, hc, ht ▸ finishErr_finishedErr code _⟩)
  | delivered out d u hu hlen ht =>
    have hcfg := s.cfg.bounds
    subst ht
    exact .inr (.inl ⟨out.length, finishOk_finishedOk (by omega) _, fun a ha => finishOk_get?_obuf_beyond ha _⟩)
  | ended job hj hp n d hn ht =>
    subst ht
    have hle := nblk_le_of_ends hj hp hb h rfl
    have hblk := s.blk.isLt
    exact .inr (.inl ⟨n, finishOk_finishedOk (by omega) _, fun a ha => finishOk_get?_obuf_beyond ha _⟩)
  | _ => subst t; exact .inl ⟨hb, rfl, rfl, rfl, rfl, nofun⟩

end Sys2Proof.Machine
end

section
/-! SUPPORT. How many steps a running command still takes (R721): a count that every position of R117 has, that each step
lowers by one, and that stands at 1 where a step ends the command. -/

namespace Sys2Proof.Machine

/-- The core has ended its command, with exactly one of DONE and ERR (R606). -/
structure Ended (t : State) : Prop where
  busy   : t.busy = false
  oneSet : t.done = !t.err

theorem ended_finishOk (n : Nat) (s : State) : Ended (finishOk n s) := ⟨rfl, rfl⟩

theorem ended_finishErr (code : ErrCode) (s : State) : Ended (finishErr code s) := ⟨rfl, rfl⟩

theorem ended_deliver (out : List Byte) (s : State) : Ended (deliver out s) := ended_finishOk ..

theorem ended_deliverUnpadded (c : List Byte) (s : State) : Ended (deliverUnpadded c s) := by
  unfold deliverUnpadded
  split
  · exact ended_deliver ..
  · exact ended_finishErr ..

/-- Every end action ends its command (R452). -/
theorem ended_endActionOf (i : Instr) (s : State) : Ended (endActionOf i s) := by
  cases i
  case decrypt =>
    simp only [endActionOf, decryptEnd]
    split
    · exact ended_finishOk ..
    · exact ended_finishErr ..
  all_goals exact ended_finishOk ..

/-! ## The count -/

/-- The steps to the end of a command of n blocks from a position after ACCEPTED, at round r of block b (R453 to R459):
20 a block, of which the last 19 start at PERMUTED_INITIAL. A command without block steps has n = 0. -/
def stepsLeft (n : Nat) (p : Phase) (r b : Nat) : Nat :=
  match p with
  | .idle | .accepted => 0
  | .padded => 2 + 20 * n
  | .keygen => 1 + 20 * n
  | .raw => 20 * (n - b)
  | .permutedInitial => 20 * (n - b) - 1
  | .round => 20 * (n - b) - (2 + r)
  | .swappedFinal => 20 * (n - b) - 18
  | .permutedFinal => 20 * (n - b) - 19

/-- The steps to the end of the command i, which stands in s past ACCEPTED. -/
def remaining (i : Instr) (s : State) : Nat := stepsLeft (blockCount i s) s.phase s.round.toNat s.blk.toNat

theorem stepsLeft_le (n : Nat) (p : Phase) (r b : Nat) : stepsLeft n p r b ≤ 2 + 20 * n := by
  cases p <;> simp only [stepsLeft] <;> omega

/-! ## Positions -/

/-- The command i is busy at one of its positions past ACCEPTED (R117), its checks passed, and the sequencer has every
turn. -/
structure Stands (i : Instr) (s : State) : Prop where
  busy     : s.busy = true
  events   : s.events = []
  op       : decodeOpcode s.op = some i
  position : passes i s.phase = true
  checked  : checkFailure i s = none
  blk      : s.phase.inBlock = true → s.blk.toNat < blockCount i s

theorem Running.stands {i : Instr} {s : State} (r : Running i s) (hb : s.busy = true) (he : s.events = []) :
    Stands i s := ⟨hb, he, r.op, r.position, r.checked, r.blk⟩

theorem Stands.past {i : Instr} {s : State} (h : Stands i s) : Past i s :=
  ⟨h.busy, h.events, passes_ne_accepted h.position, h.op⟩

/-- A step that leaves its command running leads from a position to a position, as far as PHASE and BLK are right. -/
theorem Stands.goesOn {i : Instr} {s t : State} (h : Stands i s) (g : GoesOn s t) (hpos : passes i t.phase = true)
    (hblk : t.phase.inBlock = true → t.blk.toNat < blockCount i s) : Stands i t where
  busy := g.busy.trans h.busy
  events := g.host.events.trans h.events
  op := g.op ▸ h.op
  position := hpos
  checked := (checkFailure_congr i g.host.cfg g.host.inLen).trans h.checked
  blk := by rwa [blockCount_congr i g.host.inLen]

/-- A step inside the datapath that leaves BLK alone (R454 to R458). -/
theorem Stands.move {i : Instr} {s t : State} (h : Stands i s) (g : GoesOn s t) (hs : s.phase.inBlock = true)
    (ht : t.phase.inBlock = true) (hblk : t.blk = s.blk) : Stands i t :=
  h.goesOn g (passes_of_inBlock h.position hs ht) fun _ => hblk ▸ h.blk hs

/-- The checks bound the number of blocks by the size of OBUF (R8, R114). -/
theorem blockCount_le_of_checked {i : Instr} {s : State} (h : checkFailure i s = none) :
    blockCount i s ≤ 4088 / 8 + 1 := by
  cases hj : jobOf i s with
  | none => simp [blockCount, hj]
  | some job =>
    have := nblk_le_of_checked hj h
    have := s.cfg.bounds
    rw [blockCount_of_job hj]
    omega

/-- Block b of a checked command is a number that BLK can hold. -/
theorem loadBlock_blk_toNat {i : Instr} {s : State} {job : BlockJob} {b : Nat} (hc : checkFailure i s = none)
    (hj : jobOf i s = some job) (hb : b < job.nblk) : (loadBlock job b s).blk.toNat = b := by
  have hle := blockCount_le_of_checked hc
  rw [blockCount_of_job hj] at hle
  rw [loadBlock_blk, BitVec.toNat_ofNat]
  exact Nat.mod_eq_of_lt (by omega)

/-- The next block enters the datapath (R453, R459). -/
theorem Stands.load {i : Instr} {s : State} {job : BlockJob} {b : Nat} (h : Stands i s) (hj : jobOf i s = some job)
    (hb : b < job.nblk) : Stands i (loadBlock job b s) :=
  h.goesOn (goesOn_loadBlock job b s) ((passes_iff_job i s rfl).2 ⟨job, hj⟩) fun _ => by
    rwa [loadBlock_blk_toNat h.checked hj hb, blockCount_of_job hj]

/-- The command either ends in the step that leads to t, its count being 1, or goes on with one step less to take. -/
def CountsDown (i : Instr) (n : Nat) (t : State) : Prop :=
  (Ended t ∧ n = 1) ∨ (Stands i t ∧ n = remaining i t + 1)

/-- A step inside the datapath lowers the count by one when it does so at every number of blocks. -/
theorem Stands.countsDown_move {i : Instr} {s t : State} (h : Stands i s) (g : GoesOn s t)
    (hs : s.phase.inBlock = true) (ht : t.phase.inBlock = true) (hblk : t.blk = s.blk)
    (hcount : ∀ n, s.blk.toNat < n → stepsLeft n s.phase s.round.toNat s.blk.toNat =
      stepsLeft n t.phase t.round.toNat s.blk.toNat + 1) : CountsDown i (remaining i s) t := by
  refine .inr ⟨h.move g hs ht hblk, ?_⟩
  rw [remaining, remaining, blockCount_congr i g.host.inLen, hblk]
  exact hcount _ (h.blk hs)

/-- Loading block b leaves 20 steps for it and for each block after it. -/
theorem Stands.countsDown_load {i : Instr} {s : State} {job : BlockJob} {b : Nat} (h : Stands i s)
    (hj : jobOf i s = some job) (hb : b < job.nblk)
    (hcount : stepsLeft job.nblk s.phase s.round.toNat s.blk.toNat = 20 * (job.nblk - b) + 1) :
    CountsDown i (remaining i s) (loadBlock job b s) := by
  refine .inr ⟨h.load hj hb, ?_⟩
  rw [remaining, remaining, blockCount_congr i (loadBlock_inLen job b s), blockCount_of_job hj,
    loadBlock_blk_toNat h.checked hj hb]
  exact hcount

/-- A step of the block datapath lowers the count by one. -/
theorem Stands.countsDown_blockStep {i : Instr} {s t : State} {job : BlockJob} (h : Stands i s)
    (hj : jobOf i s = some job) (hx : blockStep job (endActionOf i) s = .next t) :
    CountsDown i (remaining i s) t := by
  have hn := blockCount_of_job hj
  cases blockStep_cases job _ s t hx with
  | noBlock hp h0 ht =>
    exact .inl ⟨ht ▸ ended_finishErr .padding s, by simp only [remaining, hp, hn, h0, stepsLeft]⟩
  | firstBlock hp h0 ht =>
    subst ht
    exact h.countsDown_load hj (Nat.pos_of_ne_zero h0) (by simp only [hp, stepsLeft]; omega)
  | raw hp ht =>
    subst ht
    refine h.countsDown_move (goesOn_rawStep s) (by rw [hp]; rfl) rfl rfl fun n hlt => ?_
    simp only [hp, rawStep_phase, stepsLeft]
    omega
  | firstRound hp ht =>
    subst ht
    refine h.countsDown_move (goesOn_runRound job.dir 0 s) (by rw [hp]; rfl) rfl rfl fun n hlt => ?_
    simp only [hp, runRound_phase, runRound_round, stepsLeft, BitVec.toNat_ofNat]
    omega
  | nextRound hp hr ht =>
    subst ht
    refine h.countsDown_move (goesOn_runRound job.dir _ s) (by rw [hp]; rfl) rfl rfl fun n hlt => ?_
    simp only [hp, runRound_phase, runRound_round, stepsLeft, BitVec.toNat_ofNat]
    omega
  | swap hp hr ht =>
    subst ht
    refine h.countsDown_move (goesOn_swapStep s) (by rw [hp]; rfl) rfl rfl fun n hlt => ?_
    simp only [hp, hr, swapStep_phase, stepsLeft]
    omega
  | final hp ht =>
    subst ht
    refine h.countsDown_move (goesOn_swappedStep s) (by rw [hp]; rfl) rfl rfl fun n hlt => ?_
    simp only [hp, swappedStep_phase, stepsLeft]
    omega
  | nextBlock hp hb ht =>
    subst ht
    exact h.countsDown_load hj hb (by simp only [hp, stepsLeft]; omega)
  | ended hp hb ht =>
    have hlt := h.blk (by rw [hp]; rfl)
    refine .inl ⟨ht ▸ ended_endActionOf i s, ?_⟩
    simp only [remaining, hp, stepsLeft]
    omega

/-- Every step past ACCEPTED lowers the count by one. -/
theorem Stands.countsDown {i : Instr} {s t : State} (h : Stands i s) (hx : exec i s = .next t) :
    CountsDown i (remaining i s) t := by
  cases exec_cases i s t hx with
  | failed hp => exact absurd hp (passes_ne_accepted h.position)
  | first hp => exact absurd hp (passes_ne_accepted h.position)
  | delivered hi hp ht =>
    subst hi ht
    refine .inl ⟨ended_deliver _ s, ?_⟩
    rw [remaining, hp]
    rfl
  | derived hi hp ht =>
    subst hi ht
    refine .inr ⟨h.goesOn (goesOn_keygenAction s) rfl nofun, ?_⟩
    simp only [remaining, hp, keygenAction_phase, stepsLeft, blockCount_congr .encrypt (keygenAction_inLen s)]
    omega
  | block job hj hp ht => exact h.countsDown_blockStep hj ht

/-- From a position past ACCEPTED the command ends after exactly the steps that its count says. -/
theorem Stands.ends {i : Instr} {s : State} (h : Stands i s) : ∃ t, BusyRun (remaining i s) s t ∧ Ended t := by
  induction hn : remaining i s generalizing s with
  | zero =>
    obtain ⟨t, hx⟩ := exec_progress (.inr h.position)
    have hc := h.countsDown hx
    rw [hn] at hc
    rcases hc with ⟨-, h0⟩ | ⟨-, h0⟩ <;> cases h0
  | succ n ih =>
    obtain ⟨t, hx⟩ := exec_progress (.inr h.position)
    have hstep := h.past.run hx
    rcases h.countsDown hx with ⟨he, h1⟩ | ⟨ht, h1⟩
    · obtain rfl : n = 0 := by omega
      exact ⟨t, hstep, he⟩
    · obtain ⟨u, hrun, he⟩ := ih ht (by omega)
      exact ⟨u, Nat.add_comm 1 n ▸ hstep.append hrun, he⟩

/-! ## From acceptance -/

/-- R605 check 1: an illegal word ends after one step. -/
theorem illegal_ends {s : State} {e : IllegalWord} (hb : s.busy = true) (hp : s.phase = .accepted) (he : s.events = [])
    (hd : decode s.cmdword = .error e) : ∃ t, BusyRun 1 s t ∧ Ended t :=
  ⟨_, .one hb ((step_noEvents s he).trans (sequencerStep_illegal s e hb hp hd)), ended_finishErr _ s⟩

theorem JustAccepted.run {i : Instr} {s t : State} (h : JustAccepted i s) (hx : exec i s = .next t) : BusyRun 1 s t :=
  .one h.busy (h.step_eq.trans hx)

/-- A failed check ends the command after one step. -/
theorem JustAccepted.ends_of_failed {i : Instr} {s : State} (h : JustAccepted i s) (hc : checkFailure i s ≠ none) :
    ∃ t, BusyRun 1 s t ∧ Ended t := by
  obtain ⟨code, hcode⟩ := Option.ne_none_iff_exists'.1 hc
  exact ⟨_, h.run (by rw [exec_accepted i s h.phase, hcode]), ended_finishErr code s⟩

/-- The first action of a command whose checks passed ends it or leaves it the rest of its steps (R721). -/
theorem JustAccepted.countsDown_first {i : Instr} {s : State} (h : JustAccepted i s) (hc : checkFailure i s = none) :
    CountsDown i (stepCount i s) (firstAction i { s with op := opcField s.cmdword }) := by
  have hop := decodeOpcode_of_decode _ _ h.word
  cases i
  case permIp | permFp | permE | permP | subst | fround | pad => exact .inl ⟨ended_deliver .., rfl⟩
  case unpad => exact .inl ⟨ended_deliverUnpadded .., rfl⟩
  case keyDerive | encBlock | decBlock => exact .inr ⟨⟨h.busy, h.events, hop, rfl, hc, nofun⟩, rfl⟩
  case encrypt =>
    refine .inr ⟨⟨h.busy, h.events, hop, rfl, hc, nofun⟩, ?_⟩
    show 3 + 20 * (s.inLen.toNat / 8 + 1) = 2 + 20 * (s.inLen.toNat / 8 + 1) + 1
    omega
  case decrypt =>
    refine .inr ⟨⟨h.busy, h.events, hop, rfl, hc, nofun⟩, ?_⟩
    show (if s.inLen.toNat = 0 then 2 else 2 + 20 * (s.inLen.toNat / 8)) = 1 + 20 * (s.inLen.toNat / 8) + 1
    split_ifs <;> omega

/-- A command whose checks pass ends after exactly the steps of R721. -/
theorem JustAccepted.ends_of_checked {i : Instr} {s : State} (h : JustAccepted i s) (hc : checkFailure i s = none) :
    ∃ t, BusyRun (stepCount i s) s t ∧ Ended t := by
  have hstep := h.run (by rw [exec_accepted i s h.phase, hc])
  rcases h.countsDown_first hc with ⟨he, h1⟩ | ⟨ht, h1⟩
  · exact ⟨_, h1 ▸ hstep, he⟩
  · obtain ⟨t, hrun, he⟩ := ht.ends
    exact ⟨t, by rw [h1, Nat.add_comm]; exact hstep.append hrun, he⟩

/-- Settles O57: an illegal word and a failed check end at once, and a checked command counts down to its end. -/
theorem stepCountsOfEveryCommand : Obligations.StepCountsOfEveryCommand := by
  refine ⟨fun s e hb hp he hd => ?_, fun i s h => ⟨fun hc => ?_, fun hc => ?_⟩⟩
  · obtain ⟨t, hrun, ht⟩ := illegal_ends hb hp he hd
    exact ⟨t, hrun.ends ht.busy⟩
  · obtain ⟨t, hrun, ht⟩ := h.ends_of_failed hc
    exact ⟨t, hrun.ends ht.busy⟩
  · obtain ⟨t, hrun, ht⟩ := h.ends_of_checked hc
    exact ⟨t, hrun.ends ht.busy⟩

/-! ## The bound (R721) -/

theorem stepCount_le (i : Instr) {s : State} (hc : checkFailure i s = none) :
    stepCount i s ≤ 3 + 20 * (4088 / 8 + 1) := by
  have hle := blockCount_le_of_checked hc
  cases i
  case encrypt =>
    replace hle : s.inLen.toNat / 8 + 1 ≤ 4088 / 8 + 1 := hle
    simp only [stepCount]
    omega
  case decrypt =>
    replace hle : s.inLen.toNat / 8 ≤ 4088 / 8 + 1 := hle
    simp only [stepCount]
    split_ifs <;> omega
  all_goals simp [stepCount]

/-- A busy core of the invariant ends its command within the bound. -/
theorem State.Inv.ends {s : State} (h : s.Inv) (hb : s.busy = true) (he : s.events = []) :
    ∃ n t, n ≤ 3 + 20 * (4088 / 8 + 1) ∧ BusyRun n s t ∧ Ended t := by
  by_cases hp : s.phase = .accepted
  · cases hd : decode s.cmdword with
    | error e =>
      obtain ⟨t, hrun, ht⟩ := illegal_ends hb hp he hd
      exact ⟨1, t, by decide, hrun, ht⟩
    | ok i =>
      have hj : JustAccepted i s := ⟨hb, hp, hd, he⟩
      by_cases hc : checkFailure i s = none
      · obtain ⟨t, hrun, ht⟩ := hj.ends_of_checked hc
        exact ⟨_, t, stepCount_le i hc, hrun, ht⟩
      · obtain ⟨t, hrun, ht⟩ := hj.ends_of_failed hc
        exact ⟨1, t, by decide, hrun, ht⟩
  · obtain ⟨i, r⟩ := h.running hb hp
    obtain ⟨t, hrun, ht⟩ := (r.stands hb he).ends
    have hle : remaining i s ≤ 2 + 20 * blockCount i s := stepsLeft_le ..
    have hn := blockCount_le_of_checked r.checked
    exact ⟨_, t, by omega, hrun, ht⟩

/-- Settles O56: at ACCEPTED the step count of R721 bounds the run, and later the count of the position does. -/
theorem everyRunningCommandEnds : Obligations.EveryRunningCommandEnds := by
  intro s h hb he
  obtain ⟨n, t, hn, hrun, ht⟩ := h.ends hb he
  exact ⟨n, t, hn, hrun.runs, ht.busy, ht.oneSet⟩

end Sys2Proof.Machine
end

section
/-! SUPPORT. The codec as a pair of inverse conversions (R403), and its integer reading byte by byte (R404). -/

namespace Sys2Proof.Machine

/-! ## Round trips (R403) -/

/-- Byte k of the bytes of bits(B) is B[k], for every k inside the width. -/
theorem bytes_bits_getD (w : Nat) (bs : List Byte) (k : Nat) (hk : k < w / 8) :
    (bytes (bits w bs)).getD k 0 = bs.getD k 0 := by
  apply BitVec.eq_of_getMsbD_eq
  intro t ht
  have hw : 8 * k + t < w := by omega
  have hbyte : (8 * k + t) / 8 = k := by omega
  have hbit : (8 * k + t) % 8 = t := by omega
  rw [bytes_getD_getMsbD _ k t hk ht, bits_getMsbD, hbyte, hbit, decide_eq_true hw, Bool.true_and]

theorem bytes_bits (bs : List Byte) : bytes (bits (8 * bs.length) bs) = bs := by
  have hlen : (bytes (bits (8 * bs.length) bs)).length = bs.length := by
    rw [bytes_length, Nat.mul_div_cancel_left _ (by decide)]
  refine List.ext_getElem hlen fun k hk hk' => ?_
  rw [List.getElem_eq_getD 0, List.getElem_eq_getD 0]
  exact bytes_bits_getD _ bs k (by omega)

theorem bits_bytes {w : Nat} (v : BitVec w) (hw : w % 8 = 0) : bits w (bytes v) = v := by
  apply BitVec.eq_of_getMsbD_eq
  intro i hi
  rw [bits_getMsbD, bytes_getD_getMsbD v (i / 8) (i % 8) (by omega) (by omega), Nat.div_add_mod,
    decide_eq_true hi, Bool.true_and]

/-! ## Big-endian reading (R404) -/

/-- The first byte of an array is the most significant one of its bit sequence. -/
theorem bits_cons (b : Byte) (bs : List Byte) :
    bits (8 * (b :: bs).length) (b :: bs) =
      (b ++ bits (8 * bs.length) bs).cast (by rw [List.length_cons]; omega) := by
  apply BitVec.eq_of_getMsbD_eq
  intro i hi
  rw [List.length_cons] at hi
  rw [bits_getMsbD, BitVec.getMsbD_cast, BitVec.getMsbD_append, bits_getMsbD, List.length_cons, decide_eq_true hi,
    Bool.true_and]
  by_cases h : i < 8
  · have hbyte : i / 8 = 0 := by omega
    have hbit : i % 8 = i := by omega
    simp [h, hbyte, hbit]
  · have hbyte : i / 8 = (i - 8) / 8 + 1 := by omega
    have hbit : i % 8 = (i - 8) % 8 := by omega
    have hin : i - 8 < 8 * bs.length := by omega
    simp [h, hbyte, hbit, hin]

theorem bits_cons_toNat (b : Byte) (bs : List Byte) :
    (bits (8 * (b :: bs).length) (b :: bs)).toNat =
      b.toNat * 2 ^ (8 * bs.length) + (bits (8 * bs.length) bs).toNat := by
  rw [bits_cons, BitVec.toNat_cast, BitVec.toNat_append, ← Nat.shiftLeft_add_eq_or_of_lt (BitVec.isLt _),
    Nat.shiftLeft_eq]

theorem bits_toNat (bs : List Byte) :
    (bits (8 * bs.length) bs).toNat =
      ((List.range bs.length).map fun k => (bs.getD k 0).toNat * 2 ^ (8 * (bs.length - 1 - k))).sum := by
  induction bs with
  | nil => rfl
  | cons b bs ih =>
    have hexp (k : Nat) : bs.length - 1 - k = bs.length - (k + 1) := by omega
    rw [bits_cons_toNat, ih]
    simp [List.range_succ_eq_map, Function.comp_def, hexp]

/-- Settles O3: the two round trips bit by bit, and the big-endian sum by induction on the byte array. -/
theorem codecRoundTripsAndIsBigEndian : Obligations.CodecRoundTripsAndIsBigEndian :=
  ⟨bytes_bits, fun _ v hw => bits_bytes v hw, bits_toNat⟩

end Sys2Proof.Machine
end

section
/-! SUPPORT. The tables of a configuration (R412 to R416): the checks of `RawConfig.wf` as facts about the tables, and
FP then IP as the identity. -/

namespace Sys2Proof.Config

theorem table_lengths (c : Config) : c.ip.length = 64 ∧ c.fp.length = 64 ∧ c.e.length = 48 ∧ c.p.length = 32 := by
  have h := c.ok
  simp only [RawConfig.wf, RawConfig.lengthsOk, Bool.and_eq_true, beq_iff_eq, and_assoc] at h
  obtain ⟨-, -, hip, hfp, he, hp, -⟩ := h
  exact ⟨hip, hfp, he, hp⟩

theorem entriesIn_iff (w : Nat) (t : List Nat) : RawConfig.entriesIn w t = true ↔ ∀ k ∈ t, 1 ≤ k ∧ k ≤ w := by
  simp [RawConfig.entriesIn]

theorem table_ranges (c : Config) : (∀ k ∈ c.ip, 1 ≤ k ∧ k ≤ 64) ∧ (∀ k ∈ c.fp, 1 ≤ k ∧ k ≤ 64) ∧
    (∀ k ∈ c.e, 1 ≤ k ∧ k ≤ 32) ∧ (∀ k ∈ c.p, 1 ≤ k ∧ k ≤ 32) := by
  have h := c.ok
  simp only [RawConfig.wf, RawConfig.rangesOk, Bool.and_eq_true, entriesIn_iff, and_assoc] at h
  obtain ⟨-, -, -, hip, hfp, he, hp, -⟩ := h
  exact ⟨hip, hfp, he, hp⟩

theorem table_nodup (c : Config) : c.ip.Nodup ∧ c.fp.Nodup ∧ c.p.Nodup := by
  have h := c.ok
  simp only [RawConfig.wf, RawConfig.bijectionsOk, Bool.and_eq_true, decide_eq_true_eq, and_assoc] at h
  obtain ⟨-, -, -, -, hip, hfp, hp, -⟩ := h
  exact ⟨hip, hfp, hp⟩

theorem fp_ip (c : Config) {i : Nat} (hi : i < 64) : c.fp.getD (c.ip.getD i 0 - 1) 0 = i + 1 := by
  have h := c.ok
  simp only [RawConfig.wf, RawConfig.inverseOk, Bool.and_eq_true, List.all_eq_true, List.mem_range, beq_iff_eq,
    and_assoc] at h
  obtain ⟨-, -, -, -, -, hinv, -⟩ := h
  exact hinv i hi

end Sys2Proof.Config

namespace Sys2Proof.Machine

/-- Pigeonhole: a table of n distinct entries in [1, n] names every position. -/
theorem mem_of_nodup_of_range {n : Nat} {t : List Nat} (hlen : t.length = n) (hrange : ∀ k ∈ t, 1 ≤ k ∧ k ≤ n)
    (hnodup : t.Nodup) {k : Nat} (h1 : 1 ≤ k) (hn : k ≤ n) : k ∈ t := by
  have hsub : t.toFinset ⊆ Finset.Icc 1 n := fun k hk => Finset.mem_Icc.2 (hrange k (List.mem_toFinset.1 hk))
  have hcard : (Finset.Icc 1 n).card ≤ t.toFinset.card := by
    rw [Nat.card_Icc, Nat.add_sub_cancel, List.toFinset_card_of_nodup hnodup, hlen]
  rw [← List.mem_toFinset, Finset.eq_of_subset_of_card_le hsub hcard]
  exact Finset.mem_Icc.2 ⟨h1, hn⟩

/-- The source position T(i) - 1 of a table lies in the sequence that it re-indexes (R410, R413). -/
theorem source_lt {w i : Nat} {t : List Nat} (hrange : ∀ k ∈ t, 1 ≤ k ∧ k ≤ w) (hi : i < t.length) :
    t.getD i 0 - 1 < w := by
  have h := hrange _ (List.getElem_mem hi)
  rw [List.getElem_eq_getD 0] at h
  omega

theorem initialPermutation_finalPermutation (c : Config) (v : BitVec 64) :
    initialPermutation c (finalPermutation c v) = v := by
  apply BitVec.eq_of_getMsbD_eq
  intro i hi
  have hsource : c.ip.getD i 0 - 1 < 64 := source_lt c.table_ranges.1 (c.table_lengths.1 ▸ hi)
  rw [initialPermutation, finalPermutation, permute_getMsbD, permute_getMsbD, c.fp_ip hi, Nat.add_sub_cancel,
    decide_eq_true hi, decide_eq_true hsource, Bool.true_and, Bool.true_and]

/-- Settles O1: the checks that a configuration carries, the pigeonhole for the three permutations, and FP undoing IP
bit by bit. -/
theorem configurationTablesAreWellFormed : Obligations.ConfigurationTablesAreWellFormed := by
  intro c
  obtain ⟨hlip, hlfp, -, hlp⟩ := c.table_lengths
  obtain ⟨hrip, hrfp, -, hrp⟩ := c.table_ranges
  obtain ⟨hnip, hnfp, hnp⟩ := c.table_nodup
  refine ⟨c.table_lengths, c.table_ranges, c.table_nodup, ⟨fun k h1 h64 => ⟨?_, ?_⟩, fun k h1 h32 => ?_⟩,
    fun i hi => c.fp_ip hi, initialPermutation_finalPermutation c⟩
  · exact mem_of_nodup_of_range hlip hrip hnip h1 h64
  · exact mem_of_nodup_of_range hlfp hrfp hnfp h1 h64
  · exact mem_of_nodup_of_range hlp hrp hnp h1 h32

end Sys2Proof.Machine
end

section
/-! SUPPORT. Single-step commands with a required IN_LEN (R310, R321): the step their ACCEPTED phase takes, and what
`deliver` leaves in OBUF (R322), byte by byte and bit by bit. -/

namespace Sys2Proof.Machine

/-! ## The ACCEPTED step of a fixed-width command -/

theorem checkFailure_of_requiredLength {i : Instr} {n : Nat} {s : State} (hreq : requiredLength i = some n)
    (hlen : s.inLen.toNat = n) : checkFailure i s = none := by
  obtain ⟨hvar, hne⟩ : variableLength i = false ∧ i ≠ .decrypt := by cases i <;> cases hreq <;> exact ⟨rfl, nofun⟩
  rw [checkFailure_eq_none_iff, hreq, hvar]
  exact ⟨by simpa using hlen, nofun, fun h => absurd h hne⟩

/-- R321: with the required IN_LEN the command's first action happens, with OP latched. -/
theorem exec_of_requiredLength {i : Instr} {n : Nat} {s : State} (hp : s.phase = .accepted)
    (hreq : requiredLength i = some n) (hlen : s.inLen.toNat = n) :
    exec i s = .next (firstAction i { s with op := opcField s.cmdword }) := by
  rw [exec_accepted i s hp, checkFailure_of_requiredLength hreq hlen]

/-! ## What `deliver` leaves -/

/-- R310, R322: OBUF holds the delivered bytes and nothing after them. -/
theorem deliver_outputIs (out : List Byte) (s : State) : OutputIs out (deliver out s) := by
  intro a
  rw [deliver, finishOk_obuf, memWriteObuf_obuf, Memory.get?_below]
  by_cases h : a < out.length
  · simp [Memory.get?_write, h]
  · simp [h]

/-- A command that latches OP and delivers the bytes of v delivers the bits of v (R321, R322, R401). -/
theorem deliver_bytes_delivers {w : Nat} (v : BitVec w) (d : Nat) (s : State) {f : Nat → Bool} (hw : w < 2 ^ 32)
    (hf : ∀ i, i < w → v.getMsbD i = f i) :
    Delivers s (deliver (bytes v) (State.drew { s with op := opcField s.cmdword } d)) (w / 8) f where
  finished := by
    rw [deliver, bytes_length]
    exact finishOk_finishedOk (by omega) _
  kept := ⟨rfl, rfl, rfl, rfl, rfl, rfl, rfl, rfl, rfl, rfl⟩
  op := rfl
  written := by
    intro k hk
    refine ⟨(bytes v).getD k 0, ?_, fun j hj => ?_⟩
    · rw [deliver_outputIs, List.getElem?_eq_getElem (by rwa [bytes_length]), List.getElem_eq_getD 0]
    · rw [bytes_getD_getMsbD v k j hk hj, hf _ (by omega)]
  beyond := by
    intro a ha
    rw [deliver_outputIs, List.getElem?_eq_none (by rwa [bytes_length])]

/-- Bit i of an operand is bit i of the bytes read from IBUF (R310, R405). -/
theorem ibufBits_getMsbD {a w i : Nat} (s : State) (hi : i < w) :
    (ibufBits a w s).getMsbD i = bitOf (Memory.read s.ibuf a (w / 8) s.draws) i := by
  rw [ibufBits, bits_getMsbD, decide_eq_true hi, Bool.true_and]
  rfl

/-! ## The permutation commands (R410, R417 to R420) -/

/-- The action that delivers the operand IBUF[0 .. w/8 - 1] re-indexed by a table of n entries in [1, w]. -/
theorem deliver_permute_delivers {w n : Nat} {t : List Nat} (d : Nat) (s : State) (hn : n < 2 ^ 32)
    (hlen : t.length = n) (hrange : ∀ k ∈ t, 1 ≤ k ∧ k ≤ w) :
    Delivers s (deliver (bytes (permute t n (ibufBits 0 w s))) (State.drew { s with op := opcField s.cmdword } d))
      (n / 8) fun i => bitOf (Memory.read s.ibuf 0 (w / 8) s.draws) (t.getD i 0 - 1) := by
  refine deliver_bytes_delivers _ d s hn fun i hi => ?_
  rw [permute_getMsbD, decide_eq_true hi, Bool.true_and, ibufBits_getMsbD s (source_lt hrange (hlen ▸ hi))]

/-- Settles O10: with the required IN_LEN each command takes its first action, which delivers the operand re-indexed
by the command's table. -/
theorem permutationCommandsReindexBits : Obligations.PermutationCommandsReindexBits := by
  intro s hp
  obtain ⟨hlip, hlfp, hle, hlp⟩ := s.cfg.table_lengths
  obtain ⟨hrip, hrfp, hre, hrp⟩ := s.cfg.table_ranges
  refine ⟨fun h => ⟨_, exec_of_requiredLength hp rfl h, rfl, ?_⟩, fun h => ⟨_, exec_of_requiredLength hp rfl h, rfl, ?_⟩,
    fun h => ⟨_, exec_of_requiredLength hp rfl h, rfl, ?_⟩, fun h => ⟨_, exec_of_requiredLength hp rfl h, rfl, ?_⟩⟩
  · exact deliver_permute_delivers 8 s (by decide) hlip hrip
  · exact deliver_permute_delivers 8 s (by decide) hlfp hrfp
  · exact deliver_permute_delivers 4 s (by decide) hle hre
  · exact deliver_permute_delivers 4 s (by decide) hlp hrp

end Sys2Proof.Machine
end

section
/-! SUPPORT. The S-box array bit by bit (R422 to R424), and SUBST (R425). -/

namespace Sys2Proof.Machine

/-! ## substitute (R422 to R424) -/

/-- R422, R423: the lookup of lane g on group G_g of v reads the entry that the bits of v give. -/
theorem sboxLane_slice (c : Config) (v : BitVec 48) (g : Nat) :
    sboxLane c g (slice v (6 * g) 6) = BitVec.ofNat 4 (laneEntry c v.getMsbD g) := by
  simp [sboxLane, laneEntry, sboxRow, sboxCol]

/-- R424: bit i of the substitution comes from lane i / 4. -/
theorem substitute_getMsbD (c : Config) (v : BitVec 48) {i : Nat} (hi : i < 32) :
    (substitute c v).getMsbD i = substBit c v.getMsbD i := by
  have hlane : i % 4 < 4 := Nat.mod_lt _ (by decide)
  rw [substitute, bitSeq_getMsbD, decide_eq_true hi, Bool.true_and, sboxLane_slice, BitVec.getMsbD, BitVec.getLsbD_ofNat,
    decide_eq_true hlane, Bool.true_and, decide_eq_true (by omega), Bool.true_and]
  rfl

/-- A lane's entry depends only on the six bits of its group (R422). -/
theorem laneEntry_congr (c : Config) {b b' : Nat → Bool} {g : Nat} (h : ∀ t, t < 6 → b (6 * g + t) = b' (6 * g + t)) :
    laneEntry c b g = laneEntry c b' g := by
  have h0 : b (6 * g) = b' (6 * g) := h 0 (by decide)
  rw [laneEntry, laneEntry, h0, h 1 (by decide), h 2 (by decide), h 3 (by decide), h 4 (by decide), h 5 (by decide)]

/-- The substitution's 32 bits depend only on its 48 input bits. -/
theorem substBit_congr (c : Config) {b b' : Nat → Bool} (h : ∀ u, u < 48 → b u = b' u) {i : Nat} (hi : i < 32) :
    substBit c b i = substBit c b' i := by
  rw [substBit, substBit, laneEntry_congr c fun t ht => h _ (by omega)]

/-! ## SUBST (R425) -/

/-- Settles O11: the required IN_LEN leads to SUBST's action, whose 32 delivered bits are the lanes' entries of the six
bytes read. -/
theorem substLooksUpEveryLane : Obligations.SubstLooksUpEveryLane := by
  intro s hp hlen
  refine ⟨_, exec_of_requiredLength hp rfl hlen, rfl, deliver_bytes_delivers _ 6 s (by decide) fun i hi => ?_⟩
  rw [substitute_getMsbD _ _ hi]
  exact substBit_congr s.cfg (fun u hu => ibufBits_getMsbD s hu) hi

end Sys2Proof.Machine
end

section
/-! SUPPORT. The key schedule bit by bit (R430 to R433): which bit of the key each bit of a round key is. -/

namespace Sys2Proof.Machine

/-! ## Bits of a byte array -/

theorem bitOf_take (bs : List Byte) (n : Nat) {m : Nat} (hm : m < 8 * n) : bitOf (bs.take n) m = bitOf bs m := by
  have hbyte : m / 8 < n := by omega
  simp [bitOf, List.getD_eq_getElem?_getD, hbyte]

@[simp] theorem bitOf_replicate_zero (n m : Nat) : bitOf (List.replicate n 0) m = false := by
  rw [bitOf, List.getD_eq_getElem?_getD, List.getElem?_getD_replicate_default_eq]
  exact BitVec.getMsbD_zero

/-! ## Round keys (R431, R432) -/

/-- R431: KM holds the first 56 bits of NK. -/
theorem keyMaterial_getMsbD (nk : List Byte) {m : Nat} (hm : m < 56) : (keyMaterial nk).getMsbD m = bitOf nk m := by
  have hm' : m < 64 := by omega
  simp [keyMaterial, bitOf, hm, hm']

@[simp] theorem deriveKeys_getD (nk : List Byte) {i : Nat} (hi : i < 16) :
    (deriveKeys nk).getD i 0 = roundKeyOf (keyMaterial nk) i := by simp [deriveKeys, Vector.getD, hi]

/-- R432: bit j of round key i is bit (j + i) mod 56 of NK. -/
theorem deriveKeys_getMsbD (nk : List Byte) {i j : Nat} (hi : i < 16) (hj : j < 48) :
    ((deriveKeys nk).getD i 0).getMsbD j = bitOf nk ((j + i) % 56) := by
  rw [deriveKeys_getD nk hi, roundKeyOf, bitSeq_getMsbD, decide_eq_true hj, Bool.true_and,
    keyMaterial_getMsbD nk (Nat.mod_lt _ (by decide))]

/-! ## Derived properties (R433) -/

/-- Where key bit m stands in round key i: at the position j with (j + i) mod 56 = m. -/
theorem deriveKeys_getMsbD_of_mod {nk : List Byte} {i j m : Nat} (hi : i < 16) (hj : j < 48)
    (hm : (j + i) % 56 = m) : ((deriveKeys nk).getD i 0).getMsbD j = bitOf nk m := by
  rw [deriveKeys_getMsbD nk hi hj, hm]

/-- Byte 7 of NK reaches no round key, because KM ends with byte 6. -/
theorem deriveKeys_congr {nk nk' : List Byte} (h : nk.take 7 = nk'.take 7) : deriveKeys nk = deriveKeys nk' := by
  have hkm : keyMaterial nk = keyMaterial nk' := by
    apply BitVec.eq_of_getMsbD_eq
    intro m hm
    rw [keyMaterial_getMsbD nk hm, keyMaterial_getMsbD nk' hm, ← bitOf_take nk 7 hm, h, bitOf_take nk' 7 hm]
  rw [deriveKeys, hkm, deriveKeys]

theorem encryptBytes_congr (c : Config) {k k' : List Byte} (m : List Byte)
    (h : (normalizeKey k).take 7 = (normalizeKey k').take 7) : encryptBytes c k m = encryptBytes c k' m := by
  rw [encryptBytes, deriveKeys_congr h, encryptBytes]

theorem deriveKeys_getD_zero (nk : List Byte) : (deriveKeys nk).getD 0 0 = bits 48 (nk.take 6) := by
  apply BitVec.eq_of_getMsbD_eq
  intro j hj
  rw [deriveKeys_getMsbD_of_mod (m := j) (by decide) hj (by omega), ← bitOf_take nk 6 hj, bits_getMsbD,
    decide_eq_true hj, Bool.true_and, bitOf]

theorem deriveKeys_zeroKey {i : Nat} (hi : i < 16) : (deriveKeys (List.replicate 8 0)).getD i 0 = 0 := by
  apply BitVec.eq_of_getMsbD_eq
  intro j hj
  rw [deriveKeys_getMsbD _ hi hj, bitOf_replicate_zero]
  exact BitVec.getMsbD_zero.symm

/-- Settles O14: the round keys depend on the first 7 key bytes only; every other bullet places single key bits, by the
rotation of R432. -/
theorem keyScheduleProperties : Obligations.KeyScheduleProperties := by
  refine ⟨fun _ _ _ _ h => deriveKeys_congr h, fun c _ _ m h => encryptBytes_congr c m h, fun nk _ =>
    ⟨deriveKeys_getD_zero nk, fun i m hi hm hj => ?_, ⟨?_, fun i h9 hi => ?_⟩, ?_, ?_, fun i j hi hj => ?_⟩⟩
  · exact deriveKeys_getMsbD_of_mod hi (by omega) (by omega)
  · exact deriveKeys_getMsbD_of_mod (by decide) (by decide) rfl
  · exact deriveKeys_getMsbD_of_mod hi (by omega) (by omega)
  · exact deriveKeys_getMsbD_of_mod (by decide) (by decide) rfl
  · rintro rfl i hi
    exact deriveKeys_zeroKey hi
  · rw [deriveKeys_getMsbD nk hi (by omega), deriveKeys_getMsbD nk (by decide) (by omega), Nat.add_zero]

end Sys2Proof.Machine
end

section
/-! SUPPORT. KEY_DERIVE (R436): the key bytes it reads, the 96 bytes that list the round keys, and their delivery. -/

namespace Sys2Proof.Machine

/-! ## The key bytes that are read (R430) -/

/-- R430: a byte beyond the key's end is zero. -/
theorem normalizeKey_getD {k : List Byte} (hk : k.length ≤ 8) (i : Nat) : (normalizeKey k).getD i 0 = k.getD i 0 := by
  have hnk : normalizeKey k = k ++ List.replicate (8 - k.length) 0 := by
    simp [normalizeKey, List.take_append, List.take_of_length_le hk, -List.reduceReplicate]
  rw [hnk]
  by_cases h : i < k.length
  · rw [List.getD_append _ _ _ _ h]
  · rw [List.getD_append_right _ _ _ _ (by omega), List.getD_eq_default _ _ (Nat.le_of_not_lt h),
      List.getD_eq_getElem?_getD, List.getElem?_getD_replicate_default_eq]

theorem bitOf_normalizeKey {k : List Byte} (hk : k.length ≤ 8) (m : Nat) : bitOf (normalizeKey k) m = keyBit k m := by
  rw [bitOf, normalizeKey_getD hk, keyBit]
  split
  next => rfl
  next h =>
    rw [List.getD_eq_default _ _ (Nat.le_of_not_lt h)]
    exact BitVec.getMsbD_zero

theorem keyRead_length_le (s : State) (d : Nat) : (keyRead s d).length ≤ 8 := by
  rw [keyRead, Memory.read_length]
  exact Nat.min_le_right ..

/-- R430 to R432: the RoundKeySet of the key bytes that a keyed command reads. -/
theorem deriveKeys_keyRead_getMsbD (s : State) (d : Nat) {i j : Nat} (hi : i < 16) (hj : j < 48) :
    ((deriveKeys (normalizeKey (keyRead s d))).getD i 0).getMsbD j = keyBit (keyRead s d) ((j + i) % 56) := by
  rw [deriveKeys_getMsbD _ hi hj, bitOf_normalizeKey (keyRead_length_le s d)]

/-! ## The listed round keys (R436) -/

/-- In a concatenation of chunks of c bytes, byte k is byte k mod c of chunk k / c. -/
theorem flatMap_getD {α : Type} {f : α → List Byte} {c k : Nat} {l : List α} (d : α) (hc : ∀ a, (f a).length = c)
    (hk : k < c * l.length) : (l.flatMap f).getD k 0 = (f (l.getD (k / c) d)).getD (k % c) 0 := by
  induction l generalizing k with
  | nil => simp at hk
  | cons a l ih =>
    rw [List.flatMap_cons]
    by_cases h : k < c
    · rw [List.getD_append _ _ _ _ (by rwa [hc]), Nat.div_eq_of_lt h, Nat.mod_eq_of_lt h, List.getD_cons_zero]
    · have hpos : 0 < c := Nat.pos_of_ne_zero (by rintro rfl; simp at hk)
      obtain ⟨n, rfl⟩ : ∃ n, k = n + c := ⟨k - c, by omega⟩
      rw [List.length_cons, Nat.mul_succ] at hk
      rw [List.getD_append_right _ _ _ _ (by rw [hc]; omega), hc, Nat.add_sub_cancel, ih (by omega),
        Nat.add_div_right _ hpos, Nat.add_mod_right, List.getD_cons_succ]

/-- R436: round key i stands at the bits 48i to 48i + 47. -/
theorem bitOf_roundKeyBytes (rk : Vector (BitVec 48) 16) {n : Nat} (hn : n < 8 * 96) :
    bitOf (roundKeyBytes rk) n = (rk.getD (n / 48) 0).getMsbD (n % 48) := by
  have hkey : n / 8 / 6 = n / 48 := by omega
  have hbit : 8 * (n / 8 % 6) + n % 8 = n % 48 := by omega
  have hlist : rk.toList.getD (n / 48) 0 = rk.getD (n / 48) 0 := by
    have hin : n / 48 < 16 := by omega
    simp [Vector.getD, List.getD_eq_getElem?_getD, hin]
  rw [bitOf, roundKeyBytes, flatMap_getD (c := 6) 0 (fun k => bytes_length k) (by rw [Vector.length_toList]; omega),
    hkey, hlist, bytes_getD_getMsbD _ _ _ (by omega) (by omega), hbit]

/-! ## Delivery of a byte array -/

/-- A byte array, delivered once OP has been latched, delivers its own bits (R321, R322, R403). -/
theorem deliver_delivers {out : List Byte} (s : State) {f : Nat → Bool} (hop : s.op = opcField s.cmdword)
    (hlen : 8 * out.length < 2 ^ 32) (hf : ∀ i, i < 8 * out.length → bitOf out i = f i) :
    Delivers s (deliver out s) out.length f := by
  have hbits (i : Nat) (hi : i < 8 * out.length) : (bits (8 * out.length) out).getMsbD i = f i := by
    rw [bits_getMsbD, decide_eq_true hi, Bool.true_and]
    exact hf i hi
  have h := deliver_bytes_delivers _ 0 s hlen hbits
  rwa [bytes_bits, ← hop, Nat.mul_div_cancel_left _ (by decide)] at h

/-- A step that keeps the host's state may come before the step that delivers. -/
theorem Delivers.of_kept {s t u : State} {n : Nat} {f : Nat → Bool} (h : Delivers t u n f) (hk : HostStateKept s t) :
    Delivers s u n f where
  finished := h.finished
  kept := hk.trans h.kept
  op := by rw [h.op, hk.cmdword]
  written := h.written
  beyond := h.beyond

/-- Settles O13: the ACCEPTED step is the KEYGEN action (O16), and the KEYGEN step delivers the RoundKeySet that it put
into RK, each bit of which is a key bit. -/
theorem keyDeriveDeliversRotatedWindows : Obligations.KeyDeriveDeliversRotatedWindows := by
  intro s hp
  have hfirst := keyedCommandsDeriveAtAccepted .keyDerive s hp (.inl rfl)
  have hlen := roundKeyBytes_length (deriveKeys (normalizeKey (keyRead s s.draws)))
  refine ⟨_, _, hfirst, rfl, rfl, exec_keyDerive_keygen _ rfl,
    fun i j hi hj => deriveKeys_keyRead_getMsbD s s.draws hi hj, .of_kept ?_ (exec_hostStateKept hfirst)⟩
  rw [← hlen]
  refine deliver_delivers _ rfl (by rw [hlen]; decide) fun n hn => ?_
  rw [hlen] at hn
  rw [bitOf_roundKeyBytes _ hn, deriveKeys_keyRead_getMsbD s s.draws (by omega) (by omega)]

end Sys2Proof.Machine
end

section
/-! SUPPORT. The round function bit by bit (R440), and FROUND (R442). -/

namespace Sys2Proof.Machine

/-! ## The expansion and the round function (R419, R440) -/

/-- R419: bit u of the expansion is bit E(u) - 1. -/
theorem expand_getMsbD (c : Config) (r : BitVec 32) {u : Nat} (hu : u < 48) :
    (expand c r).getMsbD u = r.getMsbD (c.e.getD u 0 - 1) := by
  rw [expand, permute_getMsbD, decide_eq_true hu, Bool.true_and]

/-- The source positions E(u) - 1 lie in the 32 bits of the half (R413). -/
theorem expansionSource_lt (c : Config) {u : Nat} (hu : u < 48) : c.e.getD u 0 - 1 < 32 := by
  obtain ⟨-, -, hlen, -⟩ := c.table_lengths
  obtain ⟨-, -, hrange, -⟩ := c.table_ranges
  exact source_lt hrange (hlen ▸ hu)

/-- The source positions P(i) - 1 lie in the 32 bits of the substitution (R413). -/
theorem roundPermutationSource_lt (c : Config) {i : Nat} (hi : i < 32) : c.p.getD i 0 - 1 < 32 := by
  obtain ⟨-, -, -, hlen⟩ := c.table_lengths
  obtain ⟨-, -, -, hrange⟩ := c.table_ranges
  exact source_lt hrange (hlen ▸ hi)

/-- R440: bit i of F(r, k) is bit P(i) - 1 of the substitution of any 48 bits that agree with E(r) XOR k. -/
theorem roundFunction_getMsbD (c : Config) (r : BitVec 32) (k : BitVec 48) {b : Nat → Bool} {i : Nat} (hi : i < 32)
    (hb : ∀ u, u < 48 → (r.getMsbD (c.e.getD u 0 - 1) ^^ k.getMsbD u) = b u) :
    (roundFunction c r k).getMsbD i = substBit c b (c.p.getD i 0 - 1) := by
  have hsource := roundPermutationSource_lt c hi
  rw [roundFunction, roundPermutation, permute_getMsbD, decide_eq_true hi, Bool.true_and,
    substitute_getMsbD c _ hsource]
  refine substBit_congr c (fun u hu => ?_) hsource
  rw [BitVec.getMsbD_xor, expand_getMsbD c r hu, hb u hu]

/-! ## The corner case of R442 -/

theorem expand_zero (c : Config) : expand c 0 = 0 := by
  apply BitVec.eq_of_getMsbD_eq
  intro u hu
  simp only [expand_getMsbD c _ hu, BitVec.ofNat_eq_ofNat, BitVec.getMsbD_zero]

theorem expand_allOnes (c : Config) : expand c (BitVec.allOnes 32) = BitVec.allOnes 48 := by
  apply BitVec.eq_of_getMsbD_eq
  intro u hu
  rw [expand_getMsbD c _ hu, BitVec.getMsbD_allOnes, BitVec.getMsbD_allOnes, decide_eq_true hu,
    decide_eq_true (expansionSource_lt c hu)]

/-- R442: in both corner cases the S-boxes see all ones, whatever the tables are. -/
theorem roundFunction_zero_allOnes (c : Config) :
    roundFunction c 0 (BitVec.allOnes 48) = roundFunction c (BitVec.allOnes 32) 0 := by
  rw [roundFunction, roundFunction, expand_zero, expand_allOnes, BitVec.xor_comm]

/-! ## FROUND (R442) -/

/-- Settles O12: the required IN_LEN leads to FROUND's action, which delivers F of the two operands bit by bit; the
corner case is that of `roundFunction_zero_allOnes`. -/
theorem froundComputesRoundFunction : Obligations.FroundComputesRoundFunction := by
  refine ⟨fun s hp hlen => ?_, roundFunction_zero_allOnes⟩
  refine ⟨_, exec_of_requiredLength hp rfl hlen, rfl, deliver_bytes_delivers _ 10 s (by decide) fun i hi => ?_⟩
  refine roundFunction_getMsbD s.cfg _ _ hi fun u hu => ?_
  have hr := ibufBits_getMsbD (a := 0) s (expansionSource_lt s.cfg hu)
  have hk := ibufBits_getMsbD (a := 4) (s.drew 4) hu
  exact congrArg₂ (· ^^ ·) hr hk

end Sys2Proof.Machine
end

section
/-! SUPPORT. The reverse block transform (R462): a round undoes itself on swapped halves, so the rounds under the keys in
the other order undo the rounds; FP undoes IP. -/

namespace Sys2Proof.Machine

/-! ## Rounds (R450 step 3) -/

theorem feistelRound_swap_feistelRound (c : Config) (k : BitVec 48) (h : BitVec 32 × BitVec 32) :
    feistelRound c k (feistelRound c k h).swap = h.swap := by
  simp [feistelRound, Prod.swap]

/-- The first m of n rounds under the keys in the other order undo the last m of n rounds. -/
theorem feistelRounds_swap_feistelRounds (c : Config) {k k' : Nat → BitVec 48} {m n : Nat} (hm : m ≤ n)
    (hk : ∀ j, j < n → k' j = k (n - 1 - j)) (h : BitVec 32 × BitVec 32) :
    feistelRounds c k' m (feistelRounds c k n h).swap = (feistelRounds c k (n - m) h).swap := by
  induction m with
  | zero => rfl
  | succ m ih =>
    obtain ⟨p, hp⟩ : ∃ p, n - m = p + 1 := ⟨n - m - 1, by omega⟩
    have hkey : k' m = k p := by rw [hk m hm, show n - 1 - m = p by omega]
    rw [feistelRounds, ih (by omega), hp, show n - (m + 1) = p by omega, hkey]
    exact feistelRound_swap_feistelRound c (k p) _

/-! ## Halves (R450 steps 2 and 4) -/

theorem joinSwapped_getMsbD (l r : BitVec 32) (i : Nat) :
    (joinSwapped l r).getMsbD i = if 32 ≤ i then l.getMsbD (i - 32) else r.getMsbD i := BitVec.getMsbD_append

theorem halves_joinSwapped (h : BitVec 32 × BitVec 32) : halves (joinSwapped h.1 h.2) = h.swap := by
  refine Prod.ext (BitVec.eq_of_getMsbD_eq fun i hi => ?_) (BitVec.eq_of_getMsbD_eq fun i hi => ?_)
  · simp [halves, joinSwapped_getMsbD, hi, Nat.not_le_of_lt hi]
  · simp [halves, joinSwapped_getMsbD, hi]

theorem joinSwapped_swap_halves (x : BitVec 64) : joinSwapped (halves x).swap.1 (halves x).swap.2 = x := by
  apply BitVec.eq_of_getMsbD_eq
  intro i hi
  rw [joinSwapped_getMsbD]
  split
  next h =>
    have hin : i - 32 < 32 := by omega
    have hpos : 32 + (i - 32) = i := by omega
    simp [halves, hin, hpos]
  next h =>
    have hin : i < 32 := by omega
    simp [halves, hin]

/-! ## The block transform (R450, R462, R463) -/

/-- FP has a left inverse on a finite set (`initialPermutation_finalPermutation`), which is then its right inverse. -/
theorem finalPermutation_initialPermutation (c : Config) (v : BitVec 64) :
    finalPermutation c (initialPermutation c v) = v := by
  have hleft : Function.LeftInverse (initialPermutation c) (finalPermutation c) := initialPermutation_finalPermutation c
  have hfinite : Finite (BitVec 64) := .of_injective BitVec.toFin fun _ _ => BitVec.eq_of_toFin_eq
  exact hleft.rightInverse_of_surjective (Finite.injective_iff_surjective.1 hleft.injective) v

theorem blockBits_blockBits (c : Config) {k k' : Nat → BitVec 48} (hk : ∀ j, j < 16 → k' j = k (15 - j))
    (x : BitVec 64) : blockBits c k' (blockBits c k x) = x := by
  have hrounds := feistelRounds_swap_feistelRounds c (Nat.le_refl 16) hk (halves (initialPermutation c x))
  simp only [blockBits, initialPermutation_finalPermutation, halves_joinSwapped]
  rw [hrounds]
  exact (congrArg _ (joinSwapped_swap_halves _)).trans (finalPermutation_initialPermutation c x)

/-- R462, for any 16 round keys: the keys in the other order undo the transform of a block. -/
theorem block_block (c : Config) {k k' : Nat → BitVec 48} (hk : ∀ j, j < 16 → k' j = k (15 - j)) {b : List Byte}
    (hb : b.length = 8) : block c k' (block c k b) = b := by
  have hbytes := bytes_bits b
  rw [hb] at hbytes
  rw [block, block, bits_bytes _ rfl, blockBits_blockBits c hk]
  exact hbytes

theorem keyAt_reverse (rk : Vector (BitVec 48) 16) (j : Nat) : keyAt .reverse rk j = keyAt .forward rk (15 - j) := rfl

/-- R451: the forward order is the reverse order from its other end. -/
theorem keyAt_forward (rk : Vector (BitVec 48) 16) {j : Nat} (hj : j < 16) :
    keyAt .forward rk j = keyAt .reverse rk (15 - j) := by
  rw [keyAt_reverse, show 15 - (15 - j) = j by omega]

/-- Settles O23: each direction has the keys of the other in the other order, and whatever the direction is, the
transform under its keys in the other order is a left inverse. -/
theorem reverseBlockUndoesForward : Obligations.ReverseBlockUndoesForward := by
  refine fun c rk => ⟨fun b hb => ⟨?_, ?_⟩, fun dir b b' hb hb' h => ?_⟩
  · exact block_block c (fun j _ => keyAt_reverse rk j) hb
  · exact block_block c (fun j hj => keyAt_forward rk hj) hb
  · have hundo (a : List Byte) (ha : a.length = 8) :
        block c (fun j => keyAt dir rk (15 - j)) (block c (keyAt dir rk) a) = a := block_block c (fun _ _ => rfl) ha
    rw [← hundo b hb, h, hundo b' hb']

end Sys2Proof.Machine
end

section
/-! SUPPORT. The block steps one phase at a time (R453 to R459), and the end actions of R452 with the unpadding that ends
DECRYPT (R475). -/

namespace Sys2Proof.Machine

section
variable {i : Instr} {s : State} {job : BlockJob}

/-! ## The step of each phase -/

theorem exec_of_keygen (hj : jobOf i s = some job) (hp : s.phase = .keygen) :
    exec i s = .next (keygenStep job s) := by
  rw [exec_block i s job hj (.inl hp), blockStep, hp]

theorem exec_of_raw (hj : jobOf i s = some job) (hp : s.phase = .raw) : exec i s = .next (rawStep s) := by
  rw [exec_block i s job hj (.inr (by rw [hp]; rfl)), blockStep, hp]

theorem exec_of_permutedInitial (hj : jobOf i s = some job) (hp : s.phase = .permutedInitial) :
    exec i s = .next (runRound job.dir 0 s) := by
  rw [exec_block i s job hj (.inr (by rw [hp]; rfl)), blockStep, hp]

theorem exec_of_round (hj : jobOf i s = some job) (hp : s.phase = .round) :
    exec i s = .next (roundStep job.dir s) := by
  rw [exec_block i s job hj (.inr (by rw [hp]; rfl)), blockStep, hp]

theorem exec_of_swappedFinal (hj : jobOf i s = some job) (hp : s.phase = .swappedFinal) :
    exec i s = .next (swappedStep s) := by
  rw [exec_block i s job hj (.inr (by rw [hp]; rfl)), blockStep, hp]

theorem exec_of_permutedFinal (hj : jobOf i s = some job) (hp : s.phase = .permutedFinal) :
    exec i s = .next (permutedStep job (endActionOf i) s) := by
  rw [exec_block i s job hj (.inr (by rw [hp]; rfl)), blockStep, hp]

/-- R459: after the last block the command takes its end action. -/
theorem exec_of_lastBlock (hj : jobOf i s = some job) (hp : s.phase = .permutedFinal)
    (hlast : job.nblk ≤ s.blk.toNat + 1) : exec i s = .next (endActionOf i s) := by
  rw [exec_of_permutedFinal hj hp, permutedStep, if_neg (Nat.not_lt_of_le hlast)]

end

/-- Settles O17: the two branches of the step from KEYGEN. -/
theorem keygenStepLoadsFirstBlock : Obligations.KeygenStepLoadsFirstBlock := by
  intro i s job hj hp
  rw [exec_of_keygen hj hp, keygenStep]
  refine ⟨fun h0 => ?_, fun h0 => ?_⟩
  · rw [if_pos h0]
    exact ⟨_, rfl, finishErr_finishedErr .padding s, finishErr_hostStateKept .padding 0 s, rfl⟩
  · rw [if_neg h0]
    rfl

/-- Settles O18: the step from RAW is `rawStep`. -/
theorem rawStepPermutesAndSplits : Obligations.RawStepPermutesAndSplits := fun _ _ _ hj hp =>
  ⟨_, rfl, exec_of_raw hj hp⟩

/-! ## Rounds (R451, R455 to R457) -/

/-- R451, in the terms of the claims. -/
theorem keyAt_eq (dir : Direction) (rk : Vector (BitVec 48) 16) (j : Nat) :
    keyAt dir rk j = rk.getD (if dir = .forward then j else 15 - j) 0 := by cases dir <;> rfl

/-- Round j is the step out of PERMUTED_INITIAL for j = 0, and out of ROUND = j - 1 for the others. -/
theorem exec_eq_runRound {i : Instr} {s : State} {job : BlockJob} {j : Nat} (hj : jobOf i s = some job)
    (h : (s.phase = .permutedInitial ∧ j = 0) ∨ (s.phase = .round ∧ s.round.toNat < 15 ∧ j = s.round.toNat + 1)) :
    exec i s = .next (runRound job.dir j s) := by
  rcases h with ⟨hp, rfl⟩ | ⟨hp, hlt, rfl⟩
  · exact exec_of_permutedInitial hj hp
  · rw [exec_of_round hj hp, roundStep, if_pos hlt]

/-- Settles O19: round j with its key in the order of the direction, and the swap at ROUND = 15. -/
theorem roundStepsRunSixteenRoundsThenSwap : Obligations.RoundStepsRunSixteenRoundsThenSwap := by
  refine fun i s job hj => ⟨fun j h => ?_, fun hp h15 => ?_⟩
  · rw [exec_eq_runRound hj h, runRound, keyAt_eq]
  · rw [exec_of_round hj hp, roundStep, if_neg (by omega)]
    rfl

/-! ## The output block (R458) -/

theorem swappedStep_get?_obuf_block (s : State) {k : Nat} (hk : k < 8) :
    Memory.get? (swappedStep s).obuf (8 * s.blk.toNat + k) =
      some ((bytes (finalPermutation s.cfg s.x)).getD k 0) := by
  have hin : k < (bytes (finalPermutation s.cfg s.x)).length := by rwa [bytes_length]
  rw [swappedStep_obuf, Memory.get?_write_same _ _ _ k hin, List.getElem_eq_getD 0]

/-- Settles O20: the step from SWAPPED_FINAL is `swappedStep`, which writes its block and nothing else of OBUF. -/
theorem swappedFinalStepWritesTheBlock : Obligations.SwappedFinalStepWritesTheBlock := fun _ s _ hj hp =>
  ⟨swappedStep s, _, rfl, exec_of_swappedFinal hj hp, rfl, fun _ hk => swappedStep_get?_obuf_block s hk,
    swappedStep_get?_obuf_other s⟩

/-! ## End actions (R452, R475) -/

/-- finish_ok(n) keeps the output bytes below n (R322). -/
theorem finishOk_keepsOutput {n : Nat} (hn : n < 2 ^ 32) (d : Nat) (s : State) :
    FinishedOk n (finishOk n (s.drew d)) ∧
      ∀ a, Memory.get? (finishOk n (s.drew d)).obuf a = if a < n then Memory.get? s.obuf a else none :=
  ⟨finishOk_finishedOk hn _, fun a => Memory.get?_below s.obuf n a⟩

theorem endActionOf_rk_op (i : Instr) (s : State) : (endActionOf i s).rk = s.rk ∧ (endActionOf i s).op = s.op := by
  cases i
  case decrypt =>
    simp only [endActionOf, decryptEnd]
    split <;> exact ⟨rfl, rfl⟩
  all_goals exact ⟨rfl, rfl⟩

/-- R482, R483 for n whole blocks: the last byte decides. -/
theorem unpadBytes_of_blocks {c : List Byte} {n last : Nat} (hlen : c.length = 8 * n)
    (hlast : last = (c.getD (8 * n - 1) 0).toNat) :
    unpadBytes c = if n = 0 ∨ last = 0 ∨ 8 < last then none else some (c.take (8 * n - last)) := by
  by_cases h0 : n = 0
  · obtain rfl : c = [] := List.length_eq_zero_iff.1 (by omega)
    simp [unpadBytes, h0]
  · have hget : c.getLast? = some (c.getD (8 * n - 1) 0) := by
      rw [List.getLast?_eq_getElem?, hlen, List.getElem?_eq_getElem (by omega), List.getElem_eq_getD 0]
    simp only [unpadBytes, hget, ← hlast, hlen, h0, false_or]
    exact if_congr (by omega) rfl rfl

/-- R475: the end action of DECRYPT, by the last decrypted byte. -/
theorem decryptEnd_eq {s : State} {n last : Nat} (hn : (decryptJob s).nblk = n)
    (hlast : last = ((Memory.read s.obuf 0 (8 * n) s.draws).getD (8 * n - 1) 0).toNat) :
    decryptEnd s = if n = 0 ∨ last = 0 ∨ 8 < last then finishErr .padding (s.drew (8 * n))
      else finishOk (8 * n - last) (s.drew (8 * n)) := by
  have hlen := memRead_length .obuf 0 (8 * n) s
  rw [decryptEnd, hn, unpadBytes_of_blocks hlen hlast]
  split_ifs
  · rfl
  · dsimp only
    rw [List.length_take_of_le (by omega)]

/-- R475: DECRYPT ends with PADDING, or with its output without the padding. -/
theorem decryptEnd_finishes {s : State} {n last : Nat} (hn : (decryptJob s).nblk = n) (hsize : 8 * n < 2 ^ 32)
    (hlast : last = ((Memory.read s.obuf 0 (8 * n) s.draws).getD (8 * n - 1) 0).toNat) :
    if n = 0 ∨ last = 0 ∨ 8 < last then FinishedErr .padding (decryptEnd s)
    else FinishedOk (8 * n - last) (decryptEnd s) ∧
      ∀ a, Memory.get? (decryptEnd s).obuf a = if a < 8 * n - last then Memory.get? s.obuf a else none := by
  rw [decryptEnd_eq hn hlast]
  split_ifs
  · exact finishErr_finishedErr .padding _
  · exact finishOk_keepsOutput (by omega) _ s

/-- Settles O21: the next block is loaded, or the end action finishes; that of DECRYPT goes by the last byte. -/
theorem permutedFinalStepNextBlockOrEnd : Obligations.PermutedFinalStepNextBlockOrEnd := by
  refine fun i s job hj hp => ⟨fun hnext => ?_, fun hlast => ?_⟩
  · rw [exec_of_permutedFinal hj hp, permutedStep, if_pos hnext]
    rfl
  · have hx := exec_of_lastBlock hj hp hlast
    have hblk := s.blk.isLt
    have hsize : 8 * job.nblk < 2 ^ 32 := by omega
    obtain ⟨hrk, hop⟩ := endActionOf_rk_op i s
    refine ⟨_, hx, exec_hostStateKept hx, hrk, hop, fun last hl n hn => ?_⟩
    subst hn
    cases i <;> simp only [jobOf, Option.some.injEq, reduceCtorEq] at hj <;> subst hj
    case encBlock | decBlock => exact finishOk_keepsOutput (n := 8) (by decide) 0 s
    case encrypt => exact finishOk_keepsOutput hsize 0 s
    case decrypt =>
      simpa only [true_and, endActionOf] using decryptEnd_finishes (n := s.inLen.toNat / 8) rfl hsize hl

end Sys2Proof.Machine
end

section
/-! SUPPORT. ENC_BLOCK and DEC_BLOCK on the machine (R450, R460, R461): 1 step of acceptance, 20 for the block, 1 for the
end. -/

namespace Sys2Proof.Machine

/-- The commands of one block, with the direction of their round keys (R452, R460, R461). -/
structure OneBlock (i : Instr) (dir : Direction) : Prop where
  job  : ∀ s, jobOf i s = some { src := .ibuf, nblk := 1, dir := dir }
  last : endActionOf i = finishOk 8

theorem oneBlock_encBlock : OneBlock .encBlock .forward := ⟨fun _ => rfl, rfl⟩

theorem oneBlock_decBlock : OneBlock .decBlock .reverse := ⟨fun _ => rfl, rfl⟩

theorem blocks_one (c : Config) (k : Nat → BitVec 48) {m : List Byte} (hm : m.length = 8) :
    blocks c k m 1 = block c k m := by
  rw [blocks_succ]
  simp [blocks, List.take_of_length_le (Nat.le_of_eq hm)]

/-- From KEYGEN the block goes through the datapath, and finish_ok(8) leaves its transform in OBUF. -/
theorem OneBlock.run_of_keygen {i : Instr} {dir : Direction} {s : State} (hi : OneBlock i dir) (h : Past i s)
    (hp : s.phase = .keygen) : ∃ t, BusyRun 21 s t ∧ FinishedOk 8 t ∧ HostStateKept s t ∧ t.rk = s.rk ∧
      OutputIs (block s.cfg (keyAt dir s.rk) (Memory.read s.ibuf 0 8 s.draws)) t := by
  obtain ⟨u, hrun, hu⟩ := blocks_run (Memory.read s.ibuf 0 8 s.draws) s h (hi.job s) hp Nat.one_ne_zero
    (show 1 ≤ 65536 by decide)
    (by
      intro j hj
      obtain rfl : j = 0 := by simpa using hj
      exact (List.take_of_length_le (Nat.le_of_eq (Memory.read_length ..))).symm)
  have hend : exec i u = .next (finishOk 8 u) := by
    rw [exec_of_lastBlock (hi.job u) hu.phase (Nat.le_of_eq hu.blk.symm), hi.last]
  refine ⟨_, hrun.append (hu.past.run hend), finishOk_finishedOk (by decide) u,
    hu.kept.trans (exec_hostStateKept hend), hu.rk, fun a => ?_⟩
  rw [finishOk_obuf, Memory.get?_below, hu.obuf a, blocks_one _ _ (Memory.read_length ..)]
  split
  next ha => exact if_pos ha
  next ha => exact (List.getElem?_eq_none (by rw [block_length]; omega)).symm

/-- Settles O22: the ACCEPTED step is the KEYGEN action (O16), and 21 steps from KEYGEN end the command. -/
theorem blockCommandsComputeBlockTransform : Obligations.BlockCommandsComputeBlockTransform := by
  intro i dir s hi h hlen
  have hone : OneBlock i dir := by
    rcases hi with ⟨rfl, rfl⟩ | ⟨rfl, rfl⟩
    · exact oneBlock_encBlock
    · exact oneBlock_decBlock
  have hfirst : exec i s = .next (keygenAction { s with op := opcField s.cmdword }) :=
    keyedCommandsDeriveAtAccepted i s h.phase (.inr (.inl ⟨hi.imp And.left And.left, hlen⟩))
  have hpast : Past i (keygenAction { s with op := opcField s.cmdword }) :=
    ⟨h.busy, h.events, by simp, decodeOpcode_of_decode _ _ h.word⟩
  obtain ⟨t, hrun, hfin, hkept, hrk, hout⟩ := hone.run_of_keygen hpast rfl
  rw [← hrk] at hout
  exact ⟨t, ((h.run hfirst).append hrun).ends hfin.busy, hfin, (exec_hostStateKept hfirst).trans hkept, hrk, hout⟩

end Sys2Proof.Machine
end

section
/-! SUPPORT. Padding as functions of byte arrays (R480 to R483): each byte of pad(m), and unpad by its last byte. -/

namespace Sys2Proof.Machine

/-! ## pad (R480, R481) -/

theorem padLength_pos (len : Nat) : 1 ≤ padLength len := by
  unfold padLength
  omega

theorem padLength_le (len : Nat) : padLength len ≤ 8 := Nat.sub_le ..

theorem padBytes_length_eq_add (m : List Byte) : (padBytes m).length = m.length + padLength m.length := by
  rw [padBytes, List.length_append, List.length_replicate]

/-- R480: the bytes of m, then the pad bytes, and nothing after them. -/
theorem padBytes_getElem? (m : List Byte) (a : Nat) : (padBytes m)[a]? =
    if a < m.length then m[a]?
    else if a < m.length + padLength m.length then some (BitVec.ofNat 8 (padLength m.length)) else none := by
  rw [padBytes]
  split_ifs with hm hpad
  · exact List.getElem?_append_left hm
  · rw [List.getElem?_append_right (Nat.le_of_not_lt hm), List.getElem?_replicate, if_pos (by omega)]
  · exact List.getElem?_eq_none (by rw [List.length_append, List.length_replicate]; omega)

theorem padBytes_take (m : List Byte) : (padBytes m).take m.length = m := List.take_left

/-- R480: the last byte of pad(m) says how many bytes were added. -/
theorem padBytes_last_toNat (m : List Byte) :
    ((padBytes m).getD ((padBytes m).length - 1) 0).toNat = padLength m.length := by
  have hpos := padLength_pos m.length
  have hle := padLength_le m.length
  rw [List.getD_eq_getElem?_getD, padBytes_getElem?, padBytes_length_eq_add, if_neg (by omega), if_pos (by omega),
    Option.getD_some, BitVec.toNat_ofNat, Nat.mod_eq_of_lt (by omega)]

/-! ## unpad (R482, R483) -/

/-- R482, R483: the last byte n decides, whatever the other bytes are. -/
theorem unpadBytes_eq {c : List Byte} {n : Nat} (hn : n = (c.getD (c.length - 1) 0).toNat) :
    unpadBytes c =
      if c.length = 0 ∨ n = 0 ∨ 8 < n ∨ c.length < n then none else some (c.take (c.length - n)) := by
  cases hlast : c.getLast? with
  | none =>
    obtain rfl := List.getLast?_eq_none_iff.1 hlast
    rfl
  | some last =>
    have hne : c.length ≠ 0 := by
      intro h
      simp [List.length_eq_zero_iff.1 h] at hlast
    rw [List.getD_eq_getElem?_getD, ← List.getLast?_eq_getElem?, hlast, Option.getD_some] at hn
    simp only [unpadBytes, hlast, ← hn, hne, false_or]

theorem unpadBytes_eq_some_iff (c m : List Byte) : unpadBytes c = some m ↔
    c ≠ [] ∧ ∃ n, n = (c.getD (c.length - 1) 0).toNat ∧ 1 ≤ n ∧ n ≤ min 8 c.length ∧ m = c.take (c.length - n) := by
  rw [unpadBytes_eq rfl, exists_eq_left, ← List.length_pos_iff, Option.ite_none_left_eq_some, Option.some.injEq]
  constructor
  · rintro ⟨hok, rfl⟩
    exact ⟨by omega, by omega, by omega, rfl⟩
  · rintro ⟨hne, hpos, hle, rfl⟩
    exact ⟨by omega, rfl⟩

/-- R481: unpad undoes pad. -/
theorem unpadBytes_padBytes (m : List Byte) : unpadBytes (padBytes m) = some m := by
  have hpos := padLength_pos m.length
  have hle := padLength_le m.length
  rw [unpadBytes_eq (padBytes_last_toNat m).symm, padBytes_length_eq_add, if_neg (by omega), Nat.add_sub_cancel,
    padBytes_take]

/-- Settles O24: the length and the bytes of pad(m), and unpad by its last byte. -/
theorem padGrowsAndUnpadChecksLastByte : Obligations.PadGrowsAndUnpadChecksLastByte := by
  refine ⟨fun m => ?_, unpadBytes_eq_some_iff, unpadBytes_padBytes⟩
  have hlen := padBytes_length m
  exact ⟨by omega, by omega, by omega, by omega, padBytes_take m, hlen⟩

end Sys2Proof.Machine
end

section
/-! SUPPORT. PAD and UNPAD on the machine (R484, R485): a checked message, and what delivering it padded or unpadded
leaves. -/

namespace Sys2Proof.Machine

/-! ## The ACCEPTED step of PAD and UNPAD (R321) -/

/-- R605 check 3 is the only one of a variable-length command other than DECRYPT. -/
theorem exec_of_variableLength {i : Instr} {s : State} (hp : s.phase = .accepted) (hv : variableLength i = true)
    (hd : i ≠ .decrypt) (hle : s.inLen.toNat ≤ s.cfg.bufBytes) :
    exec i s = .next (firstAction i { s with op := opcField s.cmdword }) := by
  have hreq : requiredLength i = none := by cases i <;> cases hv <;> rfl
  have hc : checkFailure i s = none := by
    rw [checkFailure_eq_none_iff, hreq]
    exact ⟨nofun, fun _ => hle, fun h => absurd h hd⟩
  rw [exec_accepted i s hp, hc]

/-! ## Delivery -/

/-- R310, R322: a result that OUT_LEN can hold ends its command well. -/
theorem deliver_finishedOk {out : List Byte} {n : Nat} (hlen : out.length = n) (hn : n < 2 ^ 32) (s : State) :
    FinishedOk n (deliver out s) := by
  subst hlen
  exact finishOk_finishedOk hn _

/-- Settles O25: the message passes its check, and pad of it is delivered. -/
theorem padAppendsPadBytes : Obligations.PadAppendsPadBytes := by
  rintro s n hp hle rfl
  have hb := s.cfg.bounds
  have hx := exec_of_variableLength (i := .pad) hp rfl nofun hle
  have hlen : (padBytes (message s)).length = s.inLen.toNat + padLength s.inLen.toNat := by
    rw [padBytes_length_eq_add, message_length]
  have hpad := padLength_le s.inLen.toNat
  refine ⟨_, hx, deliver_finishedOk hlen (by omega) _, exec_hostStateKept hx, rfl, rfl, fun a => ?_⟩
  refine (deliver_outputIs (padBytes (message s)) _ a).trans ?_
  rw [padBytes_getElem?, message_length]
  rfl

/-- R483, R485: the end of an unpadding command, by the last byte of its input. -/
theorem deliverUnpadded_eq {c : List Byte} {n : Nat} (hn : n = (c.getD (c.length - 1) 0).toNat) (s : State) :
    deliverUnpadded c s = if c.length = 0 ∨ n = 0 ∨ 8 < n ∨ c.length < n then finishErr .padding s
      else deliver (c.take (c.length - n)) s := by
  rw [deliverUnpadded, unpadBytes_eq hn]
  split_ifs <;> rfl

theorem deliverUnpadded_rk_op (c : List Byte) (s : State) :
    (deliverUnpadded c s).rk = s.rk ∧ (deliverUnpadded c s).op = s.op := by
  rw [deliverUnpadded_eq rfl]
  split_ifs <;> exact ⟨rfl, rfl⟩

/-- R482, R483, R485: PADDING, or the input without its last n bytes. -/
theorem deliverUnpadded_finishes {c : List Byte} {n : Nat} (hsize : c.length < 2 ^ 32)
    (hn : n = (c.getD (c.length - 1) 0).toNat) (s : State) :
    if c.length = 0 ∨ n = 0 ∨ 8 < n ∨ c.length < n then FinishedErr .padding (deliverUnpadded c s)
    else FinishedOk (c.length - n) (deliverUnpadded c s) ∧
      OutputIs (c.take (c.length - n)) (deliverUnpadded c s) := by
  rw [deliverUnpadded_eq hn]
  split_ifs
  · exact finishErr_finishedErr .padding s
  · exact ⟨deliver_finishedOk (List.length_take_of_le (Nat.sub_le ..)) (by omega) s, deliver_outputIs _ s⟩

/-- Settles O26: the message passes its check, and its last byte decides how the command ends. -/
theorem unpadDropsPadBytes : Obligations.UnpadDropsPadBytes := by
  intro s inp n hp hle hinp hn
  have hb := s.cfg.bounds
  have hx := exec_of_variableLength (i := .unpad) hp rfl nofun hle
  have hlen : inp.length = s.inLen.toNat := hinp ▸ Memory.read_length ..
  obtain ⟨hrk, hop⟩ := deliverUnpadded_rk_op inp (State.drew { s with op := opcField s.cmdword } s.inLen.toNat)
  have hfin := deliverUnpadded_finishes (by omega) (hlen ▸ hn)
    (State.drew { s with op := opcField s.cmdword } s.inLen.toNat)
  simp only [OutputIs, List.getElem?_take, hlen] at hfin
  subst hinp
  exact ⟨_, hx, exec_hostStateKept hx, hrk, hop, hfin⟩

end Sys2Proof.Machine
end

section
/-! SUPPORT. The two resets, the writes to CTRL and STATUS, the busy protection (R104, R105, R700 to R703, R710), and
the interrupt output (R620). -/

namespace Sys2Proof.Machine

/-- Settles O9: the turn of an idle core waits. -/
theorem idleCoreTakesNoStep : Obligations.IdleCoreTakesNoStep := fun s hb =>
  (stepSequencer_eq s).trans (sequencerStep_idle s hb)

/-! ## What both resets clear (R700, R702) -/

/-- The fields that a hardware reset and a soft reset both clear. -/
structure Cleared (t : State) : Prop where
  rest    : AtRest t
  irqEn   : t.irqEn = false
  done    : t.done = false
  err     : t.err = false
  werr    : t.werr = false
  errcode : t.errcode = .ok
  keyLen  : t.keyLen = 0
  inLen   : t.inLen = 0
  outLen  : t.outLen = 0
  obuf    : t.obuf = []

theorem Cleared.statusWord {t : State} (h : Cleared t) : statusWord t = 0 := by
  rw [Machine.statusWord, h.rest.blk, h.rest.round, h.rest.phase, h.errcode, h.werr, h.err, h.done, h.rest.busy]
  rfl

theorem Cleared.ctrlWord {t : State} (h : Cleared t) : ctrlWord t = 0 := by
  rw [Machine.ctrlWord, h.irqEn]
  rfl

theorem Cleared.irq {t : State} (h : Cleared t) : irq t = false := by rw [Machine.irq, h.irqEn, Bool.false_and]

theorem hardwareReset_cleared (s : State) : Cleared (hardwareReset s) :=
  ⟨atRest_afterReset .., rfl, rfl, rfl, rfl, rfl, rfl, rfl, rfl, rfl⟩

theorem softReset_cleared (s : State) (r : Response) : Cleared { softReset s with response := r } :=
  ⟨⟨rfl, rfl, rfl, rfl⟩, rfl, rfl, rfl, rfl, rfl, rfl, rfl, rfl, rfl⟩

/-- Settles O48: what `hardwareReset` leaves; the registers and the sequencer follow from the cleared fields. -/
theorem hardwareResetState : Obligations.HardwareResetState := fun s =>
  have h := hardwareReset_cleared s
  ⟨_, stepHardwareReset_eq s, rfl, rfl, h.irqEn, h.rest.busy, h.done, h.err, h.werr, h.errcode, h.rest.phase,
    h.rest.round, h.rest.blk, h.keyLen, h.inLen, h.outLen, fun _ => ⟨rfl, rfl, rfl⟩, h.irq, h.statusWord, h.ctrlWord,
    idleCoreTakesNoStep _ h.rest.busy⟩

/-! ## Writes to CTRL and STATUS, busy or not (R104, R105) -/

/-- A register outside R710 takes the write (R104, R105, R204). -/
theorem stepWrite_unprotected {off : Nat} {r : Reg} (v : Word) {s : State} (ho : WordOffset off)
    (hr : regAt s.cfg.bufBytes off = r) (hp : r.isProtected = false) :
    stepWrite off v s = .next { writeWord r v s with response := .written } := by
  rw [stepWrite_eq off v s ho, hr, hostWriteReg_unprotected v s hp]

/-- R702: SRST wins over IRQ_EN. -/
theorem stepWrite_ctrl_reset {v : Word} (s : State) (hv : v.getLsbD 0 = true) :
    stepWrite 0x004 v s = .next { softReset s with response := .written } := by
  rw [stepWrite_unprotected v ⟨by decide, by decide⟩ (regAt_ctrl _) rfl, writeWord, writeCtrl, if_pos hv]

theorem stepWrite_ctrl_irqEn {v : Word} (s : State) (hv : v.getLsbD 0 = false) :
    stepWrite 0x004 v s = .next { s with irqEn := v.getLsbD 1, response := .written } := by
  rw [stepWrite_unprotected v ⟨by decide, by decide⟩ (regAt_ctrl _) rfl, writeWord, writeCtrl,
    if_neg (ne_true_of_eq_false hv)]

theorem stepWrite_status (v : Word) (s : State) :
    stepWrite 0x008 v s = .next { writeStatus v s with response := .written } :=
  stepWrite_unprotected v ⟨by decide, by decide⟩ (regAt_status _) rfl

/-- Settles O49: the write is a soft reset, which clears what a hardware reset clears. -/
theorem softResetKeepsKeyAndInput : Obligations.SoftResetKeepsKeyAndInput := fun s _ hv =>
  have h := softReset_cleared s .written
  ⟨_, _, stepHardwareReset_eq s, stepWrite_ctrl_reset s hv, rfl, h.irqEn, h.statusWord, h.ctrlWord, h.keyLen, h.inLen,
    h.outLen, h.irq, h.rest.busy, h.done, h.err, fun _ => rfl, idleCoreTakesNoStep _ h.rest.busy⟩

/-! ## Dropped and ignored writes (R204, R710) -/

/-- The offsets of the read-only registers, of the OBUF window and the reserved ones name a register that ignores
writes. -/
theorem stepWrite_ignored {off : Nat} (v : Word) {s : State} (ho : WordOffset off)
    (h : off = 0x000 ∨ off = 0x018 ∨ off = 0x01C ∨ (0x2000 ≤ off ∧ off < 0x2000 + s.cfg.bufBytes + 8) ∨
      ReservedOffset s.cfg.bufBytes off) :
    stepWrite off v s = .next { s with response := .written } := by
  rcases h with rfl | rfl | rfl | ⟨hlo, hhi⟩ | hres
  · exact stepWrite_unprotected v ho (regAt_id _) rfl
  · exact stepWrite_unprotected v ho (regAt_outLen _) rfl
  · exact stepWrite_unprotected v ho (regAt_param _) rfl
  · exact stepWrite_unprotected v ho (regAt_obuf s.cfg off hlo hhi) rfl
  · exact stepWrite_unprotected v ho (regAt_reserved s.cfg off hres) rfl

/-- Settles O38: a protected register drops the write, a read-only one ignores it, and CTRL, STATUS and every read take
their course. -/
theorem busyProtection : Obligations.BusyProtection := by
  refine fun s off v ho => ⟨fun hprot hb => ?_, stepWrite_ignored v ho, ?_, ?_, ?_, ⟨_, stepRead_eq off s ho⟩⟩
  · rw [stepWrite_eq off v s ho, hostWriteReg_dropped v hb ((isProtected_regAt _ off).2 hprot)]
  · rintro rfl hv
    exact stepWrite_ctrl_irqEn s hv
  · rintro rfl hv
    exact ⟨_, stepHardwareReset_eq s, stepWrite_ctrl_reset s hv⟩
  · rintro rfl
    exact stepWrite_status v s

/-! ## The interrupt output (R620) -/

theorem irq_eq_irqEn {t : State} (h : t.done = true ∨ t.err = true) : irq t = t.irqEn := by
  rcases h with h | h <;> simp [irq, h]

theorem irq_eq_false {t : State} (hd : t.done = false) (he : t.err = false) : irq t = false := by simp [irq, hd, he]

/-- The step that ends a command sets DONE or ERR (R606), and keeps IRQ_EN. -/
theorem irq_of_exec_ends {i : Instr} {s t : State} (hb : s.busy = true) (hx : exec i s = .next t)
    (ht : t.busy = false) : irq t = s.irqEn := by
  have hset : t.done = true ∨ t.err = true := by
    rcases commandsEndOnlyByFinish i s t hb hx with ⟨hbusy, -⟩ | ⟨n, hok, -⟩ | ⟨code, -, herr⟩
    · exact absurd hbusy (ne_true_of_eq_false ht)
    · exact .inl hok.done
    · exact .inr herr.err
  rw [irq_eq_irqEn hset, (exec_hostStateKept hx).irqEn]

theorem irq_of_sequencerStep_ends {s t : State} (hb : s.busy = true) (hx : sequencerStep s = .next t)
    (ht : t.busy = false) : irq t = s.irqEn := by
  rcases sequencerStep_cases s t hx with ⟨hidle, -⟩ | ⟨-, i, -, hx⟩ | ⟨-, -, -, rfl⟩
  · exact absurd hb (ne_true_of_eq_false hidle)
  · exact irq_of_exec_ends hb hx ht
  · exact irq_eq_irqEn (.inr rfl)

/-- Settles O50: the formula, the two ends of a command, the writes to CTRL, STATUS and CMD, and the resets. -/
theorem interruptOutput : Obligations.InterruptOutput := by
  refine ⟨fun s => by simp [irq], fun i s t hb hx ht => irq_of_exec_ends hb hx ht,
    fun s t hb hx ht => irq_of_sequencerStep_ends hb hx ht, fun s v h0 h1 => ⟨_, stepWrite_ctrl_irqEn s h0, ?_⟩,
    fun s v h1 h2 => ⟨_, stepWrite_status v s, irq_eq_false ?_ ?_⟩, fun s v hb => ?_,
    fun s v h0 h1 => ⟨_, stepWrite_ctrl_irqEn s h0, ?_⟩,
    fun s v h0 => ⟨_, stepWrite_ctrl_reset s h0, (softReset_cleared s .written).irq⟩,
    fun s => ⟨_, stepHardwareReset_eq s, (hardwareReset_cleared s).irq⟩⟩
  · simp only [irq, h1, Bool.true_and]
  · simp [h1]
  · simp [h2]
  · obtain ⟨haccepted, -⟩ := cmdWriteIsAccepted s v hb
    exact ⟨_, haccepted, irq_eq_false rfl rfl⟩
  · simp only [irq, h1, Bool.false_and]

end Sys2Proof.Machine
end

section
/-! SUPPORT. The checks of R605 that fail, each with its code. -/

namespace Sys2Proof.Machine

/-- R605 check 2. -/
theorem checkFailure_malformedLength {i : Instr} {n : Nat} {s : State} (hreq : requiredLength i = some n)
    (hne : s.inLen.toNat ≠ n) : checkFailure i s = some .malformedLength := by
  simp [checkFailure, hreq, hne]

theorem requiredLength_of_variableLength {i : Instr} (hv : variableLength i = true) : requiredLength i = none := by
  cases i <;> cases hv <;> rfl

/-- R605 check 3. -/
theorem checkFailure_lengthRange {i : Instr} {s : State} (hv : variableLength i = true)
    (hlt : s.cfg.bufBytes < s.inLen.toNat) : checkFailure i s = some .lengthRange := by
  simp [checkFailure, requiredLength_of_variableLength hv, hv, hlt]

/-- R605 check 4. -/
theorem checkFailure_invalidBlockLength {s : State} (hle : s.inLen.toNat ≤ s.cfg.bufBytes)
    (hmod : s.inLen.toNat % 8 ≠ 0) : checkFailure .decrypt s = some .invalidBlockLength := by
  have hrange : ¬ s.cfg.bufBytes < s.inLen.toNat := Nat.not_lt_of_le hle
  simp [checkFailure, requiredLength, variableLength, hrange, hmod]

theorem exec_of_checkFailure {i : Instr} {s : State} {code : ErrCode} (hp : s.phase = .accepted)
    (hc : checkFailure i s = some code) : exec i s = .next (finishErr code s) := by
  rw [exec_accepted i s hp, hc]

/-- Settles O33: the check that fails, by command and length, and the finish_err it leads to. -/
theorem lengthChecksInOrder : Obligations.LengthChecksInOrder := by
  intro i s code hp h
  have hc : checkFailure i s = some code := by
    rcases h with ⟨hi, hne, rfl⟩ | ⟨hi, hne, rfl⟩ | ⟨rfl, hne, rfl⟩ | ⟨rfl, hne, rfl⟩ | ⟨hi, hlt, rfl⟩ |
      ⟨rfl, hle, hmod, rfl⟩
    · simp only [List.mem_cons, List.not_mem_nil, or_false] at hi
      exact checkFailure_malformedLength (by rcases hi with rfl | rfl | rfl | rfl <;> rfl) hne
    · simp only [List.mem_cons, List.not_mem_nil, or_false] at hi
      exact checkFailure_malformedLength (by rcases hi with rfl | rfl <;> rfl) hne
    · exact checkFailure_malformedLength rfl hne
    · exact checkFailure_malformedLength rfl hne
    · simp only [List.mem_cons, List.not_mem_nil, or_false] at hi
      exact checkFailure_lengthRange (by rcases hi with rfl | rfl | rfl | rfl <;> rfl) hlt
    · exact checkFailure_invalidBlockLength hle hmod
  exact ⟨_, exec_of_checkFailure hp hc, finishErr_finishedErr code s, finishErr_hostStateKept code 0 s, rfl, rfl⟩

end Sys2Proof.Machine
end

section
/-! SUPPORT. The block transforms of a message (R470, R471) chunk by chunk, encrypt and decrypt as inverse functions
(R477), and messages split at a multiple of 8 (R479). -/

namespace Sys2Proof.Machine

/-! ## Chunks of 8 bytes -/

@[simp] theorem blocks_zero (c : Config) (k : Nat → BitVec 48) (m : List Byte) : blocks c k m 0 = [] := rfl

/-- The output chunk of block b is the transform of the input chunk of block b. -/
theorem blocks_chunk (c : Config) (k : Nat → BitVec 48) (m : List Byte) {b n : Nat} (hb : b < n) :
    ((blocks c k m n).drop (8 * b)).take 8 = block c k ((m.drop (8 * b)).take 8) := by
  induction n with
  | zero => exact absurd hb (Nat.not_lt_zero b)
  | succ n ih =>
    have hlen := blocks_length c k m n
    rw [blocks_succ]
    by_cases h : b < n
    · rw [List.drop_append_of_le_length (by omega), List.take_append_of_le_length (by rw [List.length_drop]; omega),
        ih h]
    · obtain rfl : b = n := by omega
      rw [List.drop_left' hlen, List.take_of_length_le (Nat.le_of_eq (block_length ..))]

/-- The blocks read from a message depend only on their chunks. -/
theorem blocks_congr (c : Config) (k : Nat → BitVec 48) {m m' : List Byte} {n : Nat}
    (h : ∀ b, b < n → (m.drop (8 * b)).take 8 = (m'.drop (8 * b)).take 8) : blocks c k m n = blocks c k m' n := by
  induction n with
  | zero => rw [blocks_zero, blocks_zero]
  | succ n ih => rw [blocks_succ, blocks_succ, ih fun b hb => h b (by omega), h n (Nat.lt_succ_self n)]

/-- R479: the blocks of a message of n1 whole chunks, and then those of what follows it. -/
theorem blocks_append (c : Config) (k : Nat → BitVec 48) {m1 : List Byte} (m2 : List Byte) {n1 : Nat}
    (h1 : m1.length = 8 * n1) (n2 : Nat) :
    blocks c k (m1 ++ m2) (n1 + n2) = blocks c k m1 n1 ++ blocks c k m2 n2 := by
  induction n2 with
  | zero =>
    have hchunk : ∀ b, b < n1 → ((m1 ++ m2).drop (8 * b)).take 8 = (m1.drop (8 * b)).take 8 := fun b hb => by
      rw [List.drop_append_of_le_length (by omega), List.take_append_of_le_length (by rw [List.length_drop]; omega)]
    exact (blocks_congr c k hchunk).trans (List.append_nil _).symm
  | succ n2 ih =>
    have hdrop : (m1 ++ m2).drop (8 * (n1 + n2)) = m2.drop (8 * n2) := by
      rw [Nat.mul_add, ← h1, List.drop_append, List.drop_eq_nil_of_le (Nat.le_add_right ..), Nat.add_sub_cancel_left,
        List.nil_append]
    rw [← Nat.add_assoc, blocks_succ, ih, hdrop, blocks_succ, List.append_assoc]

/-- R462, R477: the transforms under the keys in the other order give the message's first n chunks back. -/
theorem blocks_blocks (c : Config) {k k' : Nat → BitVec 48} (hk : ∀ j, j < 16 → k' j = k (15 - j)) {m : List Byte}
    {n : Nat} (hm : 8 * n ≤ m.length) {j : Nat} (hj : j ≤ n) :
    blocks c k' (blocks c k m n) j = m.take (8 * j) := by
  induction j with
  | zero => rfl
  | succ j ih =>
    have hchunk : ((m.drop (8 * j)).take 8).length = 8 := List.length_take_of_le (by rw [List.length_drop]; omega)
    rw [blocks_succ, ih (by omega), blocks_chunk c k m hj, block_block c hk hchunk, Nat.mul_succ, List.take_add]

/-! ## encrypt and decrypt (R470, R471, R477) -/

/-- R470, with the number of blocks of R452. -/
theorem encryptBytes_eq (c : Config) (k m : List Byte) : encryptBytes c k m =
    blocks c (keyAt .forward (deriveKeys (normalizeKey k))) (padBytes m) (m.length / 8 + 1) := by
  rw [encryptBytes, padBytes_length, Nat.mul_div_cancel_left _ (by decide)]

theorem encryptBytes_length (c : Config) (k m : List Byte) :
    (encryptBytes c k m).length = 8 * (m.length / 8 + 1) := by rw [encryptBytes_eq, blocks_length]

theorem decryptBytes_encryptBytes (c : Config) (k m : List Byte) :
    decryptBytes c k (encryptBytes c k m) = some m := by
  have hback := blocks_blocks c (fun j _ => keyAt_reverse (deriveKeys (normalizeKey k)) j)
    (Nat.le_of_eq (padBytes_length m).symm) (Nat.le_refl _)
  rw [decryptBytes, encryptBytes_length, Nat.mul_div_cancel_left _ (by decide), encryptBytes_eq, hback,
    ← padBytes_length, List.take_length, unpadBytes_padBytes]

/-- Settles O30: the reverse transforms give the padded message back, and unpad undoes pad. -/
theorem decryptionUndoesEncryption : Obligations.DecryptionUndoesEncryption := fun c k m =>
  ⟨encryptBytes_length c k m, decryptBytes_encryptBytes c k m⟩

/-! ## Splitting a message (R479) -/

/-- Whole chunks before a message do not change its padding. -/
theorem padBytes_append {m1 : List Byte} (m2 : List Byte) (h : m1.length % 8 = 0) :
    padBytes (m1 ++ m2) = m1 ++ padBytes m2 := by
  have hlen : padLength (m1 ++ m2).length = padLength m2.length := by
    simp only [padLength, List.length_append]
    omega
  rw [padBytes, hlen, List.append_assoc, padBytes]

/-- The padding of an array of at least 8 bytes lies in its last 8 bytes. -/
theorem unpadBytes_append (p : List Byte) {c : List Byte} (h : 8 ≤ c.length) :
    unpadBytes (p ++ c) = (unpadBytes c).map (p ++ ·) := by
  have hlast : (p ++ c).getD ((p ++ c).length - 1) 0 = c.getD (c.length - 1) 0 := by
    rw [List.getD_append_right _ _ _ _ (by rw [List.length_append]; omega), List.length_append]
    congr 1
    omega
  rw [unpadBytes_eq rfl, unpadBytes_eq rfl, hlast, List.length_append]
  generalize (c.getD (c.length - 1) 0).toNat = n
  by_cases hn : n = 0 ∨ 8 < n
  · rw [if_pos (by omega), if_pos (by omega), Option.map_none]
  · rw [if_neg (by omega), if_neg (by omega), Option.map_some, Nat.add_sub_assoc (by omega),
      List.take_length_add_append]

theorem encryptBytes_append (c : Config) (k : List Byte) {m1 : List Byte} (m2 : List Byte) (h : m1.length % 8 = 0) :
    blocks c (keyAt .forward (deriveKeys (normalizeKey k))) m1 (m1.length / 8) ++ encryptBytes c k m2 =
      encryptBytes c k (m1 ++ m2) := by
  have hn : (m1 ++ m2).length / 8 + 1 = m1.length / 8 + (m2.length / 8 + 1) := by
    rw [List.length_append]
    omega
  rw [encryptBytes_eq, encryptBytes_eq, padBytes_append m2 h, hn, blocks_append c _ _ (by omega)]

theorem decryptBytes_append (c : Config) (k : List Byte) {c1 c2 : List Byte} (h1 : c1.length % 8 = 0)
    (h2 : c2.length % 8 = 0) (hne : c2 ≠ []) :
    (decryptBytes c k c2).map
        (blocks c (keyAt .reverse (deriveKeys (normalizeKey k))) c1 (c1.length / 8) ++ ·) =
      decryptBytes c k (c1 ++ c2) := by
  have hpos := List.length_pos_iff.2 hne
  have hn : (c1 ++ c2).length / 8 = c1.length / 8 + c2.length / 8 := by
    rw [List.length_append]
    omega
  rw [decryptBytes, decryptBytes, hn, blocks_append c _ _ (by omega),
    unpadBytes_append _ (by rw [blocks_length]; omega)]

/-- Settles O32: the chunks of the first part are whole, so padding and unpadding happen in the second. -/
theorem blocksAreIndependent : Obligations.BlocksAreIndependent := fun c k _ m2 h1 =>
  ⟨encryptBytes_append c k m2 h1, fun hne h2 => decryptBytes_append c k h1 h2 hne⟩

end Sys2Proof.Machine
end

section
/-! SUPPORT. ENCRYPT and DECRYPT on the machine (R472 to R476): the steps before KEYGEN, 20 steps a block, and the
end. -/

namespace Sys2Proof.Machine

/-! ## Buffers that hold a byte array -/

/-- The buffer holds the bytes bs from index 0 on. -/
def Holds (m : Memory) (bs : List Byte) : Prop := ∀ a, a < bs.length → Memory.get? m a = bs[a]?

theorem holds_write (m : Memory) (bs : List Byte) : Holds (m.write 0 bs) bs := fun a ha => by
  rw [Memory.get?_write, if_pos (by omega), Nat.sub_zero]

/-- A read inside the bytes that a buffer holds draws no free value. -/
theorem Holds.read_inside {m : Memory} {bs : List Byte} (h : Holds m bs) {a n : Nat} (hle : a + n ≤ bs.length)
    (d : Nat) : m.read a n d = (bs.drop a).take n := by
  apply List.ext_getElem?
  intro t
  rw [Memory.read_getElem?, List.getElem?_take, List.getElem?_drop]
  split
  next ht => rw [h (a + t) (by omega), List.getElem?_eq_getElem (by omega), Option.getD_some]
  next => rfl

theorem Holds.read_all {m : Memory} {bs : List Byte} (h : Holds m bs) {n : Nat} (hn : bs.length = n) (d : Nat) :
    m.read 0 n d = bs := by
  rw [h.read_inside (by omega), List.drop_zero, List.take_of_length_le (Nat.le_of_eq hn)]

/-! ## Ends of commands -/

/-- How a command ends: with finish_ok and these bytes (R322), or with finish_err and this code (R610). -/
def Answers (r : Except ErrCode (List Byte)) (t : State) : Prop :=
  match r with
  | .ok out => FinishedOk out.length t ∧ OutputIs out t
  | .error code => FinishedErr code t

theorem Answers.idle {r : Except ErrCode (List Byte)} {t : State} (h : Answers r t) : t.busy = false := by
  cases r with
  | ok out => exact h.1.busy
  | error code => exact FinishedErr.busy h

/-- What unpad returned, or PADDING (R475, R485). -/
def orPadding (r : Option (List Byte)) : Except ErrCode (List Byte) := r.elim (.error .padding) .ok

theorem answers_orPadding_iff (r : Option (List Byte)) (t : State) : Answers (orPadding r) t ↔
    match r with
    | some m => FinishedOk m.length t ∧ OutputIs m t
    | none => FinishedErr .padding t := by cases r <;> exact Iff.rfl

/-- finish_ok of bytes that OBUF begins with. -/
theorem finishOk_answers {s : State} {out : List Byte} (hsize : out.length < 2 ^ 32) (h : Holds s.obuf out) :
    Answers (.ok out) (finishOk out.length s) := by
  refine ⟨finishOk_finishedOk hsize s, fun a => ?_⟩
  rw [finishOk_obuf, Memory.get?_below]
  split
  next ha => exact h a ha
  next ha => exact (List.getElem?_eq_none (Nat.le_of_not_lt ha)).symm

/-! ## ENCRYPT -/

/-- R472: the padded message stands from OBUF[0] on. -/
theorem encryptPad_get?_obuf (s : State) (a : Nat) : Memory.get? (encryptPad s).obuf a =
    if a < (padBytes (message s)).length then (padBytes (message s))[a]? else Memory.get? s.obuf a := by
  refine (Memory.get?_write s.obuf 0 (padBytes (message s)) a).trans ?_
  simp only [Nat.zero_le, true_and, Nat.zero_add, Nat.sub_zero]

/-- Settles O27: the first action of ENCRYPT pads, and its step from PADDED is the KEYGEN action. -/
theorem encryptPadsThenDerives : Obligations.EncryptPadsThenDerives := by
  refine fun s => ⟨fun hp hle => ⟨_, exec_of_variableLength hp rfl nofun hle, rfl, ?_⟩, exec_encrypt_padded s⟩
  rintro p rfl a
  exact encryptPad_get?_obuf { s with op := opcField s.cmdword } a

/-- From KEYGEN, with the padded message p in OBUF: the blocks are transformed in place, and finish_ok leaves their
transforms. -/
theorem encrypt_run_of_keygen {s : State} {p : List Byte} (h : Past .encrypt s) (hp : s.phase = .keygen)
    (hle : s.inLen.toNat ≤ 4088) (hlen : p.length = 8 * (s.inLen.toNat / 8 + 1)) (hobuf : Holds s.obuf p) :
    ∃ t, BusyRun (20 * (s.inLen.toNat / 8 + 1) + 1) s t ∧ HostStateKept s t ∧ t.rk = s.rk ∧
      Answers (.ok (blocks s.cfg (keyAt .forward s.rk) p (s.inLen.toNat / 8 + 1))) t := by
  obtain ⟨u, hrun, hu⟩ := blocks_run (job := encryptJob s) p s h rfl hp (Nat.succ_ne_zero _)
    (show s.inLen.toNat / 8 + 1 ≤ 65536 by omega)
    (by
      intro j hj
      replace hj : j < s.inLen.toNat / 8 + 1 := hj
      exact hobuf.read_inside (by omega) _)
  generalize hout : blocks s.cfg (keyAt .forward s.rk) p (s.inLen.toNat / 8 + 1) = out
  have hsize : out.length = 8 * (s.inLen.toNat / 8 + 1) := by rw [← hout, blocks_length]
  have hholds : Holds u.obuf out := fun a ha => by
    rw [hsize] at ha
    rw [← hout]
    exact (hu.obuf a).trans (if_pos ha)
  have hjob : encryptJob u = encryptJob s := by rw [encryptJob, hu.kept.inLen, encryptJob]
  have hend : exec .encrypt u = .next (finishOk out.length u) := by
    rw [exec_of_lastBlock (job := encryptJob u) rfl hu.phase (by rw [hjob]; exact Nat.le_of_eq hu.blk.symm), hsize,
      endActionOf, hjob, encryptJob]
  exact ⟨_, hrun.append (hu.past.run hend), hu.kept.trans (exec_hostStateKept hend), hu.rk,
    finishOk_answers (by omega) hholds⟩

/-- Settles O28: the steps from ACCEPTED and PADDED (O27) lead to KEYGEN, and from there the run of the blocks ends. -/
theorem encryptComputesEncryption : Obligations.EncryptComputesEncryption := by
  rintro s h hle m k rfl rfl
  have hcfg := s.cfg.bounds
  have hpad : exec .encrypt s = .next (encryptPad { s with op := opcField s.cmdword }) :=
    exec_of_variableLength h.phase rfl nofun hle
  have hop := decodeOpcode_of_decode _ _ h.word
  generalize hu : encryptPad { s with op := opcField s.cmdword } = u at hpad
  have hpast : Past .encrypt u := by subst hu; exact ⟨h.busy, h.events, nofun, hop⟩
  have hderive : exec .encrypt u = .next (keygenAction u) := exec_encrypt_padded u (by subst hu; rfl)
  have hkept := (exec_hostStateKept hpad).trans (exec_hostStateKept hderive)
  obtain ⟨t, hrun, hkept', hrk, hfin, hout⟩ :=
    encrypt_run_of_keygen (s := keygenAction u) (p := padBytes (message s))
      ⟨hpast.busy, hpast.events, nofun, hpast.op⟩ rfl (by rw [hkept.inLen]; omega)
      (by rw [padBytes_length, message_length, hkept.inLen]) (by subst hu; exact holds_write _ _)
  have hkey : (keygenAction u).rk = deriveKeys (normalizeKey (keyRead s (s.draws + s.inLen.toNat))) := by subst hu; rfl
  rw [blocks_length, hkept.inLen] at hfin
  rw [hkept.inLen] at hrun hout
  rw [hkept.cfg, hkey] at hout
  refine ⟨t, ?_, hfin, hkept.trans hkept', hrk.trans hkey, ?_⟩
  · rw [show 3 + 20 * (s.inLen.toNat / 8 + 1) = 1 + 1 + (20 * (s.inLen.toNat / 8 + 1) + 1) by omega]
    exact (((h.run hpad).append (hpast.run hderive)).append hrun).ends hfin.busy
  · rw [encryptBytes_eq, Memory.read_length]
    exact hout

/-! ## DECRYPT -/

/-- unpad drops bytes at the end only (R483). -/
theorem unpadBytes_take {c m : List Byte} (h : unpadBytes c = some m) : m = c.take m.length := by
  obtain ⟨-, n, -, -, hle, rfl⟩ := (unpadBytes_eq_some_iff c m).1 h
  rw [List.length_take_of_le (Nat.sub_le ..)]

/-- R475: the end action of DECRYPT, where its blocks' outputs stand in OBUF. -/
theorem decryptEnd_answers {s : State} {out : List Byte} (hlen : out.length = 8 * (s.inLen.toNat / 8))
    (hobuf : Holds s.obuf out) : Answers (orPadding (unpadBytes out)) (decryptEnd s) := by
  have hread : memRead .obuf 0 (8 * (decryptJob s).nblk) s = out := hobuf.read_all hlen s.draws
  have hsize := s.inLen.isLt
  rw [decryptEnd, hread]
  cases hm : unpadBytes out with
  | none => exact finishErr_finishedErr .padding _
  | some m =>
    have hle := unpadBytes_length_le hm
    refine finishOk_answers (by omega) fun a ha => ?_
    rw [unpadBytes_take hm, List.getElem?_take, if_pos ha]
    exact hobuf a (by omega)

/-- From KEYGEN: no block is PADDING, and else the blocks of the ciphertext c go through the datapath and the end action
unpads their outputs. -/
theorem decrypt_run_of_keygen {s : State} (h : Past .decrypt s) (hp : s.phase = .keygen)
    (hle : s.inLen.toNat ≤ 4088) (hmod : s.inLen.toNat % 8 = 0) :
    ∃ t, BusyRun (20 * (s.inLen.toNat / 8) + 1) s t ∧ HostStateKept s t ∧ t.rk = s.rk ∧
      Answers (orPadding (unpadBytes (blocks s.cfg (keyAt .reverse s.rk)
        (Memory.read s.ibuf 0 s.inLen.toNat s.draws) (s.inLen.toNat / 8)))) t := by
  by_cases h0 : s.inLen.toNat / 8 = 0
  · have hend : exec .decrypt s = .next (finishErr .padding s) := by
      rw [exec_of_keygen (job := decryptJob s) rfl hp, keygenStep]
      exact congrArg _ (if_pos h0)
    rw [h0]
    exact ⟨_, h.run hend, exec_hostStateKept hend, rfl, finishErr_finishedErr .padding s⟩
  · have hlen : 8 * (s.inLen.toNat / 8) = s.inLen.toNat := by omega
    obtain ⟨u, hrun, hu⟩ := blocks_run (job := decryptJob s) (Memory.read s.ibuf 0 s.inLen.toNat s.draws) s h rfl hp h0
      (show s.inLen.toNat / 8 ≤ 65536 by omega)
      (by
        intro j hj
        have hblock := read_block s.ibuf (s.inLen.toNat / 8) s.draws j hj
        rwa [hlen] at hblock)
    have hend : exec .decrypt u = .next (decryptEnd u) :=
      exec_of_lastBlock (job := decryptJob u) rfl hu.phase
        (by rw [decryptJob, hu.kept.inLen]; exact Nat.le_of_eq hu.blk.symm)
    obtain ⟨hrk, -⟩ := endActionOf_rk_op .decrypt u
    refine ⟨_, hrun.append (hu.past.run hend), hu.kept.trans (exec_hostStateKept hend), hrk.trans hu.rk,
      decryptEnd_answers ?_ fun a ha => ?_⟩
    · rw [blocks_length, hu.kept.inLen]
    · rw [blocks_length] at ha
      exact (hu.obuf a).trans (if_pos ha)

/-- The position after the KEYGEN action at ACCEPTED (R321, R434). -/
theorem JustAccepted.past_keygen {i : Instr} {s : State} (h : JustAccepted i s) :
    Past i (keygenAction { s with op := opcField s.cmdword }) :=
  ⟨h.busy, h.events, nofun, decodeOpcode_of_decode _ _ h.word⟩

/-- Settles O29: the ACCEPTED step is the KEYGEN action (O16), and from there the run of the blocks ends. -/
theorem decryptComputesDecryption : Obligations.DecryptComputesDecryption := by
  rintro s h hle hmod c k rfl rfl
  have hcfg := s.cfg.bounds
  have hfirst : exec .decrypt s = .next (keygenAction { s with op := opcField s.cmdword }) :=
    keyedCommandsDeriveAtAccepted .decrypt s h.phase (.inr (.inr ⟨rfl, hle, hmod⟩))
  obtain ⟨t, hrun, hkept, hrk, hres⟩ :=
    decrypt_run_of_keygen h.past_keygen rfl (show s.inLen.toNat ≤ 4088 by omega) hmod
  refine ⟨t, ?_, (exec_hostStateKept hfirst).trans hkept, hrk, ?_⟩
  · rw [show 2 + 20 * (s.inLen.toNat / 8) = 1 + (20 * (s.inLen.toNat / 8) + 1) by omega]
    exact ((h.run hfirst).append hrun).ends hres.idle
  · rw [decryptBytes, Memory.read_length]
    exact (answers_orPadding_iff _ t).1 hres

end Sys2Proof.Machine
end

section
/-! SUPPORT. What each command answers as a function of its input and key bytes (R478), and the round trip of R477 on
the machine. -/

namespace Sys2Proof.Machine

/-! ## Inputs and answers -/

/-- The answer of a command whose checks pass, inp being IBUF[0 .. IN_LEN - 1] and key being
KEY[0 .. min(KEY_LEN, 8) - 1] (R310, R430). -/
def answerOf (c : Config) (i : Instr) (inp key : List Byte) : Except ErrCode (List Byte) :=
  match i with
  | .permIp => .ok (bytes (initialPermutation c (bits 64 inp)))
  | .permFp => .ok (bytes (finalPermutation c (bits 64 inp)))
  | .permE => .ok (bytes (expand c (bits 32 inp)))
  | .permP => .ok (bytes (roundPermutation c (bits 32 inp)))
  | .subst => .ok (bytes (substitute c (bits 48 inp)))
  | .fround => .ok (bytes (roundFunction c (bits 32 (inp.take 4)) (bits 48 ((inp.drop 4).take 6))))
  | .keyDerive => .ok (roundKeyBytes (deriveKeys (normalizeKey key)))
  | .encBlock => .ok (block c (keyAt .forward (deriveKeys (normalizeKey key))) inp)
  | .decBlock => .ok (block c (keyAt .reverse (deriveKeys (normalizeKey key))) inp)
  | .pad => .ok (padBytes inp)
  | .unpad => orPadding (unpadBytes inp)
  | .encrypt => .ok (encryptBytes c key inp)
  | .decrypt => orPadding (decryptBytes c key inp)

/-- The command i finds these input and key bytes, all of them written. KEY_DERIVE reads no input (R436). -/
structure HasInputs (i : Instr) (inp key : List Byte) (s : State) : Prop where
  inpLength : i ≠ .keyDerive → inp.length = s.inLen.toNat
  inp       : i ≠ .keyDerive → Holds s.ibuf inp
  keyLength : key.length = min s.keyLen.toNat 8
  key       : Holds s.key key

theorem HasInputs.keyRead {i : Instr} {inp key : List Byte} {s : State} (h : HasInputs i inp key s) (d : Nat) :
    keyRead s d = key := h.key.read_all h.keyLength d

theorem HasInputs.inpRead {i : Instr} {inp key : List Byte} {s : State} (h : HasInputs i inp key s)
    (hi : i ≠ .keyDerive) (d : Nat) : Memory.read s.ibuf 0 s.inLen.toNat d = inp :=
  (h.inp hi).read_all (h.inpLength hi) d

/-! ## The commands of one step -/

theorem Holds.ibufBits {s : State} {inp : List Byte} (h : Holds s.ibuf inp) {w : Nat} (hw : inp.length = w / 8) :
    ibufBits 0 w s = bits w inp := congrArg (bits w) (h.read_all hw s.draws)

theorem Holds.ibufBits_inside {s : State} {inp : List Byte} (h : Holds s.ibuf inp) {a w : Nat}
    (hle : a + w / 8 ≤ inp.length) : Machine.ibufBits a w s = bits w ((inp.drop a).take (w / 8)) :=
  congrArg (bits w) (h.read_inside hle s.draws)

theorem deliver_answers {out : List Byte} (hsize : out.length < 2 ^ 32) (s : State) :
    Answers (.ok out) (deliver out s) := ⟨deliver_finishedOk rfl hsize s, deliver_outputIs out s⟩

theorem deliverUnpadded_answers {c : List Byte} (hsize : c.length < 2 ^ 32) (s : State) :
    Answers (orPadding (unpadBytes c)) (deliverUnpadded c s) := by
  unfold deliverUnpadded
  cases hm : unpadBytes c with
  | none => exact finishErr_finishedErr .padding s
  | some m => exact deliver_answers ((unpadBytes_length_le hm).trans_lt hsize) s

/-- R721, with no block to do for IN_LEN = 0. -/
theorem stepCount_decrypt (s : State) : stepCount .decrypt s = 2 + 20 * (s.inLen.toNat / 8) := by
  rw [stepCount]
  split_ifs <;> omega

/-- The whole action of a command that is one step. -/
theorem firstAction_answers {i : Instr} {inp key : List Byte} {s : State} (hone : stepCount i s = 1)
    (hc : checkFailure i s = none) (h : HasInputs i inp key s) :
    Answers (answerOf s.cfg i inp key) (firstAction i s) := by
  have hcfg := s.cfg.bounds
  obtain ⟨hreq, -, -⟩ := (checkFailure_eq_none_iff i s).1 hc
  cases i
  case permIp | permFp | permE | permP | subst =>
    have hlen := (h.inpLength nofun).trans (hreq _ rfl)
    rw [firstAction, (h.inp nofun).ibufBits hlen]
    exact deliver_answers (by rw [bytes_length]; decide) _
  case fround =>
    have hlen := (h.inpLength nofun).trans (hreq _ rfl)
    have hinp := h.inp nofun
    rw [firstAction, hinp.ibufBits_inside (a := 0) (w := 32) (by omega),
      Holds.ibufBits_inside (s := s.drew 4) (a := 4) (w := 48) hinp (by omega)]
    exact deliver_answers (by rw [bytes_length]; decide) _
  case pad =>
    have hle := inLen_le_of_checked hc rfl
    have hlen := h.inpLength nofun
    rw [firstAction, show message s = inp from h.inpRead nofun s.draws]
    exact deliver_answers (by rw [padBytes_length]; omega) _
  case unpad =>
    rw [firstAction, show message s = inp from h.inpRead nofun s.draws]
    exact deliverUnpadded_answers (h.inpLength nofun ▸ s.inLen.isLt) _
  case keyDerive | encBlock | decBlock => cases hone
  case encrypt =>
    rw [stepCount] at hone
    omega
  case decrypt =>
    rw [stepCount_decrypt] at hone
    omega

/-! ## The commands of more steps -/

theorem JustAccepted.keyDerive_answers {inp key : List Byte} {s : State} (h : JustAccepted .keyDerive s)
    (hin : HasInputs .keyDerive inp key s) :
    ∃ t, EndsAfter 2 s t ∧ Answers (answerOf s.cfg .keyDerive inp key) t := by
  have hfirst : exec .keyDerive s = .next (keygenAction { s with op := opcField s.cmdword }) :=
    keyedCommandsDeriveAtAccepted .keyDerive s h.phase (.inl rfl)
  have hend := h.past_keygen.run (exec_keyDerive_keygen _ rfl)
  have hrk : (keygenAction { s with op := opcField s.cmdword }).rk = deriveKeys (normalizeKey key) :=
    congrArg (fun k => deriveKeys (normalizeKey k)) (hin.keyRead s.draws)
  refine ⟨_, ((h.run hfirst).append hend).ends rfl, ?_⟩
  rw [answerOf, ← hrk]
  exact deliver_answers (by rw [roundKeyBytes_length]; decide) _

theorem JustAccepted.block_answers {i : Instr} {dir : Direction} {inp key : List Byte} {s : State}
    (h : JustAccepted i s) (hi : (i = .encBlock ∧ dir = .forward) ∨ (i = .decBlock ∧ dir = .reverse))
    (hlen : s.inLen.toNat = 8) (hin : HasInputs i inp key s) :
    ∃ t, EndsAfter 22 s t ∧ Answers (.ok (block s.cfg (keyAt dir (deriveKeys (normalizeKey key))) inp)) t := by
  obtain ⟨t, hends, hfin, -, hrk, hout⟩ := blockCommandsComputeBlockTransform i dir s hi h hlen
  have hinp := hin.inpRead (by rcases hi with ⟨rfl, -⟩ | ⟨rfl, -⟩ <;> nofun) (s.draws + min s.keyLen.toNat 8)
  rw [hlen] at hinp
  rw [hrk, hin.keyRead, hinp] at hout
  exact ⟨t, hends, by rwa [block_length], hout⟩

theorem JustAccepted.encrypt_answers {inp key : List Byte} {s : State} (h : JustAccepted .encrypt s)
    (hle : s.inLen.toNat ≤ s.cfg.bufBytes) (hin : HasInputs .encrypt inp key s) :
    ∃ t, EndsAfter (stepCount .encrypt s) s t ∧ Answers (answerOf s.cfg .encrypt inp key) t := by
  obtain ⟨t, hends, hfin, -, -, hout⟩ := encryptComputesEncryption s h hle inp key
    (hin.inpRead nofun _).symm (hin.keyRead _).symm
  exact ⟨t, hends, by rwa [encryptBytes_length, hin.inpLength nofun], hout⟩

theorem JustAccepted.decrypt_answers {inp key : List Byte} {s : State} (h : JustAccepted .decrypt s)
    (hle : s.inLen.toNat ≤ s.cfg.bufBytes) (hmod : s.inLen.toNat % 8 = 0) (hin : HasInputs .decrypt inp key s) :
    ∃ t, EndsAfter (stepCount .decrypt s) s t ∧ Answers (answerOf s.cfg .decrypt inp key) t := by
  obtain ⟨t, hends, -, -, hres⟩ := decryptComputesDecryption s h hle hmod inp key
    (hin.keyRead _).symm (hin.inpRead nofun _).symm
  exact ⟨t, stepCount_decrypt s ▸ hends, (answers_orPadding_iff _ t).2 hres⟩

/-- A command whose checks pass ends after the steps of R721 with the answer that its inputs give. -/
theorem JustAccepted.answers_of_checked {i : Instr} {inp key : List Byte} {s : State} (h : JustAccepted i s)
    (hc : checkFailure i s = none) (hin : HasInputs i inp key s) :
    ∃ t, EndsAfter (stepCount i s) s t ∧ Answers (answerOf s.cfg i inp key) t := by
  obtain ⟨hreq, hmax, hmod⟩ := (checkFailure_eq_none_iff i s).1 hc
  cases i
  case keyDerive => exact h.keyDerive_answers hin
  case encBlock => exact h.block_answers (.inl ⟨rfl, rfl⟩) (hreq 8 rfl) hin
  case decBlock => exact h.block_answers (.inr ⟨rfl, rfl⟩) (hreq 8 rfl) hin
  case encrypt => exact h.encrypt_answers (hmax rfl) hin
  case decrypt => exact h.decrypt_answers (hmax rfl) (hmod rfl) hin
  all_goals
    have hx := h.run (by rw [exec_accepted _ s h.phase, hc])
    have hans := firstAction_answers (s := { s with op := opcField s.cmdword }) rfl hc { hin with }
    exact ⟨_, hx.ends hans.idle, hans⟩

/-! ## The round trip (R477) -/

/-- The bytes read of a buffer whose first n bytes are all written are the bytes that it holds. -/
theorem Written.holds_read {m : Memory} {n : Nat} (h : Written m 0 n) (d : Nat) : Holds m (m.read 0 n d) := by
  intro a ha
  rw [Memory.read_length] at ha
  have hsome := h a ha
  rw [Nat.zero_add] at hsome
  obtain ⟨b, hb⟩ := Option.isSome_iff_exists.1 hsome
  rw [Memory.read_getElem?, if_pos ha, Nat.zero_add, hb, Option.getD_some]

theorem hasInputs_of_written {i : Instr} {s : State} (hin : i ≠ .keyDerive → Written s.ibuf 0 s.inLen.toNat)
    (hkey : Written s.key 0 (min s.keyLen.toNat 8)) (d : Nat) :
    HasInputs i (Memory.read s.ibuf 0 s.inLen.toNat d) (keyRead s d) s where
  inpLength := fun _ => Memory.read_length ..
  inp := fun hi => (hin hi).holds_read d
  keyLength := Memory.read_length ..
  key := hkey.holds_read d

/-- Settles O31: ENCRYPT answers the encryption of the written message, which is then the written ciphertext that
DECRYPT finds, and decrypt undoes encrypt. -/
theorem encryptThenDecryptRestoresMessage : Obligations.EncryptThenDecryptRestoresMessage := by
  intro s h hle hmsg hkey
  have hcfg := s.cfg.bounds
  have hin := hasInputs_of_written (i := .encrypt) (fun _ => hmsg) hkey s.draws
  have hmlen : (Memory.read s.ibuf 0 s.inLen.toNat s.draws).length = s.inLen.toNat := Memory.read_length ..
  have hholds := hmsg.holds_read s.draws
  generalize Memory.read s.ibuf 0 s.inLen.toNat s.draws = m at hin hmlen hholds
  obtain ⟨t, hends, hfin, hout⟩ := h.encrypt_answers (by omega) hin
  have hlen : t.outLen.toNat = (encryptBytes s.cfg (keyRead s s.draws) m).length := hfin.outLen
  refine ⟨t, hends, fun s' h' hcfg' hkey' hkeyLen hinLen hibuf => ?_⟩
  have hin' : HasInputs .decrypt (encryptBytes s.cfg (keyRead s s.draws) m) (keyRead s s.draws) s' :=
    { inpLength := fun _ => by rw [hinLen, hlen]
      inp := fun _ a ha => (hibuf a (hlen ▸ ha)).trans (hout a)
      keyLength := by rw [hkeyLen]; exact hin.keyLength
      key := hkey' ▸ hin.key }
  rw [encryptBytes_length, hmlen] at hlen
  obtain ⟨t', hends', hans⟩ :=
    h'.decrypt_answers (by rw [hinLen, hlen, hcfg']; omega) (by rw [hinLen, hlen]; omega) hin'
  rw [answerOf, hcfg', decryptBytes_encryptBytes] at hans
  obtain ⟨hfin', hout'⟩ := hans
  refine ⟨t', hends', hmlen ▸ hfin', fun a => (hout' a).trans ?_⟩
  split
  next ha => exact (hholds a (hmlen ▸ ha)).symm
  next ha => exact List.getElem?_eq_none (by omega)

/-! ## Determinism (R478) -/

/-- What the host observes of the end of a command. -/
structure SameResult (t t' : State) : Prop where
  done    : t'.done = t.done
  err     : t'.err = t.err
  errcode : t'.errcode = t.errcode
  outLen  : t'.outLen = t.outLen
  obuf    : ∀ a, Memory.get? t'.obuf a = Memory.get? t.obuf a

/-- An answer says all that the host observes. -/
theorem Answers.sameResult {r : Except ErrCode (List Byte)} {t t' : State} (h : Answers r t) (h' : Answers r t') :
    SameResult t t' := by
  cases r with
  | ok out =>
    obtain ⟨hfin, hout⟩ := h
    obtain ⟨hfin', hout'⟩ := h'
    exact ⟨hfin'.done.trans hfin.done.symm, hfin'.err.trans hfin.err.symm, hfin'.errcode.trans hfin.errcode.symm,
      BitVec.eq_of_toNat_eq (hfin'.outLen.trans hfin.outLen.symm), fun a => (hout' a).trans (hout a).symm⟩
  | error code =>
    replace h : FinishedErr code t := h
    replace h' : FinishedErr code t' := h'
    exact ⟨h'.done.trans h.done.symm, h'.err.trans h.err.symm, h'.errcode.trans h.errcode.symm,
      h'.outLen.trans h.outLen.symm, fun a => (h'.obuf a).trans (h.obuf a).symm⟩

theorem JustAccepted.answers_of_failed {i : Instr} {s : State} {code : ErrCode} (h : JustAccepted i s)
    (hc : checkFailure i s = some code) : ∃ t, EndsAfter 1 s t ∧ Answers (.error code) t :=
  ⟨_, (h.run (exec_of_checkFailure h.phase hc)).ends rfl, finishErr_finishedErr code s⟩

/-- Every checked input fits in IBUF (R310, R605). -/
theorem inLen_le_bufBytes {i : Instr} {s : State} (hc : checkFailure i s = none) (hi : i ≠ .keyDerive) :
    s.inLen.toNat ≤ s.cfg.bufBytes := by
  have hcfg := s.cfg.bounds
  obtain ⟨hreq, hmax, -⟩ := (checkFailure_eq_none_iff i s).1 hc
  cases i
  case keyDerive => exact absurd rfl hi
  case pad | unpad | encrypt | decrypt => exact hmax rfl
  all_goals
    have hlen := hreq _ rfl
    omega

/-- Two buffers that hold the same written bytes below n. -/
def Agree (m m' : Memory) (n : Nat) : Prop := ∀ a, a < n → ∃ b, Memory.get? m a = some b ∧ Memory.get? m' a = some b

theorem Agree.written {m m' : Memory} {n : Nat} (h : Agree m m' n) : Written m 0 n := fun a ha => by
  obtain ⟨b, hb, -⟩ := h a ha
  rw [Nat.zero_add, hb]
  rfl

/-- What one of the two buffers holds below n, the other holds too. -/
theorem Agree.holds {m m' : Memory} {n : Nat} (h : Agree m m' n) {bs : List Byte} (hn : bs.length = n)
    (hm : Holds m bs) : Holds m' bs := fun a ha => by
  obtain ⟨b, hb, hb'⟩ := h a (hn ▸ ha)
  rw [hb', ← hm a ha, hb]

theorem stepCount_congr (i : Instr) {s s' : State} (hl : s'.inLen = s.inLen) : stepCount i s' = stepCount i s := by
  cases i <;> simp only [stepCount, hl]

/-- Settles O58: both commands fail the same check, or both answer what their common inputs give. -/
theorem resultsDependOnlyOnInputs : Obligations.ResultsDependOnlyOnInputs := by
  intro i s s' h h' hcfg hlen hkeyLen hibuf hkey
  obtain ⟨n, r, ⟨t, hends, hans⟩, ⟨t', hends', hans'⟩⟩ : ∃ n r,
      (∃ t, EndsAfter n s t ∧ Answers r t) ∧ ∃ t', EndsAfter n s' t' ∧ Answers r t' := by
    have hcheck := checkFailure_congr i hcfg hlen
    cases hc : checkFailure i s with
    | some code => exact ⟨1, .error code, h.answers_of_failed hc, h'.answers_of_failed (hcheck.trans hc)⟩
    | none =>
      have hagree : i ≠ .keyDerive → Agree s.ibuf s'.ibuf s.inLen.toNat := fun hi a ha =>
        hibuf hi a ha (ha.trans_le (inLen_le_bufBytes hc hi))
      have hin := hasInputs_of_written (fun hi => (hagree hi).written) (Agree.written hkey) s.draws
      have hin' : HasInputs i _ _ s' :=
        { inpLength := fun hi => (hin.inpLength hi).trans (by rw [hlen])
          inp := fun hi => (hagree hi).holds (hin.inpLength hi) (hin.inp hi)
          keyLength := hin.keyLength.trans hkeyLen.symm
          key := Agree.holds hkey hin.keyLength hin.key }
      refine ⟨_, _, h.answers_of_checked hc hin, ?_⟩
      rw [← stepCount_congr i hlen, ← hcfg]
      exact h'.answers_of_checked (hcheck.trans hc) hin'
  obtain ⟨hdone, herr, hcode, hout, hobuf⟩ := hans.sameResult hans'
  exact ⟨n, t, t', hends, hends', hdone, herr, hcode, hout, hobuf⟩

end Sys2Proof.Machine
end
